-- ==== Sys2Proof/Word.lean ====
section
/-! DEFINITION. The words of the PMZ-MPU: limbs and scalar words of 32 bits, 64-bit intermediates, register
indices, limb lists (spec 00_scope.md R9, R12, R14). -/

namespace Sys2Proof

/-- A 32-bit word: a limb, a scalar register, a command word (R9, R31, R90). -/
abbrev Word := BitVec 32

/-- The 64-bit intermediate of limb arithmetic (R9: "64-bit intermediate accumulation"). -/
abbrev DWord := BitVec 64

/-- The index of a big-number register: NREG = 16, a 4-bit field of the command word (R10, R21, R91). -/
abbrev Reg := Fin 16

/-- A limb list, least-significant limb first (R12, R61). -/
abbrev Limbs := List Word

end Sys2Proof
end

