-- ==== Sys2Proof/Config.lean ====
section
/-! DEFINITION. What one unit fixes (00_scope.md R9, R10; 10_state.md R44, R45) and the model's one free value,
the draw the environment answers when no answer is queued (log 4). -/

namespace Sys2Proof.Config

/-- `BASE = 2^32`, the weight step between two limbs (R9). -/
def base : Nat := 2 ^ 32

/-- `NREG` (R10, D3). -/
def nreg : Nat := 16

/-- The value of MAXCAP this hardware takes (R10, D4). The parameter itself is `State.maxcap`: a statement about
every state is a statement about every MAXCAP (log 3). -/
def maxcapDefault : Nat := 256

/-- The largest value MAXCAP may take (R10, D4). -/
def maxcapLimit : Nat := 2 ^ 27 - 1

/-- `PRIME_ACCURACY`, the Miller-Rabin round count inside GENPRIME (R10). -/
def primeAccuracy : Nat := 30

/-- `TRIAL_LIMIT`, the bound of the trial-division table (R10). -/
def trialLimit : Nat := 2000

/-- The constant of the `ID` register (R44). -/
def idWord : Word := 0x504D5A01

/-- FREE VALUE. The environment's answer to the draw of the given number, before it is brought into the range
asked for, where the state queues no answer (R17, R280). Nothing constrains it (log 4). -/
opaque freeDraw : Nat → Nat

end Sys2Proof.Config
end

