-- ==== Sys2Proof/Syntax.lean ====
section
/-! DEFINITION. The 33 commands of the PMZ-MPU, one constructor per row of spec/opcode_table.json
(30_encoding.md R97). The arguments are the register fields the row's format uses, in the order rd, rs1, rs2, rs3
(R91, R92). Scalar operands are not part of a command: they are in ARG0 and ARG1 (R94). -/

namespace Sys2Proof

inductive Instr where
  | alloc (rd : Reg)
  | free (rd : Reg)
  | realloc (rd : Reg)
  | copy (rd rs1 : Reg)
  | copyc (rd rs1 : Reg)
  | setu32 (rd : Reg)
  | getlimb (rs1 : Reg)
  | setlimb (rd : Reg)
  | getbyte (rs1 : Reg)
  | setbyte (rd : Reg)
  | alen (rs1 : Reg)
  | bitlen (rs1 : Reg)
  | getsign (rs1 : Reg)
  | setsign (rd : Reg)
  | neg (rd rs1 : Reg)
  | cmp (rs1 rs2 : Reg)
  | shl (rd rs1 : Reg)
  | shr (rd rs1 : Reg)
  | add (rd rs1 rs2 : Reg)
  | sub (rd rs1 rs2 : Reg)
  | mul (rd rs1 rs2 : Reg)
  /-- `rd` takes the quotient, `rs3` the remainder (R91). -/
  | divrem (rd rs1 rs2 rs3 : Reg)
  | div (rd rs1 rs2 : Reg)
  | mod (rd rs1 rs2 : Reg)
  | gcd (rd rs1 rs2 : Reg)
  | lcm (rd rs1 rs2 : Reg)
  | modinv (rd rs1 rs2 : Reg)
  /-- `rs1` is the base, `rs2` the exponent, `rs3` the modulus (R91, R252). -/
  | modexp (rd rs1 rs2 rs3 : Reg)
  | isprime (rs1 : Reg)
  | randl (rd : Reg)
  | randmax (rd rs1 : Reg)
  | randbits (rd : Reg)
  | genprime (rd : Reg)
deriving DecidableEq, Repr

end Sys2Proof
end

