-- ==== Sys2Proof/WellFormed.lean ====
section
/-! DEFINITION. Which commands are well formed. A register field is a `Fin 16` and every 4-bit value is a legal index
(30_encoding.md R91), so the one check left is DIVREM's: its two destinations differ (R96, R99). -/

namespace Sys2Proof

/-- The command has a legal word (R96, R98, R99). -/
def Instr.wellFormed : Instr → Bool
  | .divrem rd _ _ rs3 => decide (rd ≠ rs3)
  | .alloc _ | .free _ | .realloc _ | .copy _ _ | .copyc _ _ | .setu32 _ | .getlimb _ | .setlimb _
  | .getbyte _ | .setbyte _ | .alen _ | .bitlen _ | .getsign _ | .setsign _ | .neg _ _ | .cmp _ _
  | .shl _ _ | .shr _ _ | .add _ _ _ | .sub _ _ _ | .mul _ _ _ | .div _ _ _ | .mod _ _ _
  | .gcd _ _ _ | .lcm _ _ _ | .modinv _ _ _ | .modexp _ _ _ _ | .isprime _ | .randl _
  | .randmax _ _ | .randbits _ | .genprime _ => true

end Sys2Proof
end

