-- ==== Sys2Proof/Decode.lean ====
section
/-! DEFINITION. The command word: its fields, the opcode table, the decoder and, after it, the encoder
(30_encoding.md R90 to R100). Decoding is total and rejects by name (R96, R98). -/

namespace Sys2Proof

/-- Why a word is illegal (R98). -/
inductive Illegal where
  /-- Opcode 0x00 or any other value R97 has no row for. -/
  | undefinedOpcode
  /-- A register field the format does not use, or the z field, is not zero (R93). -/
  | nonzeroMustBeZero
  /-- DIVREM with `rd = rs3` (R99). -/
  | sameDestinations
deriving DecidableEq, Repr

/-- The fields of a command word (R91). -/
structure Fields where
  op : BitVec 8
  rd : Reg
  rs1 : Reg
  rs2 : Reg
  rs3 : Reg
  z : BitVec 8
deriving DecidableEq, Repr

/-- The fields of `w`: op 31:24, rd 23:20, rs1 19:16, rs2 15:12, rs3 11:8, z 7:0 (R91). -/
def fieldsOf (w : Word) : Fields :=
  { op := w.extractLsb' 24 8
    rd := (w.extractLsb' 20 4).toFin
    rs1 := (w.extractLsb' 16 4).toFin
    rs2 := (w.extractLsb' 12 4).toFin
    rs3 := (w.extractLsb' 8 4).toFin
    z := w.extractLsb' 0 8 }

/-- The six formats (R92). -/
inductive Format where
  | D | S | DS | SS | DSS | DSSS
deriving DecidableEq, Repr

/-- The mask of a format: 1 in every bit the decoder compares (R92). -/
def Format.mask : Format → Word
  | .D => 0xFF0FFFFF
  | .S => 0xFFF0FFFF
  | .DS => 0xFF00FFFF
  | .SS => 0xFFF00FFF
  | .DSS => 0xFF000FFF
  | .DSSS => 0xFF0000FF

/-- The format D leaves rs1, rs2, rs3 and z zero (R92, R93). -/
def decodeD (f : Fields) (mk : Reg → Instr) : Except Illegal Instr :=
  if f.rs1 = 0 ∧ f.rs2 = 0 ∧ f.rs3 = 0 ∧ f.z = 0 then .ok (mk f.rd) else .error .nonzeroMustBeZero

/-- The format S leaves rd, rs2, rs3 and z zero (R92, R93). -/
def decodeS (f : Fields) (mk : Reg → Instr) : Except Illegal Instr :=
  if f.rd = 0 ∧ f.rs2 = 0 ∧ f.rs3 = 0 ∧ f.z = 0 then .ok (mk f.rs1) else .error .nonzeroMustBeZero

/-- The format DS leaves rs2, rs3 and z zero (R92, R93). -/
def decodeDS (f : Fields) (mk : Reg → Reg → Instr) : Except Illegal Instr :=
  if f.rs2 = 0 ∧ f.rs3 = 0 ∧ f.z = 0 then .ok (mk f.rd f.rs1) else .error .nonzeroMustBeZero

/-- The format SS leaves rd, rs3 and z zero (R92, R93). -/
def decodeSS (f : Fields) (mk : Reg → Reg → Instr) : Except Illegal Instr :=
  if f.rd = 0 ∧ f.rs3 = 0 ∧ f.z = 0 then .ok (mk f.rs1 f.rs2) else .error .nonzeroMustBeZero

/-- The format DSS leaves rs3 and z zero (R92, R93). -/
def decodeDSS (f : Fields) (mk : Reg → Reg → Reg → Instr) : Except Illegal Instr :=
  if f.rs3 = 0 ∧ f.z = 0 then .ok (mk f.rd f.rs1 f.rs2) else .error .nonzeroMustBeZero

/-- The format DSSS leaves z zero (R92, R93). -/
def decodeDSSS (f : Fields) (mk : Reg → Reg → Reg → Reg → Instr) : Except Illegal Instr :=
  if f.z = 0 then .ok (mk f.rd f.rs1 f.rs2 f.rs3) else .error .nonzeroMustBeZero

/-- DIVREM's further check (R96, R99). -/
def rejectSameDestinations (f : Fields) (r : Except Illegal Instr) : Except Illegal Instr :=
  match r with
  | .error e => .error e
  | .ok i => if f.rd = f.rs3 then .error .sameDestinations else .ok i

/-- The command with fields `f`: the opcode selects the row (R97), then the row's format checks its zero bits. -/
def decodeFields (f : Fields) : Except Illegal Instr :=
  match f.op.toNat with
  | 0x01 => decodeD f .alloc
  | 0x02 => decodeD f .free
  | 0x03 => decodeD f .realloc
  | 0x04 => decodeDS f .copy
  | 0x05 => decodeDS f .copyc
  | 0x06 => decodeD f .setu32
  | 0x07 => decodeS f .getlimb
  | 0x08 => decodeD f .setlimb
  | 0x09 => decodeS f .getbyte
  | 0x0A => decodeD f .setbyte
  | 0x0B => decodeS f .alen
  | 0x0C => decodeS f .bitlen
  | 0x0D => decodeS f .getsign
  | 0x0E => decodeD f .setsign
  | 0x0F => decodeDS f .neg
  | 0x10 => decodeSS f .cmp
  | 0x11 => decodeDS f .shl
  | 0x12 => decodeDS f .shr
  | 0x20 => decodeDSS f .add
  | 0x21 => decodeDSS f .sub
  | 0x22 => decodeDSS f .mul
  | 0x30 => rejectSameDestinations f (decodeDSSS f .divrem)
  | 0x31 => decodeDSS f .div
  | 0x32 => decodeDSS f .mod
  | 0x40 => decodeDSS f .gcd
  | 0x41 => decodeDSS f .lcm
  | 0x42 => decodeDSS f .modinv
  | 0x43 => decodeDSSS f .modexp
  | 0x44 => decodeS f .isprime
  | 0x50 => decodeD f .randl
  | 0x51 => decodeDS f .randmax
  | 0x52 => decodeD f .randbits
  | 0x53 => decodeD f .genprime
  | _ => .error .undefinedOpcode

/-- Decoding of any 32-bit word (R96). -/
def decode (w : Word) : Except Illegal Instr :=
  decodeFields (fieldsOf w)

/-- The host's view of the decoder: the instruction of `nbits` bits whose bits are `w`, the bits above them zero. A
command is one 32-bit word, written whole to CMD, so there is no byte order to undo (R65, R90). -/
def decodeTableWord (nbits w : Nat) : Option Instr :=
  match decode (BitVec.ofNat 32 (w % 2 ^ nbits)) with
  | .ok i => some i
  | .error _ => none

/-- One row of R97: opcode and format. -/
structure Row where
  op : BitVec 8
  format : Format
deriving DecidableEq, Repr

/-- `match = op * 2^24` (R97). -/
def Row.pattern (r : Row) : Word := BitVec.ofNat 32 (r.op.toNat * 2 ^ 24)

/-- The word agrees with the row in every bit the row's mask compares (R92, R96). -/
def Row.accepts (r : Row) (w : Word) : Bool :=
  w &&& r.format.mask == r.pattern

/-- The complete command set as R97 lists it, in its order. -/
def opcodeTable : List Row :=
  [⟨0x01, .D⟩, ⟨0x02, .D⟩, ⟨0x03, .D⟩, ⟨0x04, .DS⟩, ⟨0x05, .DS⟩, ⟨0x06, .D⟩, ⟨0x07, .S⟩, ⟨0x08, .D⟩] ++
  [⟨0x09, .S⟩, ⟨0x0A, .D⟩, ⟨0x0B, .S⟩, ⟨0x0C, .S⟩, ⟨0x0D, .S⟩, ⟨0x0E, .D⟩, ⟨0x0F, .DS⟩, ⟨0x10, .SS⟩] ++
  [⟨0x11, .DS⟩, ⟨0x12, .DS⟩, ⟨0x20, .DSS⟩, ⟨0x21, .DSS⟩, ⟨0x22, .DSS⟩, ⟨0x30, .DSSS⟩, ⟨0x31, .DSS⟩, ⟨0x32, .DSS⟩] ++
  [⟨0x40, .DSS⟩, ⟨0x41, .DSS⟩, ⟨0x42, .DSS⟩, ⟨0x43, .DSSS⟩, ⟨0x44, .S⟩, ⟨0x50, .D⟩, ⟨0x51, .DS⟩, ⟨0x52, .D⟩] ++
  [⟨0x53, .D⟩]

/-- The opcode byte of a command (R97). -/
def opcodeOf : Instr → BitVec 8
  | .alloc _ => 0x01
  | .free _ => 0x02
  | .realloc _ => 0x03
  | .copy _ _ => 0x04
  | .copyc _ _ => 0x05
  | .setu32 _ => 0x06
  | .getlimb _ => 0x07
  | .setlimb _ => 0x08
  | .getbyte _ => 0x09
  | .setbyte _ => 0x0A
  | .alen _ => 0x0B
  | .bitlen _ => 0x0C
  | .getsign _ => 0x0D
  | .setsign _ => 0x0E
  | .neg _ _ => 0x0F
  | .cmp _ _ => 0x10
  | .shl _ _ => 0x11
  | .shr _ _ => 0x12
  | .add _ _ _ => 0x20
  | .sub _ _ _ => 0x21
  | .mul _ _ _ => 0x22
  | .divrem _ _ _ _ => 0x30
  | .div _ _ _ => 0x31
  | .mod _ _ _ => 0x32
  | .gcd _ _ _ => 0x40
  | .lcm _ _ _ => 0x41
  | .modinv _ _ _ => 0x42
  | .modexp _ _ _ _ => 0x43
  | .isprime _ => 0x44
  | .randl _ => 0x50
  | .randmax _ _ => 0x51
  | .randbits _ => 0x52
  | .genprime _ => 0x53

/-- The fields a command has in its word: the fields its format does not use are zero (R91 to R93). -/
def fieldsFor (i : Instr) : Fields :=
  let op := opcodeOf i
  match i with
  | .alloc rd => ⟨op, rd, 0, 0, 0, 0⟩
  | .free rd => ⟨op, rd, 0, 0, 0, 0⟩
  | .realloc rd => ⟨op, rd, 0, 0, 0, 0⟩
  | .copy rd rs1 => ⟨op, rd, rs1, 0, 0, 0⟩
  | .copyc rd rs1 => ⟨op, rd, rs1, 0, 0, 0⟩
  | .setu32 rd => ⟨op, rd, 0, 0, 0, 0⟩
  | .getlimb rs1 => ⟨op, 0, rs1, 0, 0, 0⟩
  | .setlimb rd => ⟨op, rd, 0, 0, 0, 0⟩
  | .getbyte rs1 => ⟨op, 0, rs1, 0, 0, 0⟩
  | .setbyte rd => ⟨op, rd, 0, 0, 0, 0⟩
  | .alen rs1 => ⟨op, 0, rs1, 0, 0, 0⟩
  | .bitlen rs1 => ⟨op, 0, rs1, 0, 0, 0⟩
  | .getsign rs1 => ⟨op, 0, rs1, 0, 0, 0⟩
  | .setsign rd => ⟨op, rd, 0, 0, 0, 0⟩
  | .neg rd rs1 => ⟨op, rd, rs1, 0, 0, 0⟩
  | .cmp rs1 rs2 => ⟨op, 0, rs1, rs2, 0, 0⟩
  | .shl rd rs1 => ⟨op, rd, rs1, 0, 0, 0⟩
  | .shr rd rs1 => ⟨op, rd, rs1, 0, 0, 0⟩
  | .add rd rs1 rs2 => ⟨op, rd, rs1, rs2, 0, 0⟩
  | .sub rd rs1 rs2 => ⟨op, rd, rs1, rs2, 0, 0⟩
  | .mul rd rs1 rs2 => ⟨op, rd, rs1, rs2, 0, 0⟩
  | .divrem rd rs1 rs2 rs3 => ⟨op, rd, rs1, rs2, rs3, 0⟩
  | .div rd rs1 rs2 => ⟨op, rd, rs1, rs2, 0, 0⟩
  | .mod rd rs1 rs2 => ⟨op, rd, rs1, rs2, 0, 0⟩
  | .gcd rd rs1 rs2 => ⟨op, rd, rs1, rs2, 0, 0⟩
  | .lcm rd rs1 rs2 => ⟨op, rd, rs1, rs2, 0, 0⟩
  | .modinv rd rs1 rs2 => ⟨op, rd, rs1, rs2, 0, 0⟩
  | .modexp rd rs1 rs2 rs3 => ⟨op, rd, rs1, rs2, rs3, 0⟩
  | .isprime rs1 => ⟨op, 0, rs1, 0, 0, 0⟩
  | .randl rd => ⟨op, rd, 0, 0, 0, 0⟩
  | .randmax rd rs1 => ⟨op, rd, rs1, 0, 0, 0⟩
  | .randbits rd => ⟨op, rd, 0, 0, 0, 0⟩
  | .genprime rd => ⟨op, rd, 0, 0, 0, 0⟩

/-- The word with the given fields, high field first (R12's `++`, R91). -/
def wordOf (f : Fields) : Word :=
  f.op ++ BitVec.ofFin (w := 4) f.rd ++ BitVec.ofFin (w := 4) f.rs1 ++ BitVec.ofFin (w := 4) f.rs2 ++
    BitVec.ofFin (w := 4) f.rs3 ++ f.z

/-- The command word of `i` (R91, R92, R97). -/
def encode (i : Instr) : Word :=
  wordOf (fieldsFor i)

end Sys2Proof
end

