-- ==== Sys2Proof/Machine/State.lean ====
section
/-! DEFINITION. The state of the PMZ-MPU as plain data (10_state.md R20 to R46), the host's accesses, the reasons the
model stops, and the state after reset. -/

namespace Sys2Proof.Machine

/-- The sign tag of a big number (R22). -/
inductive Sign where
  | positive
  | negative
deriving DecidableEq, Repr

/-- One big-number register: a sign and its limbs, least significant first. The capacity is the number of limbs, so
`cap` and `limb[0 .. cap-1]` are one list (R13, R22). Leading zero limbs are legal (R23). -/
structure BigNum where
  sign : Sign
  limbs : Limbs
deriving DecidableEq, Repr

/-- The three flags (R33). Bits 31 to 3 of FLAGS read as zero and are not stored. -/
structure Flags where
  eq : Bool
  lt : Bool
  t : Bool
deriving DecidableEq, Repr

/-- The causes of a fault of the unit (60_exceptions.md R341 to R345). -/
inductive Cause where
  | allocationFailure
  | divisionByZero
  | arithmeticError
  | illegalCommand
deriving DecidableEq, Repr

/-- The draw port (48_random.md R280). The queue holds answers the environment has lined up, next first; past its
end the answer is the free value `Config.freeDraw` at the number of draws made so far. No generator state
is kept (R42). DESIGN CHOICE, log 4. -/
structure DrawPort where
  queue : List Nat
  count : Nat
deriving DecidableEq, Repr

/-- What the outside does to the unit, one item at a time (20_memory.md R75, R81). DESIGN CHOICE, log 1. -/
inductive HostEvent where
  /-- The host writes `value` at a byte offset of the register block, in an access of `width` bytes (R72, R75). -/
  | write (offset : BitVec 8) (width : Nat) (value : Word)
  /-- The host reads at a byte offset of the register block, in an access of `width` bytes (R72, R75). -/
  | read (offset : BitVec 8) (width : Nat)
  /-- The platform asserts reset (70_reset_and_hazards.md R371). -/
  | reset
  /-- Another host accesses the unit: refused (R84). -/
  | otherHost
deriving DecidableEq, Repr

/-- Why the model stops with a fault. The faults of the SPEC are no stops: they are next states (R348). -/
inductive Fault where
  /-- Raised by GENPRIME when its inner scan tests more candidates than there are below twice the requested
  bit length without meeting a probable prime. A prime passes the test for every draw and one lies in that range
  (48_random.md R285), so no run raises it: log 7. Safe: the model stops where the hardware would go on. -/
  | primeSearchOverrun
deriving DecidableEq, Repr

/-- Why the model gives no meaning. -/
inductive Refusal where
  /-- Raised by an arm of `exec` whose command has no meaning yet; no arm does. Safe. -/
  | notModelled (mnemonic : String)
  /-- Raised by a step whose next access comes from a second host: what interleaved hosts see is not defined
  and a model refuses it (20_memory.md R84, 93_implementation_defined.md U12). Safe. -/
  | secondHost
deriving DecidableEq, Repr

/-- The state of the unit (R20) and of its interface. -/
structure State where
  /-- `B[0]` to `B[15]` (R21). -/
  regs : Vector BigNum 16
  /-- ARG0 (R31). -/
  arg0 : Word
  /-- ARG1 (R31). -/
  arg1 : Word
  /-- RES (R32). -/
  res : Word
  /-- FLAGS (R33). -/
  flags : Flags
  /-- STATUS.FAULT (R37). -/
  fault : Bool
  /-- FCODE bits 3 to 0 (R38). -/
  fcode : BitVec 4
  /-- FINFO (R39). -/
  finfo : Word
  /-- The parameter MAXCAP, read through MAXCAPR (R10, R45). No step changes it. -/
  maxcap : Nat
  /-- The random source as the unit sees it (R42). -/
  draws : DrawPort
  /-- The word of a CMD write that has not completed: a GENPRIME whose search starts anew
  (20_memory.md R80, 48_random.md R287; log 6). -/
  running : Option Word
  /-- The accesses the host has still to make, next first (log 1). -/
  pending : List HostEvent
  /-- The words returned to the host's reads, newest first (log 1). -/
  replies : List Word
deriving DecidableEq, Repr

/-- The empty state of a register: no limbs, sign Positive (R24). -/
def BigNum.empty : BigNum := { sign := .positive, limbs := [] }

/-- The machine right after reset (R46, R371). MAXCAP has the value of R10 (log 3); the draw port queues no answer
(log 4); the host has made and planned no access (log 1). -/
def State.reset : State :=
  { regs := Vector.replicate 16 BigNum.empty
    arg0 := 0
    arg1 := 0
    res := 0
    flags := { eq := false, lt := false, t := false }
    fault := false
    fcode := 0
    finfo := 0
    maxcap := Config.maxcapDefault
    draws := { queue := [], count := 0 }
    running := none
    pending := []
    replies := [] }

end Sys2Proof.Machine
end

