-- ==== Sys2Proof/Machine/Operands.lean ====
section
/-! DEFINITION. Reading operands: the functions on limb lists, magnitudes and big numbers of 00_scope.md R14, and the
byte view of 20_memory.md R62. -/

namespace Sys2Proof

/-- `get(X, j)`: limb j, or 0 past the capacity (R14, R66). -/
def Limbs.get (X : Limbs) (j : Nat) : Word := X.getD j 0

/-- `mag(X)`, the sum of `limb[j] * 2^(32*j)` (R14). -/
def Limbs.mag : Limbs → Nat
  | [] => 0
  | l :: ls => l.toNat + Config.base * Limbs.mag ls

/-- `alen(X)`: the index of the highest nonzero limb plus one, or zero (R14, R131). -/
def Limbs.alen : Limbs → Nat
  | [] => 0
  | l :: ls => if Limbs.alen ls = 0 then (if l = 0 then 0 else 1) else Limbs.alen ls + 1

/-- Every limb is zero (R18). -/
def Limbs.isZero (X : Limbs) : Bool := X.all (· == 0)

/-- `limbs(m, n)`: n limbs of magnitude `m mod 2^(32*n)` (R14). -/
def Limbs.ofMag (m : Nat) : Nat → Limbs
  | 0 => []
  | n + 1 => BitVec.ofNat 32 m :: Limbs.ofMag (m / Config.base) n

/-- The bit length of a magnitude: 0 for 0, else 1 + the index of its top set bit (R14, R132). -/
def bitlenOf (m : Nat) : Nat := if m = 0 then 0 else m.log2 + 1

/-- The number of limbs that hold `bits` bits: `ceil(bits / 32)` (R14, R165, R284). -/
def limbCount (bits : Nat) : Nat := (bits + 31) / 32

/-- `tight(m)`: the shortest limb list of magnitude m (R14). -/
def Limbs.tight (m : Nat) : Limbs := Limbs.ofMag m (limbCount (bitlenOf m))

/-- REALLOC's and COPYC's limb list: n limbs, those past the capacity zero (R123, R125). -/
def Limbs.resize (X : Limbs) (n : Nat) : Limbs := (List.range n).map X.get

/-- Byte b: bits `8*(b mod 4) + 7` down to `8*(b mod 4)` of limb `b div 4` (R62, R129). -/
def Limbs.getByte (X : Limbs) (b : Nat) : BitVec 8 :=
  (X.get (b / 4)).extractLsb' (8 * (b % 4)) 8

/-- A limb with byte k replaced by c: `(old AND NOT (0xFF * 2^s)) OR (c * 2^s)`, `s = 8*k` (R130). -/
def replaceByte (old : Word) (k : Nat) (c : BitVec 8) : Word :=
  (old &&& ~~~((0xFF : Word) <<< (8 * k))) ||| (c.zeroExtend 32 <<< (8 * k))

namespace Machine

/-- The other sign (R135, R185). -/
def Sign.flip : Sign → Sign
  | .positive => .negative
  | .negative => .positive

/-- Positive when the signs agree, else Negative: the sign of a product or quotient (R202, R213). -/
def Sign.xor (a b : Sign) : Sign := if a = b then .positive else .negative

/-- The code GETSIGN reports: 0 Positive, 1 Negative (R133). -/
def Sign.code : Sign → Word
  | .positive => 0
  | .negative => 1

/-- The sign SETSIGN takes from bit 0 of a word (R94, R134). -/
def Sign.ofBit0 (w : Word) : Sign := if w.getLsbD 0 then .negative else .positive

/-- `B[i].cap` (R22). -/
def BigNum.cap (b : BigNum) : Nat := b.limbs.length

/-- `mag(X)` of a register (R14). -/
def BigNum.mag (b : BigNum) : Nat := b.limbs.mag

/-- `alen(X)` of a register (R14). -/
def BigNum.alen (b : BigNum) : Nat := b.limbs.alen

/-- `bitlen(X)` of a register (R14). -/
def BigNum.bitlen (b : BigNum) : Nat := bitlenOf b.mag

/-- `val(X)`: sign times magnitude (R14, R26). -/
def BigNum.val (b : BigNum) : Int :=
  match b.sign with
  | .positive => b.mag
  | .negative => -(b.mag : Int)

/-- `isneg(X)`: the sign is Negative and the magnitude is not zero (R14). -/
def BigNum.isNeg (b : BigNum) : Bool := b.sign == .negative && b.mag != 0

end Machine

end Sys2Proof
end

