-- ==== Sys2Proof/Machine/Flags.lean ====
section
/-! DEFINITION. Every flag computation (10_state.md R33 to R35) and the magnitude comparison that EQ and LT come from
(41_compare_shift.md R160, R161). -/

namespace Sys2Proof.Machine

/-- Compare limbs `n-1` down to 0: the first that differs decides (R160). -/
def ucmpFrom (X Y : Limbs) : Nat → Ordering
  | 0 => .eq
  | j + 1 =>
    if (X.get j).toNat < (Y.get j).toNat then .lt
    else if (Y.get j).toNat < (X.get j).toNat then .gt
    else ucmpFrom X Y j

/-- `ucmp(X, Y)`: active lengths first, then limb by limb from the most significant (R160). -/
def ucmp (X Y : Limbs) : Ordering :=
  if X.alen < Y.alen then .lt
  else if Y.alen < X.alen then .gt
  else ucmpFrom X Y X.alen

/-- The result CMP finds for a against b: zero first, then differing signs, then magnitudes, reversed for two
Negative operands (R161). -/
def scmp (a b : BigNum) : Ordering :=
  if a.mag = 0 ∧ b.mag = 0 then .eq
  else if a.mag = 0 then (if b.sign = .positive then .lt else .gt)
  else if b.mag = 0 then (if a.sign = .positive then .gt else .lt)
  else if a.sign ≠ b.sign then (if a.sign = .positive then .gt else .lt)
  else if a.sign = .positive then ucmp a.limbs b.limbs
  else (ucmp a.limbs b.limbs).swap

/-- CMP writes EQ and LT and leaves T (R34, R161). -/
def Flags.compare (f : Flags) (o : Ordering) : Flags :=
  { f with eq := decide (o = .eq), lt := decide (o = .lt) }

/-- The commands with a boolean result write T and leave EQ and LT (R34). -/
def Flags.setT (f : Flags) (b : Bool) : Flags := { f with t := b }

/-- The FLAGS register as the host reads it: bit 0 EQ, bit 1 LT, bit 2 T, the rest zero (R33). -/
def Flags.word (f : Flags) : Word :=
  (if f.eq then 1 else 0) ||| (if f.lt then 2 else 0) ||| (if f.t then 4 else 0)

/-! The six relational operators a host reads from one CMP (R35, R162). -/

/-- `<` is LT (R35). -/
def Flags.isLt (f : Flags) : Bool := f.lt
/-- `<=` is LT or EQ (R35). -/
def Flags.isLe (f : Flags) : Bool := f.lt || f.eq
/-- `>` is not LT and not EQ (R35). -/
def Flags.isGt (f : Flags) : Bool := !f.lt && !f.eq
/-- `>=` is not LT (R35). -/
def Flags.isGe (f : Flags) : Bool := !f.lt
/-- `==` is EQ (R35). -/
def Flags.isEq (f : Flags) : Bool := f.eq
/-- `!=` is not EQ (R35). -/
def Flags.isNe (f : Flags) : Bool := !f.eq

end Sys2Proof.Machine
end

