-- ==== Sys2Proof/Machine/Ops.lean ====
section
/-! DEFINITION. The named operations on the state that every command is written with: register access, draws, taking a
fault, the commit step and reset. There is no return from a fault but reset (60_exceptions.md R352). -/

namespace Sys2Proof.Machine

/-! Registers and scalars -/

/-- `B[i]` (00_scope.md R13). -/
def State.reg (s : State) (i : Reg) : BigNum := s.regs.get i

/-- `B[i] <- b` (R13). -/
def State.setReg (s : State) (i : Reg) (b : BigNum) : State :=
  { s with regs := s.regs.set i.val b i.isLt }

/-- `RES <- v` (10_state.md R32). -/
def State.setRes (s : State) (v : Word) : State := { s with res := v }

/-- The flags a command writes (R34). -/
def State.setFlags (s : State) (f : Flags) : State := { s with flags := f }

/-- `FLAGS.T <- b` (R34). -/
def State.setT (s : State) (b : Bool) : State := s.setFlags (s.flags.setT b)

/-- `ARG0 <- v`, by the host only (R31). -/
def State.setArg0 (s : State) (v : Word) : State := { s with arg0 := v }

/-- `ARG1 <- v`, by the host only (R31). -/
def State.setArg1 (s : State) (v : Word) : State := { s with arg1 := v }

/-- The draw port after some draws (48_random.md R280). -/
def State.setDraws (s : State) (p : DrawPort) : State := { s with draws := p }

/-- The CMD write in progress (20_memory.md R80). -/
def State.setRunning (s : State) (w : Option Word) : State := { s with running := w }

/-- The accesses still to come (log 1). -/
def State.setPending (s : State) (es : List HostEvent) : State := { s with pending := es }

/-- A word goes back to the host (log 1). -/
def State.reply (s : State) (v : Word) : State := { s with replies := v :: s.replies }

/-! Draws -/

/-- The environment's next answer, before it is brought into range (log 4). -/
def DrawPort.answer (p : DrawPort) : Nat :=
  match p.queue with
  | a :: _ => a
  | [] => Config.freeDraw p.count

/-- The port after one draw. -/
def DrawPort.advance (p : DrawPort) : DrawPort := { queue := p.queue.tail, count := p.count + 1 }

/-- An answer in the range is taken as it is; any other is wrapped into the range (log 4). -/
def fitDraw (lo hi a : Nat) : Nat :=
  if lo ≤ a ∧ a ≤ hi then a else lo + a % (hi - lo + 1)

/-- `Draw(lo, hi)`, for `lo ≤ hi`, and the port after it (R17, R280). -/
def DrawPort.draw (p : DrawPort) (lo hi : Nat) : Nat × DrawPort :=
  (fitDraw lo hi p.answer, p.advance)

/-- `DrawSign()`: 0 Positive, 1 Negative (R17; log 5). -/
def DrawPort.drawSign (p : DrawPort) : Sign × DrawPort :=
  ((if (p.draw 0 1).1 = 0 then .positive else .negative), (p.draw 0 1).2)

/-- n limb draws from the whole limb range, limb 0 first (R281, R282). -/
def DrawPort.drawLimbs (p : DrawPort) : Nat → Limbs × DrawPort
  | 0 => ([], p)
  | n + 1 =>
    let d := p.draw 0 (Config.base - 1)
    let r := DrawPort.drawLimbs d.2 n
    (BitVec.ofNat 32 d.1 :: r.1, r.2)

/-! Faults: the shared exception entry -/

/-- The code FCODE holds for a cause (R38). -/
def Cause.code : Cause → BitVec 4
  | .allocationFailure => 1
  | .divisionByZero => 2
  | .arithmeticError => 3
  | .illegalCommand => 4

/-- `raise Fault(c)` for the command word w: the unit enters the sticky fault state and nothing else changes
(60_exceptions.md R348). -/
def State.raiseFault (s : State) (c : Cause) (w : Word) : State :=
  { s with fault := true, fcode := c.code, finfo := w }

/-! The commit step -/

/-- The sign Commit writes: drawn when every limb is zero, else the one given (R18, R30). -/
def commitSign (p : DrawPort) (sg : Sign) (L : Limbs) : Sign × DrawPort :=
  if L.isZero then p.drawSign else (sg, p)

/-- The write of Commit, its length check passed: the sign is settled, the register written whole (R18). -/
def State.write (s : State) (d : Reg) (sg : Sign) (L : Limbs) : State :=
  let c := commitSign s.draws sg L
  (s.setDraws c.2).setReg d { sign := c.1, limbs := L }

/-- `Commit(d, s, L)` for the command word w (R18). -/
def State.commit (s : State) (w : Word) (d : Reg) (sg : Sign) (L : Limbs) : State :=
  if s.maxcap < L.length then s.raiseFault .allocationFailure w else s.write d sg L

/-- The commit of a command with two destinations: both lengths are checked before either is written; the
first destination's sign is drawn first (R18, R217; log 5). -/
def State.commit2 (s : State) (w : Word) (d₁ : Reg) (r₁ : Sign × Limbs) (d₂ : Reg) (r₂ : Sign × Limbs) : State :=
  if s.maxcap < r₁.2.length ∨ s.maxcap < r₂.2.length then s.raiseFault .allocationFailure w
  else (s.write d₁ r₁.1 r₁.2).write d₂ r₂.1 r₂.2

/-- The end of a command that computes a signed result or a cause from its sources: commit the one, raise the
other (R104). -/
def State.conclude (s : State) (w : Word) (d : Reg) (r : Except Cause (Sign × Limbs)) : State :=
  match r with
  | .ok x => s.commit w d x.1 x.2
  | .error c => s.raiseFault c w

/-! Reset -/

/-- The reset event (70_reset_and_hazards.md R371): every register, scalar, flag and the fault state take their reset
values and a running command is abandoned with none of its writes made. MAXCAP is a constant and the random source is
not changed by reset; what the host still plans and what it has read are the host's (log 9). -/
def State.resetEvent (s : State) : State :=
  { State.reset with maxcap := s.maxcap, draws := s.draws, pending := s.pending, replies := s.replies }

end Sys2Proof.Machine
end

