-- ==== Sys2Proof/Machine/AddSub.lean ====
section
/-! DEFINITION. Addition and subtraction with carry and borrow through 64-bit intermediates (42_addsub.md R180 to
R186). The loops read limb i of an operand as the head of what is left of it: `get` of the rules, 0 past the end. -/

namespace Sys2Proof.Machine

/-- n limbs of the sum and the carry out as one more (R180). -/
def uaddLoop : Nat → Limbs → Limbs → DWord → Limbs
  | 0, _, _, carry => [carry.setWidth 32]
  | n + 1, X, Y, carry =>
    let t := (X.headD 0).setWidth 64 + (Y.headD 0).setWidth 64 + carry
    t.setWidth 32 :: uaddLoop n X.tail Y.tail (t >>> 32)

/-- `UAdd(X, Y)`: `max(alen X, alen Y) + 1` limbs (R180). -/
def uadd (X Y : Limbs) : Limbs := uaddLoop (max X.alen Y.alen) X Y 0

/-- n limbs of the difference; the borrow is bit 63 of the 64-bit difference (R181). -/
def usubLoop : Nat → Limbs → Limbs → DWord → Limbs
  | 0, _, _, _ => []
  | n + 1, X, Y, borrow =>
    let t := (X.headD 0).setWidth 64 - (Y.headD 0).setWidth 64 - borrow
    t.setWidth 32 :: usubLoop n X.tail Y.tail (t >>> 63)

/-- `USub(X, Y)`, for `mag(X) ≥ mag(Y)`: `max(alen X, alen Y)` limbs (R181). -/
def usub (X Y : Limbs) : Limbs := usubLoop (max X.alen Y.alen) X Y 0

/-- `SAdd` on sign-magnitude pairs (R182). -/
def sadd (a b : BigNum) : Sign × Limbs :=
  if a.sign = b.sign then (a.sign, uadd a.limbs b.limbs)
  else match ucmp a.limbs b.limbs with
    | .lt => (b.sign, usub b.limbs a.limbs)
    | .eq | .gt => (a.sign, usub a.limbs b.limbs)

/-- ADD (R184). -/
def execAdd (rd rs1 rs2 : Reg) (s : State) : Host.Outcome State Fault Refusal :=
  let r := sadd (s.reg rs1) (s.reg rs2)
  .next (s.commit (encode (.add rd rs1 rs2)) rd r.1 r.2)

/-- SUB (R185): the subtrahend's sign is flipped on a copy (R183). -/
def execSub (rd rs1 rs2 : Reg) (s : State) : Host.Outcome State Fault Refusal :=
  let b := s.reg rs2
  let r := sadd (s.reg rs1) { b with sign := b.sign.flip }
  .next (s.commit (encode (.sub rd rs1 rs2)) rd r.1 r.2)

end Sys2Proof.Machine
end

