-- ==== Sys2Proof/Machine/CompareShift.lean ====
section
/-! DEFINITION. Comparison and shifts (41_compare_shift.md R160 to R166). `ucmp` and `scmp` stand in Flags.lean. SHL and
SHR are defined by the values R165 and R166 give; `ushl` and `ushr` are the two-pass limb mechanism of R163, of which
"only the values are normative". -/

namespace Sys2Proof.Machine

/-- CMP (R161): EQ and LT, T stays. -/
def execCmp (rs1 rs2 : Reg) (s : State) : Host.Outcome State Fault Refusal :=
  .next (s.setFlags (s.flags.compare (scmp (s.reg rs1) (s.reg rs2))))

/-- Pass 1 of the left shift, `n` limbs and the carry out: `t = zext_64(limb) * 2^r + carry` (R163). -/
def ushlPass (r : Nat) : Nat → Limbs → DWord → Limbs
  | 0, _, carry => [carry.setWidth 32]
  | n + 1, X, carry =>
    let t := ((X.headD 0).setWidth 64 <<< r) + carry
    t.setWidth 32 :: ushlPass r n X.tail (t >>> 32)

/-- `ushl(X, k)`: shift inside the limbs by `k mod 32`, then by `k div 32` whole limbs (R163). -/
def ushl (X : Limbs) (k : Nat) : Limbs :=
  List.replicate (k / 32) 0 ++ ushlPass (k % 32) X.alen X 0

/-- The intra-limb pass of the right shift: `(Y[i] div 2^r) + ((get(Y, i+1) mod 2^r) * 2^(32-r)) mod 2^32` (R163). -/
def ushrPass (r : Nat) : Limbs → Limbs
  | [] => []
  | y :: ys =>
    BitVec.ofNat 32 (y.toNat / 2 ^ r + ((ys.headD 0).toNat % 2 ^ r * 2 ^ (32 - r)) % Config.base) :: ushrPass r ys

/-- `ushr(X, k)`: by whole limbs first, then inside the limbs; nothing is left when `k div 32` reaches the active
length (R163). -/
def ushr (X : Limbs) (k : Nat) : Limbs :=
  if X.alen ≤ k / 32 then [] else ushrPass (k % 32) ((X.take X.alen).drop (k / 32))

/-- SHL's result: exact, tight, refused by its length alone (R164, R165). -/
def shlResult (maxcap : Nat) (b : BigNum) (k : Nat) : Except Cause (Sign × Limbs) :=
  let n := limbCount (b.bitlen + k)
  if b.mag = 0 then .ok (b.sign, [])
  else if maxcap < n then .error .allocationFailure
  else .ok (b.sign, Limbs.ofMag (b.mag * 2 ^ k) n)

/-- `mag div 2^k`, zero when k reaches the bit length (R166). -/
def shrMag (b : BigNum) (k : Nat) : Nat := if b.bitlen ≤ k then 0 else b.mag / 2 ^ k

/-- SHL (R165). -/
def execShl (rd rs1 : Reg) (s : State) : Host.Outcome State Fault Refusal :=
  .next (s.conclude (encode (.shl rd rs1)) rd (shlResult s.maxcap (s.reg rs1) s.arg0.toNat))

/-- SHR (R166): the magnitude is halved k times, the sign is the operand's. -/
def execShr (rd rs1 : Reg) (s : State) : Host.Outcome State Fault Refusal :=
  .next (s.commit (encode (.shr rd rs1)) rd (s.reg rs1).sign (Limbs.tight (shrMag (s.reg rs1) s.arg0.toNat)))

end Sys2Proof.Machine
end

