-- ==== Sys2Proof/Machine/Divide.lean ====
section
/-! DEFINITION. Division (44_divide.md R210 to R220). The commands take `(U div V, U mod V)`, the one observable result of
UDivMod (R213, R214); `uDivMod` is the divider's own path to it, case by case, down to Knuth's Algorithm D
(R214 to R216; log 14). -/

namespace Sys2Proof.Machine

/-! The divider's algorithm -/

/-- `DivLimb(U, d)` on limbs from the top down: the quotient digits and the running remainder (R215). The list is
least significant first, so the limbs above a limb are divided before it. -/
def divLimbLoop (d : Word) : Limbs → Limbs × DWord
  | [] => ([], 0)
  | u :: us =>
    let r := divLimbLoop d us
    let t := (r.2 <<< 32) + u.setWidth 64
    ((t / d.setWidth 64).setWidth 32 :: r.1, t % d.setWidth 64)

/-- `DivLimb(U, d)` as magnitudes, for `d ≠ 0` (R215). -/
def divLimb (U : Limbs) (d : Word) : Nat × Nat :=
  let r := divLimbLoop d (U.take U.alen)
  (r.1.mag, r.2.toNat)

/-- "correct the estimate downward when it overshoots": one decrement while the estimate is too big, until `rhat` no
longer fits a limb (R216). `v1`, `v2` are the divisor's top two limbs, `u0` the dividend limb below the two of the
estimate. Two rounds carry `rhat` past a limb, so the bound of three is never what ends it. -/
def knuthCorrect (v1 v2 u0 : Nat) : Nat → Nat → Nat → Nat
  | 0, qhat, _ => qhat
  | n + 1, qhat, rhat =>
    if Config.base ≤ qhat ∨ rhat * Config.base + u0 < qhat * v2 then
      (if Config.base ≤ rhat + v1 then qhat - 1 else knuthCorrect v1 v2 u0 n (qhat - 1) (rhat + v1))
    else qhat

/-- The corrected estimate of a quotient digit from the top three limbs of the window (R216). -/
def knuthEstimate (v1 v2 u2 u1 u0 : Nat) : Nat :=
  let num := u2 * Config.base + u1
  knuthCorrect v1 v2 u0 3 (num / v1) (num % v1)

/-- Multiply and subtract, lowest limb first: the window minus `qhat` times the divisor, modulo `b^(n+1)`, and the last
borrow (R216). -/
def knuthMulSub (qhat : Nat) : List Nat → List Nat → Nat → Nat → List Nat × Nat
  | u :: us, v :: vs, carry, borrow =>
    let p := qhat * v + carry
    let t : Int := (u : Int) - (p % Config.base : Nat) - borrow
    let r := knuthMulSub qhat us vs (p / Config.base) (if t < 0 then 1 else 0)
    ((t % (Config.base : Int)).toNat :: r.1, r.2)
  | u :: _, [], carry, borrow =>
    let t : Int := (u : Int) - carry - borrow
    ([(t % (Config.base : Int)).toNat], if t < 0 then 1 else 0)
  | [], _, _, borrow => ([], borrow)

/-- Add the divisor back, lowest limb first, dropping the carry out of the window (R216). -/
def knuthAddBack : List Nat → List Nat → Nat → List Nat
  | u :: us, v :: vs, c =>
    let t := u + v + c
    t % Config.base :: knuthAddBack us vs (t / Config.base)
  | u :: _, [], c => [(u + c) % Config.base]
  | [], _, _ => []

/-- One quotient digit: `win` is the window `un[j .. j+n]`, `vn` the normalized divisor of n limbs; the digit and the
window after it (R216). -/
def knuthDigit (vn win : List Nat) : Nat × List Nat :=
  let n := vn.length
  let qhat := knuthEstimate (vn.getD (n - 1) 0) (vn.getD (n - 2) 0) (win.getD n 0) (win.getD (n - 1) 0) (win.getD (n - 2) 0)
  let r := knuthMulSub qhat win vn 0 0
  if r.2 = 1 then (qhat - 1, knuthAddBack r.1 vn 0) else (qhat, r.1)

/-- The digits `j = m` down to 0: `low` holds the dividend limbs below the first window, `top` the n limbs above them.
The window of a digit is its limb under the n limbs the digit above left; that digit's top limb is spent (R216). -/
def knuthLoop (vn top : List Nat) : List Nat → List Nat × List Nat
  | [] => ([], top)
  | u :: us =>
    let above := knuthLoop vn top us
    let d := knuthDigit vn (u :: above.2)
    (d.1 :: above.1, d.2.take vn.length)

/-- The magnitude of a list of digits below `b`. -/
def digitsMag : List Nat → Nat
  | [] => 0
  | d :: ds => d + Config.base * digitsMag ds

/-- `KnuthD(U, V)`, for `alen(V) ≥ 2` and `mag(U) > mag(V)`: normalize, digits from the top, de-normalize (R216). The
dividend has one extra top limb, so m + 1 digits run. -/
def knuthD (U V : Limbs) : Nat × Nat :=
  let n := V.alen
  let m := U.alen - n
  let s := 32 - bitlenOf (V.get (n - 1)).toNat
  let vn := (Limbs.ofMag (V.mag * 2 ^ s) n).map BitVec.toNat
  let un := (Limbs.ofMag (U.mag * 2 ^ s) (m + n + 1)).map BitVec.toNat
  let r := knuthLoop vn (un.drop (m + 1)) (un.take (m + 1))
  (digitsMag r.1, digitsMag r.2 / 2 ^ s)

/-- `UDivMod(U, V)`, for `mag(V) ≠ 0`, in PMZ's order of cases (R214). -/
def uDivMod (U V : Limbs) : Nat × Nat :=
  match ucmp U V with
  | .eq => (1, 0)
  | .lt => (0, U.mag)
  | .gt =>
    if V.mag = 2 then (U.mag / 2, ((U.get 0).getLsbD 0).toNat)
    else if V.alen = 1 then divLimb U (V.get 0)
    else knuthD U V

/-! The commands -/

/-- `DivMod(u, v)`, for `mag(v) ≠ 0`: magnitudes divided, the quotient's sign the XOR, the remainder's the dividend's,
both tight (R211 to R213). -/
def divMod (u v : BigNum) : (Sign × Limbs) × (Sign × Limbs) :=
  ((u.sign.xor v.sign, Limbs.tight (u.mag / v.mag)), (u.sign, Limbs.tight (u.mag % v.mag)))

/-- DIVREM (R217). A command with `rd = rs3` is illegal (R99); its word never decodes. -/
def execDivrem (rd rs1 rs2 rs3 : Reg) (s : State) : Host.Outcome State Fault Refusal :=
  let w := encode (.divrem rd rs1 rs2 rs3)
  if rd = rs3 then .next (s.raiseFault .illegalCommand w)
  else if (s.reg rs2).mag = 0 then .next (s.raiseFault .divisionByZero w)
  else
    let r := divMod (s.reg rs1) (s.reg rs2)
    .next (s.commit2 w rd r.1 rs3 r.2)

/-- DIV (R218). -/
def execDiv (rd rs1 rs2 : Reg) (s : State) : Host.Outcome State Fault Refusal :=
  let w := encode (.div rd rs1 rs2)
  if (s.reg rs2).mag = 0 then .next (s.raiseFault .divisionByZero w)
  else
    let q := (divMod (s.reg rs1) (s.reg rs2)).1
    .next (s.commit w rd q.1 q.2)

/-- MOD (R219): the remainder has the dividend's sign. -/
def execMod (rd rs1 rs2 : Reg) (s : State) : Host.Outcome State Fault Refusal :=
  let w := encode (.mod rd rs1 rs2)
  if (s.reg rs2).mag = 0 then .next (s.raiseFault .divisionByZero w)
  else
    let r := (divMod (s.reg rs1) (s.reg rs2)).2
    .next (s.commit w rd r.1 r.2)

end Sys2Proof.Machine
end

