-- ==== Sys2Proof/Machine/Multiply.lean ====
section
/-! DEFINITION. Schoolbook multiplication with a product accumulator (43_multiply.md R200 to R203). -/

namespace Sys2Proof.Machine

/-- n limbs of X times the limb d and the carry out as one more (R200). -/
def mulLimbLoop (d : Word) : Nat → Limbs → DWord → Limbs
  | 0, _, carry => [carry.setWidth 32]
  | n + 1, X, carry =>
    let t := (X.headD 0).setWidth 64 * d.setWidth 64 + carry
    t.setWidth 32 :: mulLimbLoop d n X.tail (t >>> 32)

/-- `MulLimb(X, d, i)`: one partial product, placed i limbs up (R200). -/
def mulLimb (X : Limbs) (d : Word) (i : Nat) : Limbs :=
  List.replicate i 0 ++ mulLimbLoop d X.alen X 0

/-- The k limbs of Y from i on are accumulated into S (R201). -/
def umulLoop (X Y : Limbs) : Nat → Nat → Limbs → Limbs
  | 0, _, S => S
  | k + 1, i, S => umulLoop X Y k (i + 1) (uadd S (mulLimb X (Y.get i) i))

/-- `UMul(X, Y)` (R201). -/
def umul (X Y : Limbs) : Limbs := umulLoop X Y Y.alen 0 []

/-- MUL's result: zero short-circuits; a product certain to be too long is refused before it is formed; the
product is trimmed (R202). -/
def mulResult (maxcap : Nat) (a b : BigNum) : Except Cause (Sign × Limbs) :=
  if a.mag = 0 ∨ b.mag = 0 then .ok (a.sign.xor b.sign, [])
  else if maxcap < limbCount (a.bitlen + b.bitlen - 1) then .error .allocationFailure
  else .ok (a.sign.xor b.sign, Limbs.tight (umul a.limbs b.limbs).mag)

/-- MUL (R202). -/
def execMul (rd rs1 rs2 : Reg) (s : State) : Host.Outcome State Fault Refusal :=
  .next (s.conclude (encode (.mul rd rs1 rs2)) rd (mulResult s.maxcap (s.reg rs1) (s.reg rs2)))

end Sys2Proof.Machine
end

