-- ==== Sys2Proof/Machine/NumberTheory.lean ====
section
/-! DEFINITION. GCD, LCM, modular inverse and modular exponentiation (45_gcd_lcm_modinv.md R230 to R237,
46_modexp.md R250 to R253). -/

namespace Sys2Proof.Machine

/-! GCD -/

/-- "strip common factors of two from both operands while counting them" (R231): the operands and the count. -/
def stripTwos : Nat → Nat → Nat → Nat → Nat × Nat × Nat
  | 0, U, V, k => (U, V, k)
  | n + 1, U, V, k => if U % 2 = 0 ∧ V % 2 = 0 then stripTwos n (U / 2) (V / 2) (k + 1) else (U, V, k)

/-- "repeatedly halve whichever operand is even, or replace the larger by half its difference from the smaller, until one
operand reaches zero" (R231): the other operand. -/
def binGcdLoop : Nat → Nat → Nat → Nat
  | 0, U, V => if U = 0 then V else U
  | n + 1, U, V =>
    if U = 0 ∨ V = 0 then (if U = 0 then V else U)
    else if U % 2 = 0 then binGcdLoop n (U / 2) V
    else if V % 2 = 0 then binGcdLoop n U (V / 2)
    else if V ≤ U then binGcdLoop n ((U - V) / 2) V
    else binGcdLoop n U ((V - U) / 2)

/-- `BinGcd(U, V)`, for U, V > 0 (R231). Every round of a loop shrinks U + V, so U + V rounds are enough. -/
def binGcd (U V : Nat) : Nat :=
  let r := stripTwos (U + V) U V 0
  binGcdLoop (U + V) r.1 r.2.1 * 2 ^ r.2.2

/-- GCD's result: the zero short-circuits answer first and keep the sign, then the domain check (R230, R232). -/
def gcdResult (u v : BigNum) : Except Cause (Sign × Limbs) :=
  if u.mag = 0 then .ok (v.sign, Limbs.tight v.mag)
  else if v.mag = 0 then .ok (u.sign, Limbs.tight u.mag)
  else if u.isNeg ∨ v.isNeg then .error .arithmeticError
  else .ok (.positive, Limbs.tight (binGcd u.mag v.mag))

/-- GCD (R232). -/
def execGcd (rd rs1 rs2 : Reg) (s : State) : Host.Outcome State Fault Refusal :=
  .next (s.conclude (encode (.gcd rd rs1 rs2)) rd (gcdResult (s.reg rs1) (s.reg rs2)))

/-! LCM -/

/-- LCM's result, `(u / gcd(u, v)) * v`: GCD's faults, then the division by a zero gcd, then the product's length
(R234). -/
def lcmResult (maxcap : Nat) (u v : BigNum) : Except Cause (Sign × Limbs) :=
  match gcdResult u v with
  | .error c => .error c
  | .ok g =>
    if g.2.mag = 0 then .error .divisionByZero
    else
      let q := (divMod u { sign := g.1, limbs := g.2 }).1
      mulResult maxcap { sign := q.1, limbs := q.2 } v

/-- LCM (R234). -/
def execLcm (rd rs1 rs2 : Reg) (s : State) : Host.Outcome State Fault Refusal :=
  .next (s.conclude (encode (.lcm rd rs1 rs2)) rd (lcmResult s.maxcap (s.reg rs1) (s.reg rs2)))

/-! Modular inverse -/

/-- The loop of the extended Euclidean algorithm with its parity flag (R237): the last `u1`, `u3` and `odd`. -/
def extEuclidLoop : Nat → Nat → Nat → Nat → Nat → Bool → Nat × Nat × Bool
  | 0, u1, u3, _, _, odd => (u1, u3, odd)
  | n + 1, u1, u3, v1, v3, odd =>
    if v3 = 0 then (u1, u3, odd)
    else extEuclidLoop n v1 v3 (u1 + u3 / v3 * v1) (u3 % v3) (!odd)

/-- `ExtEuclid(a, V)`, for `0 ≤ a < V`, `V > 1` (R237). `v3` is V, then a, then falls with every round, so V + 1
rounds are enough. -/
def extEuclid (a V : Nat) : Nat :=
  let r := extEuclidLoop (V + 1) 1 a 0 V false
  if r.2.1 ≠ 1 then 0 else if r.2.2 then V - r.1 else r.1

/-- MODINV (R236). The value for V > 1 is R237's; for V = 1 it is a draw from 0 and 1. -/
def execModinv (rd rs1 rs2 : Reg) (s : State) : Host.Outcome State Fault Refusal :=
  let w := encode (.modinv rd rs1 rs2)
  let u := s.reg rs1
  let v := s.reg rs2
  if u.isNeg ∨ v.isNeg then .next (s.raiseFault .arithmeticError w)
  else if v.mag = 0 then .next (s.raiseFault .divisionByZero w)
  else if v.mag = 1 then
    let x := s.draws.draw 0 1
    .next ((s.setDraws x.2).commit w rd .positive (Limbs.tight x.1))
  else .next (s.commit w rd .positive (Limbs.tight (extEuclid (u.mag % v.mag) v.mag)))

/-! Modular exponentiation -/

/-- Bits `i - 1` down to 0 of the exponent: square every step, multiply on each set bit (R251). -/
def modExpLoop (br E M : Nat) : Nat → Nat → Nat
  | 0, acc => acc
  | i + 1, acc =>
    let sq := acc * acc % M
    modExpLoop br E M i (if E.testBit i then sq * br % M else sq)

/-- `ModExp(b, E, M)`, for M ≥ 1 (R251). -/
def modExp (b E M : Nat) : Nat := modExpLoop (b % M) E M (bitlenOf E) 1

/-- MODEXP (R250, R252). -/
def execModexp (rd rs1 rs2 rs3 : Reg) (s : State) : Host.Outcome State Fault Refusal :=
  let w := encode (.modexp rd rs1 rs2 rs3)
  let b := s.reg rs1
  let e := s.reg rs2
  let m := s.reg rs3
  if b.isNeg ∨ e.isNeg ∨ m.isNeg then .next (s.raiseFault .arithmeticError w)
  else if m.mag = 0 then .next (s.raiseFault .divisionByZero w)
  else .next (s.commit w rd .positive (Limbs.tight (modExp b.mag e.mag m.mag)))

end Sys2Proof.Machine
end

