-- ==== Sys2Proof/Machine/Primality.lean ====
section
/-! DEFINITION. The primality test (47_primality.md R260 to R267). -/

namespace Sys2Proof.Machine

/-- `SMALL_PRIMES`: the 302 odd primes below 2000 as R261 lists them. -/
def smallPrimes : List Nat :=
  [3, 5, 7, 11, 13, 17, 19, 23, 29, 31, 37, 41, 43, 47, 53, 59, 61, 67, 71, 73] ++
  [79, 83, 89, 97, 101, 103, 107, 109, 113, 127, 131, 137, 139, 149, 151, 157, 163, 167, 173, 179] ++
  [181, 191, 193, 197, 199, 211, 223, 227, 229, 233, 239, 241, 251, 257, 263, 269, 271, 277, 281, 283] ++
  [293, 307, 311, 313, 317, 331, 337, 347, 349, 353, 359, 367, 373, 379, 383, 389, 397, 401, 409, 419] ++
  [421, 431, 433, 439, 443, 449, 457, 461, 463, 467, 479, 487, 491, 499, 503, 509, 521, 523, 541, 547] ++
  [557, 563, 569, 571, 577, 587, 593, 599, 601, 607, 613, 617, 619, 631, 641, 643, 647, 653, 659, 661] ++
  [673, 677, 683, 691, 701, 709, 719, 727, 733, 739, 743, 751, 757, 761, 769, 773, 787, 797, 809, 811] ++
  [821, 823, 827, 829, 839, 853, 857, 859, 863, 877, 881, 883, 887, 907, 911, 919, 929, 937, 941, 947] ++
  [953, 967, 971, 977, 983, 991, 997, 1009, 1013, 1019, 1021, 1031, 1033, 1039, 1049, 1051, 1061, 1063, 1069, 1087] ++
  [1091, 1093, 1097, 1103, 1109, 1117, 1123, 1129, 1151, 1153, 1163, 1171, 1181, 1187, 1193, 1201, 1213, 1217, 1223, 1229] ++
  [1231, 1237, 1249, 1259, 1277, 1279, 1283, 1289, 1291, 1297, 1301, 1303, 1307, 1319, 1321, 1327, 1361, 1367, 1373, 1381] ++
  [1399, 1409, 1423, 1427, 1429, 1433, 1439, 1447, 1451, 1453, 1459, 1471, 1481, 1483, 1487, 1489, 1493, 1499, 1511, 1523] ++
  [1531, 1543, 1549, 1553, 1559, 1567, 1571, 1579, 1583, 1597, 1601, 1607, 1609, 1613, 1619, 1621, 1627, 1637, 1657, 1663] ++
  [1667, 1669, 1693, 1697, 1699, 1709, 1721, 1723, 1733, 1741, 1747, 1753, 1759, 1777, 1783, 1787, 1789, 1801, 1811, 1823] ++
  [1831, 1847, 1861, 1867, 1871, 1873, 1877, 1879, 1889, 1901, 1907, 1913, 1931, 1933, 1949, 1951, 1973, 1979, 1987, 1993] ++
  [1997, 1999]

/-- Trial division of an odd n ≥ 3 by a table: prime when an entry equals n, composite when one divides n, no verdict
when the table is exhausted (R263). -/
def trialDivide (n : Nat) : List Nat → Option Bool
  | [] => none
  | p :: ps => if n = p then some true else if n % p = 0 then some false else trialDivide n ps

/-- `s` and `t` with `m = 2^s * t`, t odd, for m > 0 (R264): halve while even, at most `bitlen(m)` times. -/
def splitTwos : Nat → Nat → Nat → Nat × Nat
  | 0, m, s => (s, m)
  | f + 1, m, s => if m % 2 = 0 then splitTwos f (m / 2) (s + 1) else (s, m)

/-- Square b up to k times, passing as soon as it is n - 1 (R264). -/
def squareLoop (n : Nat) : Nat → Nat → Bool
  | 0, _ => false
  | k + 1, b =>
    let b' := b * b % n
    if b' = n - 1 then true else squareLoop n k b'

/-- A Miller-Rabin round of n with the base a: true is PASS (R264). -/
def mrPasses (n a : Nat) : Bool :=
  let st := splitTwos (bitlenOf (n - 1)) (n - 1) 0
  let b := modExp a st.2 n
  if binGcd a n ≠ 1 then false
  else if b = 1 ∨ b = n - 1 then true
  else squareLoop n (st.1 - 1) b

/-- At most the given number of rounds, each with a base drawn from 1 to n - 1; the first that fails ends the test
(R264, R265). -/
def mrRounds (n : Nat) : Nat → DrawPort → Bool × DrawPort
  | 0, p => (true, p)
  | k + 1, p =>
    let a := p.draw 1 (n - 1)
    if mrPasses n a.1 then mrRounds n k a.2 else (false, a.2)

/-- `IsProbablyPrime(n, acc)` and the draw port after it (R262, R265). -/
def isProbablyPrime (n : Int) (acc : Nat) (p : DrawPort) : Bool × DrawPort :=
  if n ≤ 1 then (false, p)
  else if n = 2 then (true, p)
  else if n % 2 = 0 then (false, p)
  else match trialDivide n.toNat smallPrimes with
    | some b => (b, p)
    | none => mrRounds n.toNat acc p

/-- ISPRIME (R266): T is the verdict; no big register changes. -/
def execIsprime (rs1 : Reg) (s : State) : Host.Outcome State Fault Refusal :=
  let r := isProbablyPrime (s.reg rs1).val s.arg0.toNat s.draws
  .next ((s.setDraws r.2).setT r.1)

end Sys2Proof.Machine
end

