-- ==== Sys2Proof/Machine/Random.lean ====
section
/-! DEFINITION. Random and prime generation (48_random.md R280 to R288). -/

namespace Sys2Proof.Machine

/-- RANDL (R282): n drawn limbs, not trimmed. -/
def execRandl (rd : Reg) (s : State) : Host.Outcome State Fault Refusal :=
  let w := encode (.randl rd)
  let n := s.arg0.toNat
  if s.maxcap < n then .next (s.raiseFault .allocationFailure w)
  else
    let r := s.draws.drawLimbs n
    .next ((s.setDraws r.2).commit w rd .positive r.1)

/-- RANDMAX (R283): as many drawn limbs as max has active; reduced only when it exceeds max. -/
def execRandmax (rd rs1 : Reg) (s : State) : Host.Outcome State Fault Refusal :=
  let w := encode (.randmax rd rs1)
  let m := s.reg rs1
  if m.isNeg then .next (s.raiseFault .arithmeticError w)
  else
    let d := s.draws.drawLimbs m.alen
    let r := if m.mag < d.1.mag then d.1.mag % m.mag else d.1.mag
    .next ((s.setDraws d.2).commit w rd .positive (Limbs.ofMag r m.alen))

/-- A random value of exactly `bits` bits, for bits ≥ 1: top bit forced, every lower bit drawn (R284). -/
def drawBits (bits : Nat) (p : DrawPort) : Nat × DrawPort :=
  let d := p.draw 0 (2 ^ (bits - 1) - 1)
  (2 ^ (bits - 1) + d.1, d.2)

/-- RANDBITS (R284). -/
def execRandbits (rd : Reg) (s : State) : Host.Outcome State Fault Refusal :=
  let w := encode (.randbits rd)
  let bits := s.arg0.toNat
  if bits = 0 then .next (s.raiseFault .arithmeticError w)
  else if s.maxcap < limbCount bits then .next (s.raiseFault .allocationFailure w)
  else
    let r := drawBits bits s.draws
    .next ((s.setDraws r.2).commit w rd .positive (Limbs.ofMag r.1 (limbCount bits)))

/-- The start of a search: the drawn value with its top `topBits` bits and bit 0 set (R285). -/
def primeStart (bits topBits r : Nat) : Nat :=
  (r ||| (2 ^ bits - 2 ^ (bits - topBits))) ||| 1

/-- The inner loop: from r by steps of 2 to the first probable prime, at most `fuel` candidates (R285; log 7). -/
def primeScan : Nat → Nat → DrawPort → Option Nat × DrawPort
  | 0, _, p => (none, p)
  | fuel + 1, r, p =>
    let t := isProbablyPrime r Config.primeAccuracy p
    if t.1 then (some r, t.2) else primeScan fuel (r + 2) t.2

/-- One pass of the outer loop of `GenPrime(bits, topBits)`: a new draw and the probable prime it leads to (R285). From a
start below `2^bits` the next odd prime is fewer than `2^bits` candidates away (log 7). -/
def genPrimeTry (bits topBits : Nat) (p : DrawPort) : Option Nat × DrawPort :=
  let r := drawBits bits p
  primeScan (2 ^ bits) (primeStart bits topBits r.1) r.2

/-- GENPRIME (R286). One pass of the outer loop is one step: when the bit length has not drifted the result is committed,
else no architectural state changes and the CMD write stays in progress, so that the next step restarts the search
with a new draw (R285, R287; log 6). -/
def execGenprime (rd : Reg) (s : State) : Host.Outcome State Fault Refusal :=
  let w := encode (.genprime rd)
  let bits := s.arg0.toNat
  let topBits := s.arg1.toNat
  if bits = 0 ∨ bits < topBits then .next (s.raiseFault .arithmeticError w)
  else if s.maxcap < limbCount bits then .next (s.raiseFault .allocationFailure w)
  else
    let r := genPrimeTry bits topBits s.draws
    match r.1 with
    | none => .fault .primeSearchOverrun
    | some q =>
      if bitlenOf q = bits then .next ((s.setDraws r.2).commit w rd .positive (Limbs.ofMag q (limbCount bits)))
      else .next ((s.setDraws r.2).setRunning (some w))

end Sys2Proof.Machine
end

