-- ==== Sys2Proof/Machine/Storage.lean ====
section
/-! DEFINITION. Storage, limb, byte and sign access (40_storage.md R120 to R135). None of these commands draws or
uses Commit, and the one fault is AllocationFailure (R120). -/

namespace Sys2Proof.Machine

/-- ALLOC (R121): the already-allocated check comes first and is no fault. -/
def execAlloc (rd : Reg) (s : State) : Host.Outcome State Fault Refusal :=
  let n := s.arg0.toNat
  if (s.reg rd).cap ≠ 0 then .next (s.setT false)
  else if s.maxcap < n then .next (s.raiseFault .allocationFailure (encode (.alloc rd)))
  else .next ((s.setReg rd { sign := .positive, limbs := List.replicate n 0 }).setT true)

/-- FREE (R122). -/
def execFree (rd : Reg) (s : State) : Host.Outcome State Fault Refusal :=
  .next (s.setReg rd BigNum.empty)

/-- REALLOC (R123): the sign stays, limbs below the smaller capacity stay, the rest are zero. -/
def execRealloc (rd : Reg) (s : State) : Host.Outcome State Fault Refusal :=
  let n := s.arg0.toNat
  let b := s.reg rd
  if s.maxcap < n then .next (s.raiseFault .allocationFailure (encode (.realloc rd)))
  else .next (s.setReg rd { sign := b.sign, limbs := b.limbs.resize n })

/-- COPY (R124): sign, capacity and limbs as they are. -/
def execCopy (rd rs1 : Reg) (s : State) : Host.Outcome State Fault Refusal :=
  .next (s.setReg rd (s.reg rs1))

/-- COPYC (R125): a copy into the capacity in ARG0, truncating or zero-extending. -/
def execCopyc (rd rs1 : Reg) (s : State) : Host.Outcome State Fault Refusal :=
  let n := s.arg0.toNat
  let b := s.reg rs1
  if s.maxcap < n then .next (s.raiseFault .allocationFailure (encode (.copyc rd rs1)))
  else .next (s.setReg rd { sign := b.sign, limbs := b.limbs.resize n })

/-- SETU32 (R126): capacity 1, sign Positive, also for 0. -/
def execSetu32 (rd : Reg) (s : State) : Host.Outcome State Fault Refusal :=
  .next (s.setReg rd { sign := .positive, limbs := [s.arg0] })

/-- GETLIMB (R127): 0 past the capacity. -/
def execGetlimb (rs1 : Reg) (s : State) : Host.Outcome State Fault Refusal :=
  .next (s.setRes ((s.reg rs1).limbs.get s.arg0.toNat))

/-- SETLIMB (R128): sign and capacity never change; past the capacity only T is written. -/
def execSetlimb (rd : Reg) (s : State) : Host.Outcome State Fault Refusal :=
  let i := s.arg0.toNat
  let b := s.reg rd
  if i < b.cap then .next ((s.setReg rd { b with limbs := b.limbs.set i s.arg1 }).setT true)
  else .next (s.setT false)

/-- GETBYTE (R129): the byte, zero-extended. -/
def execGetbyte (rs1 : Reg) (s : State) : Host.Outcome State Fault Refusal :=
  .next (s.setRes (((s.reg rs1).limbs.getByte s.arg0.toNat).zeroExtend 32))

/-- SETBYTE (R130): the byte value is ARG1[7:0]; the limb's other bytes stay. -/
def execSetbyte (rd : Reg) (s : State) : Host.Outcome State Fault Refusal :=
  let k := s.arg0.toNat
  let j := k / 4
  let b := s.reg rd
  let new := replaceByte (b.limbs.get j) (k % 4) (s.arg1.extractLsb' 0 8)
  if j < b.cap then .next ((s.setReg rd { b with limbs := b.limbs.set j new }).setT true)
  else .next (s.setT false)

/-- ALEN (R131). -/
def execAlen (rs1 : Reg) (s : State) : Host.Outcome State Fault Refusal :=
  .next (s.setRes (BitVec.ofNat 32 (s.reg rs1).alen))

/-- BITLEN (R132). -/
def execBitlen (rs1 : Reg) (s : State) : Host.Outcome State Fault Refusal :=
  .next (s.setRes (BitVec.ofNat 32 (s.reg rs1).bitlen))

/-- GETSIGN (R133): the tag as stored, also of a zero. -/
def execGetsign (rs1 : Reg) (s : State) : Host.Outcome State Fault Refusal :=
  .next (s.setRes (s.reg rs1).sign.code)

/-- SETSIGN (R134): the sign is ARG0[0]. -/
def execSetsign (rd : Reg) (s : State) : Host.Outcome State Fault Refusal :=
  .next (s.setReg rd { s.reg rd with sign := Sign.ofBit0 s.arg0 })

/-- NEG (R135): the tag of a zero is flipped like any other. -/
def execNeg (rd rs1 : Reg) (s : State) : Host.Outcome State Fault Refusal :=
  .next (s.setReg rd { s.reg rs1 with sign := (s.reg rs1).sign.flip })

end Sys2Proof.Machine
end

