-- ==== Sys2Proof/Machine/Dispatch.lean ====
section
/-! DEFINITION. One arm per command, each one call of the command's meaning. -/

namespace Sys2Proof.Machine

def exec (i : Instr) (s : State) : Host.Outcome State Fault Refusal :=
  match i with
  | .alloc rd => Sys2Proof.Machine.execAlloc rd s
  | .free rd => Sys2Proof.Machine.execFree rd s
  | .realloc rd => Sys2Proof.Machine.execRealloc rd s
  | .copy rd rs1 => Sys2Proof.Machine.execCopy rd rs1 s
  | .copyc rd rs1 => Sys2Proof.Machine.execCopyc rd rs1 s
  | .setu32 rd => Sys2Proof.Machine.execSetu32 rd s
  | .getlimb rs1 => Sys2Proof.Machine.execGetlimb rs1 s
  | .setlimb rd => Sys2Proof.Machine.execSetlimb rd s
  | .getbyte rs1 => Sys2Proof.Machine.execGetbyte rs1 s
  | .setbyte rd => Sys2Proof.Machine.execSetbyte rd s
  | .alen rs1 => Sys2Proof.Machine.execAlen rs1 s
  | .bitlen rs1 => Sys2Proof.Machine.execBitlen rs1 s
  | .getsign rs1 => Sys2Proof.Machine.execGetsign rs1 s
  | .setsign rd => Sys2Proof.Machine.execSetsign rd s
  | .neg rd rs1 => Sys2Proof.Machine.execNeg rd rs1 s
  | .cmp rs1 rs2 => Sys2Proof.Machine.execCmp rs1 rs2 s
  | .shl rd rs1 => Sys2Proof.Machine.execShl rd rs1 s
  | .shr rd rs1 => Sys2Proof.Machine.execShr rd rs1 s
  | .add rd rs1 rs2 => Sys2Proof.Machine.execAdd rd rs1 rs2 s
  | .sub rd rs1 rs2 => Sys2Proof.Machine.execSub rd rs1 rs2 s
  | .mul rd rs1 rs2 => Sys2Proof.Machine.execMul rd rs1 rs2 s
  | .divrem rd rs1 rs2 rs3 => Sys2Proof.Machine.execDivrem rd rs1 rs2 rs3 s
  | .div rd rs1 rs2 => Sys2Proof.Machine.execDiv rd rs1 rs2 s
  | .mod rd rs1 rs2 => Sys2Proof.Machine.execMod rd rs1 rs2 s
  | .gcd rd rs1 rs2 => Sys2Proof.Machine.execGcd rd rs1 rs2 s
  | .lcm rd rs1 rs2 => Sys2Proof.Machine.execLcm rd rs1 rs2 s
  | .modinv rd rs1 rs2 => Sys2Proof.Machine.execModinv rd rs1 rs2 s
  | .modexp rd rs1 rs2 rs3 => Sys2Proof.Machine.execModexp rd rs1 rs2 rs3 s
  | .isprime rs1 => Sys2Proof.Machine.execIsprime rs1 s
  | .randl rd => Sys2Proof.Machine.execRandl rd s
  | .randmax rd rs1 => Sys2Proof.Machine.execRandmax rd rs1 s
  | .randbits rd => Sys2Proof.Machine.execRandbits rd s
  | .genprime rd => Sys2Proof.Machine.execGenprime rd s

end Sys2Proof.Machine
end

