-- ==== Sys2Proof/Machine/RegisterBlock.lean ====
section
/-! DEFINITION. The register block (20_memory.md R60, R72, R75, R76; 10_state.md R33 to R45) and the host's assembly
statements over it (30_encoding.md R101, R102). -/

namespace Sys2Proof.Machine

/-- The word at a word-aligned byte offset of the block (R75). CMD and the reserved offsets read zero (R41, R76). -/
def State.blockWord (s : State) (offset : Nat) : Word :=
  match offset with
  | 0x04 => if s.fault then 1 else 0
  | 0x08 => s.flags.word
  | 0x0C => s.fcode.zeroExtend 32
  | 0x10 => s.finfo
  | 0x14 => s.arg0
  | 0x18 => s.arg1
  | 0x1C => s.res
  | 0x20 => Config.idWord
  | 0x24 => BitVec.ofNat 32 Config.nreg
  | 0x28 => BitVec.ofNat 32 s.maxcap
  | _ => 0

/-- A naturally aligned access of one whole word (R72). -/
def alignedWord (offset : BitVec 8) (width : Nat) : Bool :=
  width == 4 && offset.toNat % 4 == 0

/-- What a host's read returns: zero unless it is an aligned word (R72). -/
def State.blockRead (s : State) (offset : BitVec 8) (width : Nat) : Word :=
  if alignedWord offset width then s.blockWord offset.toNat else 0

/-- A host's write anywhere but to CMD: ARG0 and ARG1 take it, in the fault state too; every other write is
ignored (R72, R76). -/
def State.blockWrite (s : State) (offset : BitVec 8) (width : Nat) (value : Word) : State :=
  if alignedWord offset width then
    (if offset = 0x14 then s.setArg0 value
     else if offset = 0x18 then s.setArg1 value
     else s)
  else s

/-- The write is a command write: an aligned word at offset 0x00 (R41, R75). -/
def isCommandWrite (offset : BitVec 8) (width : Nat) : Bool :=
  alignedWord offset width && offset == 0

/-! The host's statements and the pseudo-instructions (R101, R102) -/

/-- A command statement: the word is written to CMD (R101). -/
def cmdStatement (i : Instr) : HostEvent := .write 0x00 4 (encode i)

/-- `WR ARG0, v` (R101). -/
def wrArg0 (v : Word) : HostEvent := .write 0x14 4 v

/-- `WR ARG1, v` (R101). -/
def wrArg1 (v : Word) : HostEvent := .write 0x18 4 v

/-- `RD name`, the name given by its offset (R75, R101). -/
def rdWord (offset : BitVec 8) : HostEvent := .read offset 4

/-- `MOV Bd, Bs` (R102). -/
def pseudoMov (bd bs : Reg) : List HostEvent := [cmdStatement (.copy bd bs)]

/-- `CLR Bd` (R102). -/
def pseudoClr (bd : Reg) : List HostEvent := [cmdStatement (.free bd)]

/-- `SQR Bd, Bs` (R102). -/
def pseudoSqr (bd bs : Reg) : List HostEvent := [cmdStatement (.mul bd bs bs)]

/-- `ABS Bd` (R102). -/
def pseudoAbs (bd : Reg) : List HostEvent := [wrArg0 0, cmdStatement (.setsign bd)]

/-- `TOU32 Bs` (R102). -/
def pseudoTou32 (bs : Reg) : List HostEvent := [wrArg0 0, cmdStatement (.getlimb bs)]

/-- `LDI Bd, v` (R102). -/
def pseudoLdi (bd : Reg) (v : Word) : List HostEvent := [wrArg0 v, cmdStatement (.setu32 bd)]

end Sys2Proof.Machine
end

