-- ==== Sys2Proof/Machine/Command.lean ====
section
/-! DEFINITION. The command step and the service of one host access (30_encoding.md R104, 20_memory.md R75 to R84). -/

namespace Sys2Proof.Machine

/-- What one write of the word w to CMD does (R104): ignored in the fault state (10_state.md R40), IllegalCommand when the
word does not decode (R98), else the command runs. -/
def issueCommand (w : Word) (s : State) : Host.Outcome State Fault Refusal :=
  if s.fault then .next s
  else match decode w with
    | .error _ => .next (s.raiseFault .illegalCommand w)
    | .ok i => exec i s

/-- One access of the host or the platform, already taken from the queue. -/
def serveEvent (e : HostEvent) (s : State) : Host.Outcome State Fault Refusal :=
  match e with
  | .write offset width value =>
    if isCommandWrite offset width then issueCommand value s else .next (s.blockWrite offset width value)
  | .read offset width => .next (s.reply (s.blockRead offset width))
  | .reset => .next s.resetEvent
  | .otherHost => .refused .secondHost

/-- A step while a CMD write is in progress (R80, 48_random.md R287): reset ends it, a second host is refused, any other
access waits and the command goes on. -/
def resumeCommand (w : Word) (s : State) : Host.Outcome State Fault Refusal :=
  match s.pending with
  | .reset :: es => .next (s.setPending es).resetEvent
  | .otherHost :: _ => .refused .secondHost
  | .write _ _ _ :: _ | .read _ _ :: _ | [] => issueCommand w (s.setRunning none)

/-- One step: a command in progress goes on, else the next access is served; with no access to serve the unit waits
(10_state.md R36; log 1, log 8). -/
def stepUnit (s : State) : Host.Outcome State Fault Refusal :=
  match s.running with
  | some w => resumeCommand w s
  | none =>
    match s.pending with
    | [] => .next s
    | e :: es => serveEvent e (s.setPending es)

/-- The state in which the host's next access writes the word to CMD. -/
def placeCommand (s : State) (w : Word) : State :=
  (s.setRunning none).setPending (.write 0x00 4 w :: s.pending)

end Sys2Proof.Machine
end

