-- ==== Sys2Proof/Safety.lean ====
section
/-! DEFINITION. What a sound state and a safe run are, in the terms the statements use. -/

namespace Sys2Proof.Machine

/-- MAXCAP is in its range and no register exceeds it (10_state.md R22, 00_scope.md R10). -/
def State.CapsBounded (s : State) : Prop :=
  1 ≤ s.maxcap ∧ s.maxcap ≤ Config.maxcapLimit ∧ ∀ i : Reg, (s.reg i).cap ≤ s.maxcap

/-- The fault registers describe the first fault or none (R38, R39): ready means codes and word are zero; in the fault
state the code is one of 1 to 4. -/
def State.FaultConsistent (s : State) : Prop :=
  if s.fault then 1 ≤ s.fcode.toNat ∧ s.fcode.toNat ≤ 4 else s.fcode = 0 ∧ s.finfo = 0

/-- Only GENPRIME can be in progress, and only in a unit that is ready (48_random.md R287). -/
def State.RunningGenprime (s : State) : Prop :=
  ∀ w, s.running = some w → s.fault = false ∧ ∃ rd, w = encode (.genprime rd)

/-- EQ and LT are never both set (R35). -/
def State.OrderFlagsDisjoint (s : State) : Prop := ¬ (s.flags.eq = true ∧ s.flags.lt = true)

/-- The invariant of the unit. -/
def State.Inv (s : State) : Prop :=
  s.CapsBounded ∧ s.FaultConsistent ∧ s.OrderFlagsDisjoint ∧ s.RunningGenprime

/-- The unit is ready: no fault, no command in progress. -/
def State.Ready (s : State) : Prop := s.fault = false ∧ s.running = none

/-- `t` is reached from `s` in some number of steps, each answering a next state. -/
inductive Reaches : State → State → Prop where
  | refl (s : State) : Reaches s s
  | tail {s t u : State} (h : Reaches s t) (hs : step t = .next u) : Reaches s u

/-- A run is safe when every state it reaches keeps the invariant. -/
def Safe (s : State) : Prop := ∀ t, Reaches s t → t.Inv

end Sys2Proof.Machine
end

