-- ==== Sys2Proof/Certificates/Slice0/Obligations.lean ====
section
/-! DEFINITION. The statements for the provers, and the few predicates they are written with. Each docstring names the
rule of spec/ it formalises; what rests on a choice of the model names the log entry. -/

namespace Sys2Proof.Claims

open Sys2Proof.Machine

/-! The cause codes (10_state.md R38) -/

def allocationFailure : BitVec 4 := 1
def divisionByZero : BitVec 4 := 2
def arithmeticError : BitVec 4 := 3
def illegalCommand : BitVec 4 := 4

/-- `s` with a fault recorded and nothing else changed (60_exceptions.md R348). -/
def faulted (s : State) (code : BitVec 4) (w : Word) : State :=
  { s with fault := true, fcode := code, finfo := w }

/-- The command `i` raises the fault with this code. -/
def Raises (code : BitVec 4) (i : Instr) (s : State) : Prop :=
  exec i s = .next (faulted s code (encode i))

/-- Everything but registers, RES, FLAGS and the draw port is as before. -/
def SameControl (s t : State) : Prop :=
  t.arg0 = s.arg0 ∧ t.arg1 = s.arg1 ∧ t.fault = s.fault ∧ t.fcode = s.fcode ∧ t.finfo = s.finfo ∧
    t.maxcap = s.maxcap ∧ t.running = s.running ∧ t.pending = s.pending ∧ t.replies = s.replies

/-- Every big register outside `ds` is as before. -/
def RegsExcept (ds : List Reg) (s t : State) : Prop := ∀ j, j ∉ ds → t.reg j = s.reg j

/-- Only the registers of `ds` and the draw port may have changed. -/
def WritesOnly (ds : List Reg) (s t : State) : Prop :=
  SameControl s t ∧ t.res = s.res ∧ t.flags = s.flags ∧ RegsExcept ds s t

/-- What Commit leaves in a register when it runs on the draw port `p`, and the port `p'` after it: a zero has the sign
`DrawSign()` answers and takes that one draw, a nonzero content takes none (00_scope.md R18, 10_state.md R30). -/
def Tagged (p : DrawPort) (b : BigNum) (p' : DrawPort) : Prop :=
  if b.mag = 0 then b.sign = p.drawSign.1 ∧ p' = p.drawSign.2 else p' = p

/-- `i` completes with the value `v` in `d`, in a capacity of `n` limbs, changes nothing else, and draws the sign tag of a
zero and nothing more (00_scope.md R18, 10_state.md R30). -/
def Commits (d : Reg) (v : Int) (n : Nat) (i : Instr) (s : State) : Prop :=
  ∃ t, exec i s = .next t ∧ (t.reg d).val = v ∧ (t.reg d).cap = n ∧ WritesOnly [d] s t ∧
    Tagged s.draws (t.reg d) t.draws

/-- `i` completes with exactly the register content `b` in `d`, changes nothing else and draws nothing. -/
def Stores (d : Reg) (b : BigNum) (i : Instr) (s : State) : Prop :=
  ∃ t, exec i s = .next t ∧ t.reg d = b ∧ WritesOnly [d] s t ∧ t.draws = s.draws

/-- The number of limbs of the tight list of a magnitude: `ceil(bitlen / 32)` (00_scope.md R14). -/
def tightCap (m : Nat) : Nat := (Nat.size m + 31) / 32

/-- The big registers a command writes (10_state.md R28). -/
def destinations : Instr → List Reg
  | .alloc rd | .free rd | .realloc rd | .setu32 rd | .setlimb rd | .setbyte rd | .setsign rd
  | .randl rd | .randbits rd | .genprime rd => [rd]
  | .copy rd _ | .copyc rd _ | .neg rd _ | .shl rd _ | .shr rd _ | .randmax rd _ => [rd]
  | .add rd _ _ | .sub rd _ _ | .mul rd _ _ | .div rd _ _ | .mod rd _ _ | .gcd rd _ _ | .lcm rd _ _
  | .modinv rd _ _ => [rd]
  | .modexp rd _ _ _ => [rd]
  | .divrem rd _ _ rs3 => [rd, rs3]
  | .getlimb _ | .getbyte _ | .alen _ | .bitlen _ | .getsign _ | .cmp _ _ | .isprime _ => []

/-- The commands that write RES (10_state.md R32). -/
def writesRes : Instr → Bool
  | .getlimb _ | .getbyte _ | .alen _ | .bitlen _ | .getsign _ => true
  | _ => false

/-- The commands that write T (10_state.md R34). -/
def writesT : Instr → Bool
  | .alloc _ | .setlimb _ | .setbyte _ | .isprime _ => true
  | _ => false

/-- The command that writes EQ and LT (10_state.md R34). -/
def writesOrder : Instr → Bool
  | .cmp _ _ => true
  | _ => false

/-- Which command can raise which fault, for a well-formed command (60_exceptions.md R347). -/
def mayRaise : Instr → BitVec 4 → Prop
  | .alloc _, c | .realloc _, c | .copyc _ _, c | .randl _, c => c = allocationFailure
  | .add _ _ _, c | .sub _ _ _, c | .mul _ _ _, c | .shl _ _, c => c = allocationFailure
  | .divrem _ _ _ _, c | .div _ _ _, c | .mod _ _ _, c => c = divisionByZero
  | .gcd _ _ _, c => c = arithmeticError
  | .lcm _ _ _, c => c = allocationFailure ∨ c = divisionByZero ∨ c = arithmeticError
  | .modinv _ _ _, c | .modexp _ _ _ _, c => c = divisionByZero ∨ c = arithmeticError
  | .randmax _ _, c => c = arithmeticError
  | .randbits _, c | .genprime _, c => c = allocationFailure ∨ c = arithmeticError
  | .free _, _ | .copy _ _, _ | .setu32 _, _ | .getlimb _, _ | .setlimb _, _ | .getbyte _, _ | .setbyte _, _
  | .alen _, _ | .bitlen _, _ | .getsign _, _ | .setsign _, _ | .neg _ _, _ | .cmp _ _, _ | .shr _ _, _
  | .isprime _, _ => False

/-- The word at a block offset as the map of the register block gives it (20_memory.md R75). -/
def mappedWord (s : State) (offset : Nat) : Word :=
  if offset = 0x04 then (if s.fault then 1 else 0)
  else if offset = 0x08 then
    BitVec.ofNat 32 (s.flags.eq.toNat + 2 * s.flags.lt.toNat + 4 * s.flags.t.toNat)
  else if offset = 0x0C then BitVec.ofNat 32 s.fcode.toNat
  else if offset = 0x10 then s.finfo
  else if offset = 0x14 then s.arg0
  else if offset = 0x18 then s.arg1
  else if offset = 0x1C then s.res
  else if offset = 0x20 then 0x504D5A01
  else if offset = 0x24 then 16
  else if offset = 0x28 then BitVec.ofNat 32 s.maxcap
  else 0

/-! The search of GENPRIME, as 48_random.md R285 writes it -/

/-- The start of a search: the random value `2^(bits-1) + d` with the top-bit mask and bit 0 set (R285). -/
def searchStart (bits topBits d : Nat) : Nat :=
  (2 ^ (bits - 1) + d) ||| (2 ^ bits - 2 ^ (bits - topBits)) ||| 1

/-- The draw port when the candidate `r + 2 * j` is tested: the candidates below it have taken their draws (R285). -/
def portAt (r : Nat) (p : DrawPort) : Nat → DrawPort
  | 0 => p
  | j + 1 => (isProbablyPrime (r + 2 * j : Nat) 30 (portAt r p j)).2

/-- `r + 2 * j` is the first of r, r + 2, r + 4, ... that the test at accuracy 30 accepts on its draws (R285). -/
def FirstAccepted (r : Nat) (p : DrawPort) (j : Nat) : Prop :=
  (isProbablyPrime (r + 2 * j : Nat) 30 (portAt r p j)).1 = true ∧
    ∀ i < j, (isProbablyPrime (r + 2 * i : Nat) 30 (portAt r p i)).1 = false

/-- What R286 says of a value GENPRIME can give: a bit length of `bits`, odd, the top max(topBits, 1) bits set, and a prime or
a value without a prime factor below 2000. -/
def SearchResult (bits topBits q : Nat) : Prop :=
  Nat.size q = bits ∧ q % 2 = 1 ∧ 2 ^ bits - 2 ^ (bits - max topBits 1) ≤ q ∧ q ≠ 1 ∧
    (Nat.Prime q ∨ ∀ f, Nat.Prime f → f < 2000 → ¬ f ∣ q)

end Sys2Proof.Claims

open Sys2Proof Sys2Proof.Machine Sys2Proof.Claims

/-! ## Encoding -/

/-- Decoding the word of a well-formed command gives the command back (30_encoding.md R91, R92, R96). -/
def Obligations.DecodeOfEncodeIsTheCommand : Prop :=
  ∀ i : Instr, i.wellFormed = true → decode (encode i) = .ok i

/-- Every word that decodes is the word of the command it decodes to, and that command is well formed (R91 to R96). -/
def Obligations.EncodeOfDecodeIsTheWord : Prop :=
  ∀ (w : Word) (i : Instr), decode w = .ok i → encode i = w ∧ i.wellFormed = true

/-- R96: a word decodes exactly when a row of the command table has its opcode byte, the word agrees with the row under the
row's mask, and it is no DIVREM with rd = rs3; it is then that row's command with the word's register fields. -/
def Obligations.DecodingFollowsTheMaskedTable : Prop :=
  ∀ (w : Word) (i : Instr), decode w = .ok i ↔
    ((∃ r ∈ opcodeTable, r.op = w.extractLsb' 24 8 ∧ w &&& r.format.mask = BitVec.ofNat 32 (r.op.toNat * 2 ^ 24)) ∧
      ¬ (w.extractLsb' 24 8 = 0x30 ∧ w.extractLsb' 20 4 = w.extractLsb' 8 4) ∧
      fieldsFor i = fieldsOf w)

/-- R103: the worked encodings, both ways, and the three illegal words. -/
def Obligations.WorkedEncodingsDecode : Prop :=
  encode (.add 3 1 2) = 0x20312000 ∧ decode 0x20312000 = .ok (.add 3 1 2) ∧
  decode 0x43412300 = .ok (.modexp 4 1 2 3) ∧
  decode 0x30512600 = .ok (.divrem 5 1 2 6) ∧
  decode 0x44070000 = .ok (.isprime 7) ∧
  decode 0x08200000 = .ok (.setlimb 2) ∧
  decode 0x10012000 = .ok (.cmp 1 2) ∧
  decode 0x20312001 = .error .nonzeroMustBeZero ∧
  decode 0x20312100 = .error .nonzeroMustBeZero ∧
  decode 0x30512500 = .error .sameDestinations

/-! ## The step, the fault state, the register block and reset -/

/-- R104: what a write of w to CMD does. In the fault state nothing; an illegal word raises IllegalCommand; else the decoded
command runs in the state the write left (the access is taken from the queue, log 1). -/
def Obligations.CommandWriteStep : Prop :=
  ∀ (s : State) (w : Word) (es : List HostEvent),
    s.running = none → s.pending = .write 0x00 4 w :: es →
    (s.fault = true → step s = .next { s with pending := es }) ∧
    (s.fault = false → ∀ e, decode w = .error e →
      step s = .next (faulted { s with pending := es } illegalCommand w)) ∧
    (s.fault = false → ∀ i, decode w = .ok i → step s = exec i { s with pending := es })

/-- R98: the illegal words (a row's mask disagrees for every row, an opcode of no row, DIVREM with rd = rs3, the all-zero and
the all-ones word) raise IllegalCommand, recorded with the word, and have no other effect on the unit; the access itself
leaves the queue (log 1). -/
def Obligations.IllegalWordsRaiseIllegalCommand : Prop :=
  (∀ (s : State) (w : Word) (es : List HostEvent), s.Ready → s.pending = .write 0x00 4 w :: es →
    ((∀ r ∈ opcodeTable, w &&& r.format.mask ≠ BitVec.ofNat 32 (r.op.toNat * 2 ^ 24)) ∨
      (w.extractLsb' 24 8 = 0x30 ∧ w.extractLsb' 20 4 = w.extractLsb' 8 4)) →
    step s = .next (faulted { s with pending := es } illegalCommand w)) ∧
  (∀ (s : State) (w : Word) (es : List HostEvent), s.Ready → s.pending = .write 0x00 4 w :: es →
    ((w.extractLsb' 24 8 = 0x00 ∨
      (0x13 ≤ (w.extractLsb' 24 8).toNat ∧ (w.extractLsb' 24 8).toNat ≤ 0x1F) ∨
      (0x23 ≤ (w.extractLsb' 24 8).toNat ∧ (w.extractLsb' 24 8).toNat ≤ 0x2F) ∨
      (0x33 ≤ (w.extractLsb' 24 8).toNat ∧ (w.extractLsb' 24 8).toNat ≤ 0x3F) ∨
      (0x45 ≤ (w.extractLsb' 24 8).toNat ∧ (w.extractLsb' 24 8).toNat ≤ 0x4F) ∨
      (0x54 ≤ (w.extractLsb' 24 8).toNat ∧ (w.extractLsb' 24 8).toNat ≤ 0xFF)) ∨
      w = 0x00000000 ∨ w = 0xFFFFFFFF) →
    step s = .next (faulted { s with pending := es } illegalCommand w))

/-- R40: in the fault state FAULT, FCODE and FINFO keep their values in every step but a reset, and a command write changes
nothing and draws nothing (the access itself leaves the queue, log 1); no such step changes a big register, RES, FLAGS
or the draw port. -/
def Obligations.FaultStateIsSticky : Prop :=
  ∀ s t : State, s.fault = true → s.pending.head? ≠ some .reset → step s = .next t →
    t.fault = true ∧ t.fcode = s.fcode ∧ t.finfo = s.finfo ∧
    (∀ i, t.reg i = s.reg i) ∧ t.res = s.res ∧ t.flags = s.flags ∧ t.draws = s.draws ∧ t.maxcap = s.maxcap ∧
    (s.running = none → ∀ w es, s.pending = .write 0x00 4 w :: es → t = { s with pending := es })

/-- R371: the reset event, at any time, also while a command runs: registers empty, scalars, flags and fault state zero, the
running command abandoned, so that the next command write executes; ID, NREGS, MAXCAPR and the random source as
before, and (log 9) what the host plans and has read as before. -/
def Obligations.ResetEventClearsTheUnit : Prop :=
  ∀ (s : State) (es : List HostEvent), s.pending = .reset :: es →
    ∃ t, step s = .next t ∧ (∀ i, t.reg i = ⟨.positive, []⟩) ∧ t.arg0 = 0 ∧ t.arg1 = 0 ∧ t.res = 0 ∧
      t.flags = ⟨false, false, false⟩ ∧ t.fault = false ∧ t.fcode = 0 ∧ t.finfo = 0 ∧ t.running = none ∧
      t.blockRead 0x20 4 = s.blockRead 0x20 4 ∧ t.blockRead 0x24 4 = s.blockRead 0x24 4 ∧
      t.blockRead 0x28 4 = s.blockRead 0x28 4 ∧
      t.maxcap = s.maxcap ∧ t.draws = s.draws ∧ t.pending = es ∧ t.replies = s.replies

/-- R46: the values right after reset, read where the host can read them. -/
def Obligations.ResetStateHasTheTabledValues : Prop :=
  (∀ i, State.reset.reg i = ⟨.positive, []⟩ ∧ (State.reset.reg i).cap = 0 ∧ (State.reset.reg i).val = 0) ∧
  State.reset.arg0 = 0 ∧ State.reset.arg1 = 0 ∧ State.reset.res = 0 ∧
  State.reset.flags = ⟨false, false, false⟩ ∧ State.reset.fault = false ∧ State.reset.fcode = 0 ∧ State.reset.finfo = 0 ∧
  State.reset.blockRead 0x20 4 = 0x504D5A01 ∧ State.reset.blockRead 0x24 4 = 16 ∧
  State.reset.blockRead 0x28 4 = BitVec.ofNat 32 State.reset.maxcap

/-- R72, R75, R76: a host read answers the mapped word when it is an aligned word access, else zero, and changes nothing (the
answer is recorded and the access leaves the queue, log 1); a host write other than a command changes ARG0 or ARG1 when
it is an aligned word access to them, in the fault state too, and otherwise nothing. -/
def Obligations.RegisterBlockAccess : Prop :=
  (∀ (s : State) (offset : BitVec 8) (width : Nat) (es : List HostEvent),
    s.running = none → s.pending = .read offset width :: es →
    step s = .next { s with
      pending := es
      replies := (if width = 4 ∧ offset.toNat % 4 = 0 then mappedWord s offset.toNat else 0) :: s.replies }) ∧
  (∀ (s : State) (offset : BitVec 8) (width : Nat) (v : Word) (es : List HostEvent),
    s.running = none → s.pending = .write offset width v :: es → ¬ (width = 4 ∧ offset = 0x00) →
    step s = .next (
      if width = 4 ∧ offset = 0x14 then { s with pending := es, arg0 := v }
      else if width = 4 ∧ offset = 0x18 then { s with pending := es, arg1 := v }
      else { s with pending := es }))

/-- R84: the model refuses an access of a second host. -/
def Obligations.SecondHostIsRefused : Prop :=
  ∀ (s : State) (es : List HostEvent), s.pending = .otherHost :: es → step s = .refused .secondHost

/-- While a GENPRIME is in progress the host's next access waits: a step runs the command on and, if it answers a next state,
leaves the queue as it is (20_memory.md R80, 48_random.md R287; that a restart is a step of its own is log 6). -/
def Obligations.AccessesWaitForTheRunningCommand : Prop :=
  ∀ (s : State) (rd : Reg), s.fault = false → s.running = some (encode (.genprime rd)) →
    s.pending.head? ≠ some .reset → s.pending.head? ≠ some .otherHost →
    step s = exec (.genprime rd) { s with running := none } ∧
    ∀ t, step s = .next t → t.pending = s.pending ∧ t.replies = s.replies

/-! ## Whole-machine rules -/

/-- Every step keeps the invariant: no register exceeds MAXCAP, the fault registers agree with the fault bit, EQ and LT are
not both set, only GENPRIME can be in progress (10_state.md R22, R35, R38, R39; log 6). -/
def Obligations.StepKeepsTheInvariant : Prop :=
  ∀ s t : State, s.Inv → step s = .next t → t.Inv

/-- The state after reset meets the invariant. -/
def Obligations.ResetMeetsTheInvariant : Prop := State.reset.Inv

/-- What no command changes: registers outside its destinations, ARG0, ARG1, MAXCAP, the host's queue and answers, RES but by
five commands, EQ and LT but by CMP, T but by four commands, the fault registers but by a fault (10_state.md R28, R31,
R32, R34, R37). -/
def Obligations.CommandsKeepTheirFrame : Prop :=
  ∀ (i : Instr) (s t : State), exec i s = .next t →
    RegsExcept (destinations i) s t ∧ t.arg0 = s.arg0 ∧ t.arg1 = s.arg1 ∧ t.maxcap = s.maxcap ∧
    t.pending = s.pending ∧ t.replies = s.replies ∧
    (writesRes i = false → t.res = s.res) ∧
    (writesOrder i = false → t.flags.eq = s.flags.eq ∧ t.flags.lt = s.flags.lt) ∧
    (writesT i = false → t.flags.t = s.flags.t) ∧
    (t.fault = false → s.fault = false ∧ t.fcode = s.fcode ∧ t.finfo = s.finfo) ∧
    ((∀ rd, i ≠ .genprime rd) → t.running = s.running)

/-- No flag is an input of a command (10_state.md R34, last sentences): with other flags before, the state after differs in the
flags alone, and the flags the command writes have the same values. The commands that write T do so unless they raise
a fault (ALLOC can), which changes no flag; CMP, which writes EQ and LT, raises none. -/
def Obligations.NoFlagIsAnInput : Prop :=
  ∀ (i : Instr) (s t : State) (f : Flags), exec i s = .next t →
    ∃ t', exec i { s with flags := f } = .next t' ∧ { t' with flags := t.flags } = t ∧
      (writesOrder i = true → t'.flags.eq = t.flags.eq ∧ t'.flags.lt = t.flags.lt) ∧
      (writesT i = true → t.fault = false → t'.flags.t = t.flags.t)

/-- R348: a command that faults sets FAULT, FCODE (1 to 4) and FINFO (its word) and changes nothing else, in every unit whose
registers respect MAXCAP. -/
def Obligations.FaultingCommandChangesNothingElse : Prop :=
  ∀ (i : Instr) (s t : State), s.CapsBounded → s.fault = false → exec i s = .next t → t.fault = true →
    ∃ code : BitVec 4, 1 ≤ code.toNat ∧ code.toNat ≤ 4 ∧ t = faulted s code (encode i)

/-- A well-formed command raises only the faults its row of R347 lists, in every unit whose registers respect MAXCAP. -/
def Obligations.CommandsRaiseOnlyTheirFaults : Prop :=
  ∀ (i : Instr) (s t : State), i.wellFormed = true → s.CapsBounded → s.fault = false → exec i s = .next t →
    t.fault = true → mayRaise i t.fcode

/-- Every command but GENPRIME answers a next state from every state (00_scope.md R11, 48_random.md R287). -/
def Obligations.CommandsAnswerNext : Prop :=
  ∀ (i : Instr) (s : State), (∀ rd, i ≠ .genprime rd) → ∃ t, exec i s = .next t

/-- GENPRIME's inner loop always ends, so GENPRIME too answers a next state from every state: the bound of log 7 is never
met (48_random.md R285). -/
def Obligations.GenprimeAnswersNext : Prop :=
  ∀ (rd : Reg) (s : State), ∃ t, exec (.genprime rd) s = .next t

/-- R17: a draw lies in its range, and every value of the range, and either sign, is some environment's answer. -/
def Obligations.DrawsCoverTheirRange : Prop :=
  (∀ lo hi : Nat, lo ≤ hi →
    (∀ p : DrawPort, lo ≤ (p.draw lo hi).1 ∧ (p.draw lo hi).1 ≤ hi) ∧
    (∀ d, lo ≤ d → d ≤ hi → ∃ p : DrawPort, (p.draw lo hi).1 = d)) ∧
  (∀ sg : Sign, ∃ p : DrawPort, p.drawSign.1 = sg)

/-! ## Storage, limb, byte and sign access -/

/-- R121: ALLOC on an allocated register fails with T = 0; above MAXCAP it raises AllocationFailure; else n zero limbs,
Positive, T = 1. -/
def Obligations.AllocReservesZeroLimbs : Prop :=
  ∀ (s : State) (rd : Reg), let n := s.arg0.toNat
    ((s.reg rd).cap ≠ 0 → exec (.alloc rd) s = .next { s with flags := { s.flags with t := false } }) ∧
    ((s.reg rd).cap = 0 → s.maxcap < n → Raises allocationFailure (.alloc rd) s) ∧
    ((s.reg rd).cap = 0 → n ≤ s.maxcap →
      ∃ t, exec (.alloc rd) s = .next t ∧ t.reg rd = ⟨.positive, List.replicate n 0⟩ ∧ RegsExcept [rd] s t ∧
        SameControl s t ∧ t.res = s.res ∧ t.draws = s.draws ∧ t.flags = { s.flags with t := true })

/-- R122, R124: FREE leaves the empty state, COPY an exact copy, tag of a zero and capacity included. -/
def Obligations.FreeEmptiesAndCopyCopies : Prop :=
  ∀ (s : State) (rd rs1 : Reg),
    Stores rd ⟨.positive, []⟩ (.free rd) s ∧ Stores rd (s.reg rs1) (.copy rd rs1) s

/-- R123, R125: REALLOC and COPYC leave capacity n, the source's sign, every limb below n as `get` reads it in the source; above
MAXCAP they raise AllocationFailure. -/
def Obligations.ReallocAndCopycResize : Prop :=
  ∀ (s : State) (rd rs1 : Reg), let n := s.arg0.toNat
    (s.maxcap < n → Raises allocationFailure (.realloc rd) s ∧ Raises allocationFailure (.copyc rd rs1) s) ∧
    (n ≤ s.maxcap →
      (∃ b : BigNum, Stores rd b (.realloc rd) s ∧ b.cap = n ∧ b.sign = (s.reg rd).sign ∧
        ∀ j < n, b.limbs.get j = (s.reg rd).limbs.get j) ∧
      (∃ b : BigNum, Stores rd b (.copyc rd rs1) s ∧ b.cap = n ∧ b.sign = (s.reg rs1).sign ∧
        ∀ j < n, b.limbs.get j = (s.reg rs1).limbs.get j))

/-- R126, R127: SETU32 leaves (Positive, [ARG0]); GETLIMB leaves limb ARG0, or 0 past the capacity, in RES. -/
def Obligations.Setu32AndGetlimb : Prop :=
  ∀ (s : State) (rd rs1 : Reg),
    Stores rd ⟨.positive, [s.arg0]⟩ (.setu32 rd) s ∧
    exec (.getlimb rs1) s = .next { s with
      res := if h : s.arg0.toNat < (s.reg rs1).cap then (s.reg rs1).limbs[s.arg0.toNat]'h else 0 }

/-- R128: SETLIMB below the capacity writes the one limb, keeps sign and capacity, T = 1; else only T = 0. -/
def Obligations.SetlimbWritesOneLimb : Prop :=
  ∀ (s : State) (rd : Reg), let i := s.arg0.toNat
    ((s.reg rd).cap ≤ i → exec (.setlimb rd) s = .next { s with flags := { s.flags with t := false } }) ∧
    (i < (s.reg rd).cap →
      ∃ t, exec (.setlimb rd) s = .next t ∧ (t.reg rd).sign = (s.reg rd).sign ∧ (t.reg rd).cap = (s.reg rd).cap ∧
        (∀ j, (t.reg rd).limbs.get j = if j = i then s.arg1 else (s.reg rd).limbs.get j) ∧
        RegsExcept [rd] s t ∧ SameControl s t ∧ t.res = s.res ∧ t.draws = s.draws ∧
        t.flags = { s.flags with t := true })

/-- GETBYTE leaves in RES the byte of weight 2^(8*b) of the magnitude, zero past the capacity: the byte space is the
little-endian image of the magnitude (40_storage.md R129, 20_memory.md R62, R68). -/
def Obligations.GetbyteReadsTheByteOfItsWeight : Prop :=
  ∀ (s : State) (rs1 : Reg),
    exec (.getbyte rs1) s = .next { s with
      res := BitVec.ofNat 32 ((s.reg rs1).mag / 2 ^ (8 * s.arg0.toNat) % 256) }

/-- R130: SETBYTE within the capacity replaces byte ARG0 by ARG1[7:0] and no other byte, keeps sign and capacity, T = 1; else
only T = 0. -/
def Obligations.SetbyteWritesOneByte : Prop :=
  ∀ (s : State) (rd : Reg), let b := s.arg0.toNat
    ((s.reg rd).cap ≤ b / 4 → exec (.setbyte rd) s = .next { s with flags := { s.flags with t := false } }) ∧
    (b / 4 < (s.reg rd).cap →
      ∃ t, exec (.setbyte rd) s = .next t ∧ (t.reg rd).sign = (s.reg rd).sign ∧ (t.reg rd).cap = (s.reg rd).cap ∧
        (∀ b', (t.reg rd).limbs.getByte b' =
          if b' = b then s.arg1.extractLsb' 0 8 else (s.reg rd).limbs.getByte b') ∧
        RegsExcept [rd] s t ∧ SameControl s t ∧ t.res = s.res ∧ t.draws = s.draws ∧
        t.flags = { s.flags with t := true })

/-- A mixed-width access sees one storage: after SETLIMB of v at limb j, GETBYTE at byte 4j + k returns v[8k+7 : 8k]; after SETBYTE
of c at byte b, GETLIMB at limb b div 4 returns the old limb with that byte's bits replaced (20_memory.md R64). -/
def Obligations.MixedWidthAccessSeesOneStorage : Prop :=
  ∀ (s t : State) (r : Reg),
    (∀ k < 4, s.arg0.toNat < (s.reg r).cap → 4 * s.arg0.toNat + k < 2 ^ 32 → exec (.setlimb r) s = .next t →
      ∃ u, exec (.getbyte r) { t with arg0 := BitVec.ofNat 32 (4 * s.arg0.toNat + k) } = .next u ∧
        u.res = BitVec.ofNat 32 (s.arg1.toNat / 2 ^ (8 * k) % 256)) ∧
    (s.arg0.toNat / 4 < (s.reg r).cap → exec (.setbyte r) s = .next t →
      ∃ u, exec (.getlimb r) { t with arg0 := BitVec.ofNat 32 (s.arg0.toNat / 4) } = .next u ∧
        ∀ m < 32, u.res.getLsbD m =
          if m / 8 = s.arg0.toNat % 4 then s.arg1.getLsbD (m % 8)
          else ((s.reg r).limbs.get (s.arg0.toNat / 4)).getLsbD m)

/-- R131, R132: ALEN leaves the index of the highest nonzero limb plus one, BITLEN one plus the index of the top set bit, 0 for
zero; both fit RES in a unit whose registers respect MAXCAP (R32). -/
def Obligations.AlenAndBitlenMeasure : Prop :=
  ∀ (s : State) (rs1 : Reg), s.CapsBounded →
    (∃ n : Nat, exec (.alen rs1) s = .next { s with res := BitVec.ofNat 32 n } ∧ n < 2 ^ 32 ∧
      (∀ j, n ≤ j → (s.reg rs1).limbs.get j = 0) ∧ (n ≠ 0 → (s.reg rs1).limbs.get (n - 1) ≠ 0)) ∧
    (∃ n : Nat, exec (.bitlen rs1) s = .next { s with res := BitVec.ofNat 32 n } ∧ n < 2 ^ 32 ∧
      (∀ k, n ≤ k → (s.reg rs1).mag.testBit k = false) ∧ (n ≠ 0 → (s.reg rs1).mag.testBit (n - 1) = true))

/-- R133, R134, R135: GETSIGN reports the tag as stored; SETSIGN takes it from ARG0[0] and keeps the limbs; NEG flips it, also of
a zero, and keeps the source's limbs; the value of NEG is the negated value. -/
def Obligations.SignCommands : Prop :=
  ∀ (s : State) (rd rs1 : Reg),
    exec (.getsign rs1) s = .next { s with res := if (s.reg rs1).sign = .positive then 0 else 1 } ∧
    Stores rd ⟨if s.arg0.getLsbD 0 then .negative else .positive, (s.reg rd).limbs⟩ (.setsign rd) s ∧
    Stores rd ⟨if (s.reg rs1).sign = .positive then .negative else .positive, (s.reg rs1).limbs⟩ (.neg rd rs1) s ∧
    ∃ t, exec (.neg rd rs1) s = .next t ∧ (t.reg rd).val = -(s.reg rs1).val

/-! ## Comparison and shifts -/

/-- R160: ucmp is the comparison of the magnitudes; capacities and leading zero limbs do not matter. -/
def Obligations.UcmpComparesMagnitudes : Prop :=
  ∀ X Y : Limbs, ucmp X Y = compare X.mag Y.mag

/-- R161: CMP leaves EQ = (val a = val b), LT = (val a < val b), T and everything else as before. -/
def Obligations.CmpComparesValues : Prop :=
  ∀ (s : State) (rs1 rs2 : Reg),
    exec (.cmp rs1 rs2) s = .next { s with
      flags := { eq := decide ((s.reg rs1).val = (s.reg rs2).val)
                 lt := decide ((s.reg rs1).val < (s.reg rs2).val)
                 t := s.flags.t } }

/-- R163: the two-pass limb shifts have the values mag * 2^k and mag div 2^k. -/
def Obligations.LimbShiftsAreExact : Prop :=
  ∀ (X : Limbs) (k : Nat), (ushl X k).mag = X.mag * 2 ^ k ∧ (ushr X k).mag = X.mag / 2 ^ k

/-- R165: SHL is exact, val * 2^k in ceil((bitlen + k)/32) limbs (a zero in none, whatever k is); AllocationFailure exactly when a
nonzero operand needs more than MAXCAP limbs. -/
def Obligations.ShlIsExact : Prop :=
  ∀ (s : State) (rd rs1 : Reg), let k := s.arg0.toNat
    let n := if (s.reg rs1).mag = 0 then 0 else (Nat.size (s.reg rs1).mag + k + 31) / 32
    (n ≤ s.maxcap → Commits rd ((s.reg rs1).val * 2 ^ k) n (.shl rd rs1) s) ∧
    (s.maxcap < n → Raises allocationFailure (.shl rd rs1) s)

/-- R166: SHR leaves the operand's sign times mag div 2^k, rounding toward zero, in a tight capacity; it never faults in a unit
whose registers respect MAXCAP. -/
def Obligations.ShrRoundsTowardZero : Prop :=
  ∀ (s : State) (rd rs1 : Reg), s.CapsBounded → let k := s.arg0.toNat
    Commits rd ((s.reg rs1).val.tdiv (2 ^ k)) (tightCap ((s.reg rs1).mag / 2 ^ k)) (.shr rd rs1) s

/-! ## Addition, subtraction, multiplication -/

/-- R180, R181: UAdd is the exact sum in max(alen) + 1 limbs; USub, for mag X ≥ mag Y, the exact difference in alen X limbs. -/
def Obligations.CarryAndBorrowChainsAreExact : Prop :=
  ∀ X Y : Limbs,
    ((uadd X Y).mag = X.mag + Y.mag ∧ (uadd X Y).length = max X.alen Y.alen + 1) ∧
    (Y.mag ≤ X.mag → (usub X Y).mag = X.mag - Y.mag ∧ (usub X Y).length = X.alen)

/-- R184: ADD is exact; the capacity is max(alen) + 1 when the signs are equal, else max(alen); AllocationFailure exactly when it
exceeds MAXCAP. -/
def Obligations.AddIsExact : Prop :=
  ∀ (s : State) (rd rs1 rs2 : Reg), let a := s.reg rs1; let b := s.reg rs2
    let n := if a.sign = b.sign then max a.alen b.alen + 1 else max a.alen b.alen
    (n ≤ s.maxcap → Commits rd (a.val + b.val) n (.add rd rs1 rs2) s) ∧
    (s.maxcap < n → Raises allocationFailure (.add rd rs1 rs2) s)

/-- R185: SUB is exact; the capacity is max(alen) when the signs are equal, else max(alen) + 1; AllocationFailure exactly when it
exceeds MAXCAP. -/
def Obligations.SubIsExact : Prop :=
  ∀ (s : State) (rd rs1 rs2 : Reg), let a := s.reg rs1; let b := s.reg rs2
    let n := if a.sign = b.sign then max a.alen b.alen else max a.alen b.alen + 1
    (n ≤ s.maxcap → Commits rd (a.val - b.val) n (.sub rd rs1 rs2) s) ∧
    (s.maxcap < n → Raises allocationFailure (.sub rd rs1 rs2) s)

/-- R200, R201: a partial product is mag X * d * 2^(32 i) in i + alen X + 1 limbs; the accumulated product is exact. -/
def Obligations.SchoolbookProductIsExact : Prop :=
  (∀ (X : Limbs) (d : Word) (i : Nat),
    (mulLimb X d i).mag = X.mag * d.toNat * 2 ^ (32 * i) ∧ (mulLimb X d i).length = i + X.alen + 1) ∧
  (∀ X Y : Limbs, (umul X Y).mag = X.mag * Y.mag)

/-- R202: MUL is exact in a tight capacity; AllocationFailure exactly when the product needs more than MAXCAP limbs. -/
def Obligations.MulIsExact : Prop :=
  ∀ (s : State) (rd rs1 rs2 : Reg), let a := s.reg rs1; let b := s.reg rs2
    (tightCap (a.mag * b.mag) ≤ s.maxcap →
      Commits rd (a.val * b.val) (tightCap (a.mag * b.mag)) (.mul rd rs1 rs2) s) ∧
    (s.maxcap < tightCap (a.mag * b.mag) → Raises allocationFailure (.mul rd rs1 rs2) s)

/-! ## Division -/

/-- R215: division by one limb, digit by digit from the top with a running remainder, is division with remainder. -/
def Obligations.DivLimbIsDivision : Prop :=
  ∀ (U : Limbs) (d : Word), d ≠ 0 → divLimb U d = (U.mag / d.toNat, U.mag % d.toNat)

/-- R214: the divider's path (the fast cases, the single limb, Knuth's Algorithm D with its estimate, correction, add-back and
de-normalization of R216) answers (U div V, U mod V). The correction loop of the model is cut at three rounds, which is
never what ends it (log 14). -/
def Obligations.DividerComputesDivMod : Prop :=
  ∀ U V : Limbs, V.mag ≠ 0 → uDivMod U V = (U.mag / V.mag, U.mag % V.mag)

/-- R217: DIVREM leaves the truncated quotient in rd and the remainder in rs3, both tight, or raises DivisionByZero and writes
neither. It draws the sign tag of each result that is zero and nothing else (R18); for a zero dividend, where both are,
every pair of tags is some environment's answer. -/
def Obligations.DivremTruncates : Prop :=
  ∀ (s : State) (rd rs1 rs2 rs3 : Reg), rd ≠ rs3 → s.CapsBounded →
    let u := s.reg rs1; let v := s.reg rs2; let q := u.mag / v.mag; let r := u.mag % v.mag
    (v.mag = 0 → Raises divisionByZero (.divrem rd rs1 rs2 rs3) s) ∧
    (v.mag ≠ 0 → ∃ t, exec (.divrem rd rs1 rs2 rs3) s = .next t ∧
      (t.reg rd).val = u.val.tdiv v.val ∧ (t.reg rd).cap = tightCap q ∧
      (t.reg rs3).val = u.val.tmod v.val ∧ (t.reg rs3).cap = tightCap r ∧
      (t.reg rd).val * v.val + (t.reg rs3).val = u.val ∧ (t.reg rs3).val.natAbs < v.val.natAbs ∧
      WritesOnly [rd, rs3] s t ∧
      (q ≠ 0 → r ≠ 0 → t.draws = s.draws) ∧
      (q = 0 → r ≠ 0 → Tagged s.draws (t.reg rd) t.draws) ∧
      (q ≠ 0 → r = 0 → Tagged s.draws (t.reg rs3) t.draws) ∧
      (q = 0 → r = 0 → t.draws = s.draws.drawSign.2.drawSign.2)) ∧
    (v.mag ≠ 0 → u.mag = 0 → ∀ a b : Sign,
      ∃ p t, exec (.divrem rd rs1 rs2 rs3) { s with draws := p } = .next t ∧
        (t.reg rd).sign = a ∧ (t.reg rs3).sign = b)

/-- R218, R219: DIV leaves the truncated quotient, MOD the remainder with the dividend's sign; both raise DivisionByZero for a zero
divisor. -/
def Obligations.DivAndModTruncate : Prop :=
  ∀ (s : State) (rd rs1 rs2 : Reg), s.CapsBounded → let u := s.reg rs1; let v := s.reg rs2
    (v.mag = 0 → Raises divisionByZero (.div rd rs1 rs2) s ∧ Raises divisionByZero (.mod rd rs1 rs2) s) ∧
    (v.mag ≠ 0 → Commits rd (u.val.tdiv v.val) (tightCap (u.mag / v.mag)) (.div rd rs1 rs2) s ∧
      Commits rd (u.val.tmod v.val) (tightCap (u.mag % v.mag)) (.mod rd rs1 rs2) s)

/-! ## Number theory -/

/-- R231: the binary GCD of two positive numbers is their greatest common divisor. -/
def Obligations.BinaryGcdIsGcd : Prop :=
  ∀ U V : Nat, 0 < U → 0 < V → binGcd U V = Nat.gcd U V

/-- R232: GCD answers a zero operand with the other one, sign kept; of two nonzero operands a negative one raises ArithmeticError;
else the greatest common divisor. -/
def Obligations.GcdCommand : Prop :=
  ∀ (s : State) (rd rs1 rs2 : Reg), s.CapsBounded → let u := s.reg rs1; let v := s.reg rs2
    (u.mag = 0 → Commits rd v.val (tightCap v.mag) (.gcd rd rs1 rs2) s) ∧
    (v.mag = 0 → Commits rd u.val (tightCap u.mag) (.gcd rd rs1 rs2) s) ∧
    (u.mag ≠ 0 → v.mag ≠ 0 → (u.val < 0 ∨ v.val < 0) → Raises arithmeticError (.gcd rd rs1 rs2) s) ∧
    (0 < u.val → 0 < v.val →
      Commits rd (Nat.gcd u.mag v.mag) (tightCap (Nat.gcd u.mag v.mag)) (.gcd rd rs1 rs2) s)

/-- R234: LCM raises ArithmeticError as GCD does, DivisionByZero for two zeros, AllocationFailure for a result above MAXCAP; one
zero operand gives zero; of two positive operands the least common multiple. -/
def Obligations.LcmCommand : Prop :=
  ∀ (s : State) (rd rs1 rs2 : Reg), let u := s.reg rs1; let v := s.reg rs2; let m := Nat.lcm u.mag v.mag
    (u.mag ≠ 0 → v.mag ≠ 0 → (u.val < 0 ∨ v.val < 0) → Raises arithmeticError (.lcm rd rs1 rs2) s) ∧
    (u.mag = 0 → v.mag = 0 → Raises divisionByZero (.lcm rd rs1 rs2) s) ∧
    ((u.mag = 0 ∧ v.mag ≠ 0) ∨ (u.mag ≠ 0 ∧ v.mag = 0) → Commits rd 0 0 (.lcm rd rs1 rs2) s) ∧
    (0 < u.val → 0 < v.val → tightCap m ≤ s.maxcap → Commits rd m (tightCap m) (.lcm rd rs1 rs2) s) ∧
    (0 < u.val → 0 < v.val → s.maxcap < tightCap m → Raises allocationFailure (.lcm rd rs1 rs2) s)

/-- R237: the extended Euclidean loop with its parity flag gives the inverse of a modulo V when they are coprime, else 0. -/
def Obligations.ExtendedEuclidInverts : Prop :=
  ∀ a V : Nat, 1 < V → a < V →
    (Nat.gcd a V = 1 → 1 ≤ extEuclid a V ∧ extEuclid a V < V ∧ a * extEuclid a V % V = 1) ∧
    (Nat.gcd a V ≠ 1 → extEuclid a V = 0)

/-- R236: MODINV raises ArithmeticError for a negative operand, then DivisionByZero for a zero modulus; modulus 1 gives a draw
from 0 and 1; else the inverse of u mod v, or zero when there is none. -/
def Obligations.ModinvCommand : Prop :=
  ∀ (s : State) (rd rs1 rs2 : Reg), s.CapsBounded → let u := s.reg rs1; let v := s.reg rs2
    ((u.val < 0 ∨ v.val < 0) → Raises arithmeticError (.modinv rd rs1 rs2) s) ∧
    (0 ≤ u.val → v.val = 0 → Raises divisionByZero (.modinv rd rs1 rs2) s) ∧
    (0 ≤ u.val → v.val = 1 → ∃ t, exec (.modinv rd rs1 rs2) s = .next t ∧
      (t.reg rd).val = (s.draws.draw 0 1).1 ∧ (t.reg rd).cap = (s.draws.draw 0 1).1 ∧ WritesOnly [rd] s t ∧
      Tagged (s.draws.draw 0 1).2 (t.reg rd) t.draws) ∧
    (0 ≤ u.val → 1 < v.val → Nat.gcd u.mag v.mag ≠ 1 → Commits rd 0 0 (.modinv rd rs1 rs2) s) ∧
    (0 ≤ u.val → 1 < v.val → Nat.gcd u.mag v.mag = 1 →
      ∃ x : Nat, 1 ≤ x ∧ x < v.mag ∧ u.mag * x % v.mag = 1 ∧ Commits rd x (tightCap x) (.modinv rd rs1 rs2) s)

/-- R251: square-and-multiply gives b^E mod M for E ≥ 1, and 1 for E = 0, M = 1 included. -/
def Obligations.SquareAndMultiplyIsPower : Prop :=
  ∀ b E M : Nat, 1 ≤ M → (1 ≤ E → modExp b E M = b ^ E % M) ∧ modExp b 0 M = 1

/-- R252: MODEXP raises ArithmeticError for a negative operand, then DivisionByZero for a zero modulus; exponent 0 gives 1; else
base^exponent mod modulus, tight. -/
def Obligations.ModexpCommand : Prop :=
  ∀ (s : State) (rd rs1 rs2 rs3 : Reg), s.CapsBounded →
    let b := s.reg rs1; let e := s.reg rs2; let m := s.reg rs3
    ((b.val < 0 ∨ e.val < 0 ∨ m.val < 0) → Raises arithmeticError (.modexp rd rs1 rs2 rs3) s) ∧
    (0 ≤ b.val → 0 ≤ e.val → m.val = 0 → Raises divisionByZero (.modexp rd rs1 rs2 rs3) s) ∧
    (0 ≤ b.val → e.val = 0 → 0 < m.val → Commits rd 1 1 (.modexp rd rs1 rs2 rs3) s) ∧
    (0 ≤ b.val → 0 < e.val → 0 < m.val →
      Commits rd (b.mag ^ e.mag % m.mag : Nat) (tightCap (b.mag ^ e.mag % m.mag)) (.modexp rd rs1 rs2 rs3) s)

/-- R264: a Miller-Rabin round of an odd n ≥ 2003 with the base a, where n - 1 = 2^s * t with t odd. It fails when a and n are not
coprime; it passes exactly when a^t mod n is 1 or a^(2^r t) mod n is n - 1 for some r < s; a prime passes for every
base. -/
def Obligations.PrimePassesEveryRound : Prop :=
  ∀ n a : Nat, 2003 ≤ n → n % 2 = 1 → 1 ≤ a → a ≤ n - 1 →
    (Nat.gcd a n ≠ 1 → mrPasses n a = false) ∧
    (∀ s t, n - 1 = 2 ^ s * t → t % 2 = 1 →
      (mrPasses n a = true ↔ a ^ t % n = 1 ∨ ∃ r < s, a ^ (2 ^ r * t) % n = n - 1)) ∧
    (Nat.Prime n → mrPasses n a = true)

/-- R262 to R267: ISPRIME writes the verdict to T and nothing else. n ≤ 1 and every proper multiple of a prime below 2000 give
false and every prime below 2000 gives true, with no draw. A value above 1 without such a factor runs at most ARG0 rounds,
one draw a round: the verdict is true exactly when all the ARG0 bases pass (so with accuracy 0), and the first base that
fails is the last that is drawn. Every prime gives true for every draw. -/
def Obligations.IsprimeVerdict : Prop :=
  ∀ (s : State) (rs1 : Reg), let n := (s.reg rs1).val; let acc := s.arg0.toNat
    let base := fun j : Nat => ((DrawPort.advance^[j] s.draws).draw 1 (n.toNat - 1)).1
    ∃ (v : Bool) (p : DrawPort), exec (.isprime rs1) s = .next { s with draws := p, flags := { s.flags with t := v } } ∧
      (n ≤ 1 → v = false ∧ p = s.draws) ∧
      (∀ q : Nat, Nat.Prime q → q < 2000 → n = q → v = true ∧ p = s.draws) ∧
      (∀ q : Nat, Nat.Prime q → q < 2000 → n ≠ q → (q : Int) ∣ n → v = false ∧ p = s.draws) ∧
      (1 < n → (∀ q : Nat, Nat.Prime q → q < 2000 → ¬ (q : Int) ∣ n) →
        (v = true ↔ ∀ j < acc, mrPasses n.toNat (base j) = true) ∧ (acc = 0 → v = true) ∧
        ∃ k ≤ acc, p = DrawPort.advance^[k] s.draws ∧ (v = true → k = acc) ∧
          (v = false → 1 ≤ k ∧ mrPasses n.toNat (base (k - 1)) = false ∧
            ∀ j < k - 1, mrPasses n.toNat (base j) = true)) ∧
      (∀ q : Nat, Nat.Prime q → n = q → v = true)

/-! ## Random and prime generation -/

/-- R282: RANDL raises AllocationFailure above MAXCAP, else leaves the n drawn limbs, not trimmed, Positive unless all are zero,
and every limb list of that length is some environment's answer. -/
def Obligations.RandlFillsEveryLimb : Prop :=
  ∀ (s : State) (rd : Reg), let n := s.arg0.toNat
    (s.maxcap < n → Raises allocationFailure (.randl rd) s) ∧
    (n ≤ s.maxcap →
      (∃ t, exec (.randl rd) s = .next t ∧ (t.reg rd).limbs = (s.draws.drawLimbs n).1 ∧ (t.reg rd).cap = n ∧
        ((t.reg rd).mag ≠ 0 → (t.reg rd).sign = .positive) ∧ WritesOnly [rd] s t ∧
        Tagged (s.draws.drawLimbs n).2 (t.reg rd) t.draws) ∧
      (∀ L : Limbs, L.length = n →
        ∃ p t, exec (.randl rd) { s with draws := p } = .next t ∧ (t.reg rd).limbs = L))

/-- R283: RANDMAX raises ArithmeticError for a negative max, else leaves the drawn value of alen(max) limbs, reduced modulo max if
it exceeds max: a value from 0 to max in alen(max) limbs, and every value of that range is some environment's
answer. -/
def Obligations.RandmaxStaysAtOrBelowMax : Prop :=
  ∀ (s : State) (rd rs1 : Reg), s.CapsBounded → let m := s.reg rs1
    (m.val < 0 → Raises arithmeticError (.randmax rd rs1) s) ∧
    (0 ≤ m.val →
      (∃ t, exec (.randmax rd rs1) s = .next t ∧ 0 ≤ (t.reg rd).val ∧ (t.reg rd).val ≤ m.val ∧ (t.reg rd).cap = m.alen ∧
        (let r := (s.draws.drawLimbs m.alen).1.mag
         (t.reg rd).mag = if m.mag < r then r % m.mag else r) ∧
        WritesOnly [rd] s t ∧ Tagged (s.draws.drawLimbs m.alen).2 (t.reg rd) t.draws) ∧
      (∀ r : Nat, (r : Int) ≤ m.val →
        ∃ p t, exec (.randmax rd rs1) { s with draws := p } = .next t ∧ (t.reg rd).val = r))

/-- R284: RANDBITS raises ArithmeticError for 0 bits, then AllocationFailure above MAXCAP; else the drawn lower bits under a forced
top bit: a Positive value of exactly `bits` bits in ceil(bits/32) limbs, and every such value is some environment's
answer. -/
def Obligations.RandbitsForcesTheBitLength : Prop :=
  ∀ (s : State) (rd : Reg), let bits := s.arg0.toNat; let n := (bits + 31) / 32
    (bits = 0 → Raises arithmeticError (.randbits rd) s) ∧
    (bits ≠ 0 → s.maxcap < n → Raises allocationFailure (.randbits rd) s) ∧
    (bits ≠ 0 → n ≤ s.maxcap →
      (∃ t, exec (.randbits rd) s = .next t ∧ (t.reg rd).sign = .positive ∧ Nat.size (t.reg rd).mag = bits ∧
        (t.reg rd).mag = 2 ^ (bits - 1) + (s.draws.draw 0 (2 ^ (bits - 1) - 1)).1 ∧
        (t.reg rd).cap = n ∧ WritesOnly [rd] s t ∧ t.draws = (s.draws.draw 0 (2 ^ (bits - 1) - 1)).2) ∧
      (∀ r : Nat, Nat.size r = bits →
        ∃ p t, exec (.randbits rd) { s with draws := p } = .next t ∧ (t.reg rd).mag = r))

/-- GENPRIME's faults come first (48_random.md R286). -/
def Obligations.GenprimeFaults : Prop :=
  ∀ (s : State) (rd : Reg), let bits := s.arg0.toNat; let topBits := s.arg1.toNat
    (bits = 0 ∨ bits < topBits → Raises arithmeticError (.genprime rd) s) ∧
    (bits ≠ 0 → topBits ≤ bits → s.maxcap < (bits + 31) / 32 → Raises allocationFailure (.genprime rd) s)

/-- R285, R286: a pass of the search draws a value of `bits` bits, sets its top `topBits` bits and bit 0, and steps by 2 to the
first value q the test accepts. When q has the requested length GENPRIME completes with it, Positive, in ceil(bits/32)
limbs, and q is odd, has its top max(topBits, 1) bits set and is a prime or has no prime factor below 2000; every such
value is some environment's result. When the length has drifted, nothing but the draw port changes and the command stays
in progress (R287; that a pass is a step is log 6). -/
def Obligations.GenprimeCommitsItsFind : Prop :=
  ∀ (s : State) (rd : Reg), let bits := s.arg0.toNat; let topBits := s.arg1.toNat
    let d := s.draws.draw 0 (2 ^ (bits - 1) - 1); let start := searchStart bits topBits d.1
    bits ≠ 0 → topBits ≤ bits → (bits + 31) / 32 ≤ s.maxcap →
    (∀ j, FirstAccepted start d.2 j → let q := start + 2 * j; let p := portAt start d.2 (j + 1)
      (Nat.size q = bits →
        (∃ t, exec (.genprime rd) s = .next t ∧ (t.reg rd).sign = .positive ∧ (t.reg rd).mag = q ∧
          (t.reg rd).cap = (bits + 31) / 32 ∧ WritesOnly [rd] s t ∧ t.draws = p) ∧
        SearchResult bits topBits q) ∧
      (Nat.size q ≠ bits →
        exec (.genprime rd) s = .next { s with draws := p, running := some (encode (.genprime rd)) })) ∧
    (∀ q, SearchResult bits topBits q →
      ∃ p t, exec (.genprime rd) { s with draws := p } = .next t ∧ (t.reg rd).sign = .positive ∧ (t.reg rd).mag = q ∧
        (t.reg rd).cap = (bits + 31) / 32 ∧ WritesOnly [rd] s t)

/-- GENPRIME of two bits completes with 3 for every draw; GENPRIME of one bit never completes: every step of the command leaves it
in progress and every architectural field as it was (48_random.md R286, R287; log 6). -/
def Obligations.GenprimeOfOneAndTwoBits : Prop :=
  ∀ (s : State) (rd : Reg), 1 ≤ s.maxcap →
    (s.arg0 = 2 → s.arg1.toNat ≤ 2 →
      ∃ t, exec (.genprime rd) s = .next t ∧ t.reg rd = ⟨.positive, [3]⟩ ∧ WritesOnly [rd] s t) ∧
    (s.arg0 = 1 → s.arg1.toNat ≤ 1 →
      ∃ p, exec (.genprime rd) s = .next { s with draws := p, running := some (encode (.genprime rd)) })
end

