-- ==== Sys2Proof/Laws/Operands.lean ====
section
/-! SUPPORT. The small lemmas of limb lists, magnitudes, bit lengths and big numbers (00_scope.md R14). -/

namespace Sys2Proof

theorem base_pos : 0 < Config.base := by decide

theorem base_eq : Config.base = 2 ^ 32 := rfl

theorem word_lt_base (w : Word) : w.toNat < Config.base := w.isLt

theorem ofNat_toNat_base (m : Nat) : (BitVec.ofNat 32 m).toNat = m % Config.base := BitVec.toNat_ofNat m 32

theorem base_pow (n : Nat) : Config.base ^ n = 2 ^ (32 * n) := by rw [base_eq, ← pow_mul]

/-! Bit lengths -/

theorem bitlenOf_eq_size (m : Nat) : bitlenOf m = m.size := by
  unfold bitlenOf
  split
  · simp_all
  · rename_i h
    have h1 : m < 2 ^ (m.log2 + 1) := Nat.lt_log2_self
    have h2 : 2 ^ m.log2 ≤ m := Nat.log2_self_le h
    exact le_antisymm (Nat.lt_size.2 h2) (Nat.size_le.2 h1)

theorem lt_two_pow_bitlenOf (m : Nat) : m < 2 ^ bitlenOf m := by
  rw [bitlenOf_eq_size]; exact Nat.lt_size_self m

theorem bitlenOf_le_iff {m n : Nat} : bitlenOf m ≤ n ↔ m < 2 ^ n := by
  rw [bitlenOf_eq_size]; exact Nat.size_le

theorem two_pow_le_of_bitlenOf {m : Nat} (h : m ≠ 0) : 2 ^ (bitlenOf m - 1) ≤ m := by
  by_contra hlt
  have hpos : 0 < bitlenOf m := by unfold bitlenOf; simp [h]
  have := bitlenOf_le_iff.2 (not_le.1 hlt)
  omega

@[simp] theorem bitlenOf_zero : bitlenOf 0 = 0 := rfl

theorem bitlenOf_eq_zero_iff {m : Nat} : bitlenOf m = 0 ↔ m = 0 := by
  unfold bitlenOf; split <;> simp_all

theorem limbCount_le_iff {b n : Nat} : limbCount b ≤ n ↔ b ≤ 32 * n := by unfold limbCount; omega

namespace Limbs

/-! Magnitudes -/

@[simp] theorem mag_nil : Limbs.mag [] = 0 := rfl

@[simp] theorem mag_cons (l : Word) (ls : Limbs) : Limbs.mag (l :: ls) = l.toNat + Config.base * Limbs.mag ls := rfl

theorem mag_lt (X : Limbs) : X.mag < Config.base ^ X.length := by
  induction X with
  | nil => simp
  | cons l ls ih =>
    rw [mag_cons, List.length_cons, pow_succ']
    have hl := word_lt_base l
    calc l.toNat + Config.base * Limbs.mag ls < Config.base * (Limbs.mag ls + 1) := by rw [Nat.mul_add]; omega
      _ ≤ _ := Nat.mul_le_mul_left _ ih

theorem mag_append (X Y : Limbs) : Limbs.mag (X ++ Y) = X.mag + Config.base ^ X.length * Y.mag := by
  induction X with
  | nil => simp
  | cons l ls ih =>
    rw [List.cons_append, mag_cons, ih, mag_cons, List.length_cons, pow_succ']
    ring

@[simp] theorem mag_replicate_zero (n : Nat) : Limbs.mag (List.replicate n 0) = 0 := by
  induction n with
  | zero => rfl
  | succ n ih => rw [List.replicate_succ, mag_cons, ih]; rfl

theorem mag_headD_tail (X : Limbs) : X.mag = (X.headD 0).toNat + Config.base * Limbs.mag X.tail := by
  cases X <;> simp

theorem mag_tail (X : Limbs) : Limbs.mag X.tail = X.mag / Config.base := by
  rw [mag_headD_tail X, Nat.add_mul_div_left _ _ base_pos, Nat.div_eq_of_lt (word_lt_base _), Nat.zero_add]

theorem toNat_headD (X : Limbs) : (X.headD 0).toNat = X.mag % Config.base := by
  rw [mag_headD_tail X, Nat.add_mul_mod_self_left, Nat.mod_eq_of_lt (word_lt_base _)]

theorem toNat_get (X : Limbs) (j : Nat) : (X.get j).toNat = X.mag / Config.base ^ j % Config.base := by
  induction X generalizing j with
  | nil => simp [Limbs.get]
  | cons l ls ih =>
    cases j with
    | zero =>
      simp [Limbs.get, Nat.mod_eq_of_lt (word_lt_base l)]
    | succ j =>
      have := ih j
      simp only [Limbs.get, List.getD_cons_succ] at this ⊢
      rw [this, mag_cons, pow_succ', ← Nat.div_div_eq_div_mul, Nat.add_mul_div_left _ _ base_pos,
        Nat.div_eq_of_lt (word_lt_base l), Nat.zero_add]

theorem isZero_iff {X : Limbs} : X.isZero = true ↔ X.mag = 0 := by
  induction X with
  | nil => simp [Limbs.isZero]
  | cons l ls ih =>
    have hb := base_pos
    simp only [Limbs.isZero, List.all_cons, Bool.and_eq_true, beq_iff_eq, mag_cons] at ih ⊢
    rw [ih]
    constructor
    · rintro ⟨rfl, h⟩; simp [h]
    · intro h
      have h1 : l.toNat = 0 := by omega
      have h2 : Config.base * Limbs.mag ls = 0 := by omega
      exact ⟨BitVec.eq_of_toNat_eq (by simpa using h1), by
        rcases Nat.mul_eq_zero.1 h2 with h | h
        · omega
        · exact h⟩

/-! Active lengths -/

theorem alen_le_length (X : Limbs) : X.alen ≤ X.length := by
  induction X with
  | nil => simp [Limbs.alen]
  | cons l ls ih => simp only [Limbs.alen, List.length_cons]; split <;> (try split) <;> omega

theorem alen_le_iff {X : Limbs} {n : Nat} : X.alen ≤ n ↔ X.mag < Config.base ^ n := by
  have hb := base_pos
  induction X generalizing n with
  | nil => simp [Limbs.alen, hb]
  | cons l ls ih =>
    cases n with
    | zero =>
      have h0 := ih (n := 0)
      simp only [Limbs.alen, mag_cons, pow_zero, Nat.lt_one_iff, Nat.le_zero] at h0 ⊢
      constructor
      · intro h
        split at h
        · rename_i hz
          split at h
          · rename_i hl; simp [hl, h0.1 hz]
          · omega
        · omega
      · intro h
        have hl : l = 0 := BitVec.eq_of_toNat_eq (by simp; omega)
        have hm : Limbs.mag ls = 0 := by
          rcases Nat.mul_eq_zero.1 (show Config.base * Limbs.mag ls = 0 by omega) with h | h
          · omega
          · exact h
        simp [hl, h0.2 hm]
    | succ n =>
      have h1 : Limbs.alen ls ≤ n ↔ Limbs.mag ls < Config.base ^ n := ih
      have hl := word_lt_base l
      have hkey : l.toNat + Config.base * Limbs.mag ls < Config.base ^ (n + 1) ↔ Limbs.mag ls < Config.base ^ n := by
        rw [pow_succ']
        constructor
        · intro h
          by_contra hge
          have := Nat.mul_le_mul_left Config.base (not_lt.1 hge)
          omega
        · intro h
          have := Nat.mul_le_mul_left Config.base (Nat.succ_le_of_lt h)
          rw [Nat.mul_succ] at this
          omega
      rw [mag_cons, hkey, ← h1]
      simp only [Limbs.alen]
      split
      · rename_i hz; rw [hz]; split <;> omega
      · omega

theorem alen_eq_zero_iff {X : Limbs} : X.alen = 0 ↔ X.mag = 0 := by
  have := alen_le_iff (X := X) (n := 0)
  simpa using this

theorem mag_lt_base_pow_alen (X : Limbs) : X.mag < Config.base ^ X.alen := alen_le_iff.1 le_rfl

theorem alen_eq_limbCount (X : Limbs) : X.alen = limbCount (bitlenOf X.mag) := by
  apply le_antisymm
  · rw [alen_le_iff, base_pow]
    calc X.mag < 2 ^ bitlenOf X.mag := lt_two_pow_bitlenOf _
      _ ≤ _ := Nat.pow_le_pow_right (by decide) (by unfold limbCount; omega)
  · rw [limbCount_le_iff, bitlenOf_le_iff, ← base_pow]
    exact mag_lt_base_pow_alen X

/-! Limb lists of a magnitude -/

@[simp] theorem length_ofMag (m n : Nat) : (Limbs.ofMag m n).length = n := by
  induction n generalizing m with
  | zero => rfl
  | succ n ih => simp [Limbs.ofMag, ih]

theorem mag_ofMag (m n : Nat) : (Limbs.ofMag m n).mag = m % Config.base ^ n := by
  induction n generalizing m with
  | zero => simp [Limbs.ofMag, Nat.mod_one]
  | succ n ih =>
    rw [Limbs.ofMag, mag_cons, ih, ofNat_toNat_base, pow_succ', Nat.mod_mul]

theorem mag_ofMag_of_lt {m n : Nat} (h : m < Config.base ^ n) : (Limbs.ofMag m n).mag = m := by
  rw [mag_ofMag, Nat.mod_eq_of_lt h]

theorem lt_base_pow_limbCount (m : Nat) : m < Config.base ^ limbCount (bitlenOf m) := by
  rw [base_pow]
  exact lt_of_lt_of_le (lt_two_pow_bitlenOf m) (Nat.pow_le_pow_right (by decide) (by unfold limbCount; omega))

@[simp] theorem mag_tight (m : Nat) : (Limbs.tight m).mag = m := mag_ofMag_of_lt (lt_base_pow_limbCount m)

@[simp] theorem length_tight (m : Nat) : (Limbs.tight m).length = limbCount (bitlenOf m) := length_ofMag _ _

/-- A magnitude fits in n limbs exactly when its tight list does. -/
theorem length_tight_le_iff {m n : Nat} : (Limbs.tight m).length ≤ n ↔ m < Config.base ^ n := by
  rw [length_tight, limbCount_le_iff, bitlenOf_le_iff, base_pow]

/-- The magnitude and the length settle a limb list. -/
theorem eq_of_mag_eq {X Y : Limbs} (hl : X.length = Y.length) (hm : X.mag = Y.mag) : X = Y := by
  induction X generalizing Y with
  | nil => cases Y <;> simp_all
  | cons x xs ih =>
    cases Y with
    | nil => simp at hl
    | cons y ys =>
      have hx := word_lt_base x
      have hy := word_lt_base y
      simp only [mag_cons] at hm
      have h1 : x.toNat = y.toNat := by
        have := congrArg (· % Config.base) hm
        simpa [Nat.add_mul_mod_self_left, Nat.mod_eq_of_lt hx, Nat.mod_eq_of_lt hy] using this
      have h2 : Limbs.mag xs = Limbs.mag ys := by
        have : Config.base * Limbs.mag xs = Config.base * Limbs.mag ys := by omega
        exact Nat.eq_of_mul_eq_mul_left base_pos this
      rw [BitVec.eq_of_toNat_eq h1, ih (by simpa using hl) h2]

/-! Reading and resizing -/

theorem get_of_length_le {X : Limbs} {j : Nat} (h : X.length ≤ j) : X.get j = 0 := by
  simp [Limbs.get, List.getElem?_eq_none h]

@[simp] theorem length_resize (X : Limbs) (n : Nat) : (X.resize n).length = n := by simp [Limbs.resize]

theorem get_resize (X : Limbs) (n j : Nat) : (X.resize n).get j = if j < n then X.get j else 0 := by
  by_cases h : j < n
  · simp [Limbs.get, Limbs.resize, h]
  · rw [get_of_length_le (by simp; omega), if_neg h]

theorem get_set (X : Limbs) (i j : Nat) (v : Word) :
    Limbs.get (X.set i v) j = if i = j ∧ i < X.length then v else X.get j := by
  simp only [Limbs.get, List.getD_eq_getElem?_getD, List.getElem?_set]
  split
  · rename_i h
    subst h
    by_cases hi : i < X.length
    · simp [hi]
    · simp [hi]
  · simp_all

end Limbs

namespace Machine

namespace BigNum

theorem val_positive {b : BigNum} (h : b.sign = .positive) : b.val = b.mag := by simp [BigNum.val, h]

theorem val_negative {b : BigNum} (h : b.sign = .negative) : b.val = -(b.mag : Int) := by simp [BigNum.val, h]

theorem natAbs_val (b : BigNum) : b.val.natAbs = b.mag := by
  unfold BigNum.val; split <;> simp

theorem val_eq_zero_iff {b : BigNum} : b.val = 0 ↔ b.mag = 0 := by
  unfold BigNum.val; split <;> simp

theorem isNeg_iff {b : BigNum} : b.isNeg = true ↔ b.val < 0 := by
  unfold BigNum.isNeg BigNum.val
  cases h : b.sign <;> simp

theorem val_of_not_isNeg {b : BigNum} (h : ¬ b.isNeg = true) : b.val = b.mag := by
  rw [isNeg_iff] at h
  have := natAbs_val b
  omega

theorem alen_le_cap (b : BigNum) : b.alen ≤ b.cap := Limbs.alen_le_length _

@[simp] theorem mag_empty : BigNum.empty.mag = 0 := rfl

@[simp] theorem cap_empty : BigNum.empty.cap = 0 := rfl

end BigNum

theorem Sign.flip_flip (a : Sign) : a.flip.flip = a := by cases a <;> rfl

end Machine

end Sys2Proof
end

