-- ==== Sys2Proof/Laws/State.lean ====
section
/-! SUPPORT. What each update of a state leaves in each field, so that no proof unfolds a record update. -/

namespace Sys2Proof.Machine.State

variable (s : State)

@[simp] theorem setReg_arg0 (i : Reg) (b : BigNum) : (s.setReg i b).arg0 = s.arg0 := rfl
@[simp] theorem setReg_arg1 (i : Reg) (b : BigNum) : (s.setReg i b).arg1 = s.arg1 := rfl
@[simp] theorem setReg_res (i : Reg) (b : BigNum) : (s.setReg i b).res = s.res := rfl
@[simp] theorem setReg_flags (i : Reg) (b : BigNum) : (s.setReg i b).flags = s.flags := rfl
@[simp] theorem setReg_fault (i : Reg) (b : BigNum) : (s.setReg i b).fault = s.fault := rfl
@[simp] theorem setReg_fcode (i : Reg) (b : BigNum) : (s.setReg i b).fcode = s.fcode := rfl
@[simp] theorem setReg_finfo (i : Reg) (b : BigNum) : (s.setReg i b).finfo = s.finfo := rfl
@[simp] theorem setReg_maxcap (i : Reg) (b : BigNum) : (s.setReg i b).maxcap = s.maxcap := rfl
@[simp] theorem setReg_draws (i : Reg) (b : BigNum) : (s.setReg i b).draws = s.draws := rfl
@[simp] theorem setReg_running (i : Reg) (b : BigNum) : (s.setReg i b).running = s.running := rfl
@[simp] theorem setReg_pending (i : Reg) (b : BigNum) : (s.setReg i b).pending = s.pending := rfl
@[simp] theorem setReg_replies (i : Reg) (b : BigNum) : (s.setReg i b).replies = s.replies := rfl

@[simp] theorem setRes_arg0 (v : Word) : (s.setRes v).arg0 = s.arg0 := rfl
@[simp] theorem setRes_arg1 (v : Word) : (s.setRes v).arg1 = s.arg1 := rfl
@[simp] theorem setRes_res (v : Word) : (s.setRes v).res = v := rfl
@[simp] theorem setRes_flags (v : Word) : (s.setRes v).flags = s.flags := rfl
@[simp] theorem setRes_fault (v : Word) : (s.setRes v).fault = s.fault := rfl
@[simp] theorem setRes_fcode (v : Word) : (s.setRes v).fcode = s.fcode := rfl
@[simp] theorem setRes_finfo (v : Word) : (s.setRes v).finfo = s.finfo := rfl
@[simp] theorem setRes_maxcap (v : Word) : (s.setRes v).maxcap = s.maxcap := rfl
@[simp] theorem setRes_draws (v : Word) : (s.setRes v).draws = s.draws := rfl
@[simp] theorem setRes_running (v : Word) : (s.setRes v).running = s.running := rfl
@[simp] theorem setRes_pending (v : Word) : (s.setRes v).pending = s.pending := rfl
@[simp] theorem setRes_replies (v : Word) : (s.setRes v).replies = s.replies := rfl
@[simp] theorem setRes_reg (v : Word) (j : Reg) : (s.setRes v).reg j = s.reg j := rfl

@[simp] theorem setFlags_arg0 (f : Flags) : (s.setFlags f).arg0 = s.arg0 := rfl
@[simp] theorem setFlags_arg1 (f : Flags) : (s.setFlags f).arg1 = s.arg1 := rfl
@[simp] theorem setFlags_res (f : Flags) : (s.setFlags f).res = s.res := rfl
@[simp] theorem setFlags_flags (f : Flags) : (s.setFlags f).flags = f := rfl
@[simp] theorem setFlags_fault (f : Flags) : (s.setFlags f).fault = s.fault := rfl
@[simp] theorem setFlags_fcode (f : Flags) : (s.setFlags f).fcode = s.fcode := rfl
@[simp] theorem setFlags_finfo (f : Flags) : (s.setFlags f).finfo = s.finfo := rfl
@[simp] theorem setFlags_maxcap (f : Flags) : (s.setFlags f).maxcap = s.maxcap := rfl
@[simp] theorem setFlags_draws (f : Flags) : (s.setFlags f).draws = s.draws := rfl
@[simp] theorem setFlags_running (f : Flags) : (s.setFlags f).running = s.running := rfl
@[simp] theorem setFlags_pending (f : Flags) : (s.setFlags f).pending = s.pending := rfl
@[simp] theorem setFlags_replies (f : Flags) : (s.setFlags f).replies = s.replies := rfl
@[simp] theorem setFlags_reg (f : Flags) (j : Reg) : (s.setFlags f).reg j = s.reg j := rfl

@[simp] theorem setT_arg0 (b : Bool) : (s.setT b).arg0 = s.arg0 := rfl
@[simp] theorem setT_arg1 (b : Bool) : (s.setT b).arg1 = s.arg1 := rfl
@[simp] theorem setT_res (b : Bool) : (s.setT b).res = s.res := rfl
@[simp] theorem setT_flags (b : Bool) : (s.setT b).flags = s.flags.setT b := rfl
@[simp] theorem setT_fault (b : Bool) : (s.setT b).fault = s.fault := rfl
@[simp] theorem setT_fcode (b : Bool) : (s.setT b).fcode = s.fcode := rfl
@[simp] theorem setT_finfo (b : Bool) : (s.setT b).finfo = s.finfo := rfl
@[simp] theorem setT_maxcap (b : Bool) : (s.setT b).maxcap = s.maxcap := rfl
@[simp] theorem setT_draws (b : Bool) : (s.setT b).draws = s.draws := rfl
@[simp] theorem setT_running (b : Bool) : (s.setT b).running = s.running := rfl
@[simp] theorem setT_pending (b : Bool) : (s.setT b).pending = s.pending := rfl
@[simp] theorem setT_replies (b : Bool) : (s.setT b).replies = s.replies := rfl
@[simp] theorem setT_reg (b : Bool) (j : Reg) : (s.setT b).reg j = s.reg j := rfl

@[simp] theorem setArg0_arg0 (v : Word) : (s.setArg0 v).arg0 = v := rfl
@[simp] theorem setArg0_arg1 (v : Word) : (s.setArg0 v).arg1 = s.arg1 := rfl
@[simp] theorem setArg0_res (v : Word) : (s.setArg0 v).res = s.res := rfl
@[simp] theorem setArg0_flags (v : Word) : (s.setArg0 v).flags = s.flags := rfl
@[simp] theorem setArg0_fault (v : Word) : (s.setArg0 v).fault = s.fault := rfl
@[simp] theorem setArg0_fcode (v : Word) : (s.setArg0 v).fcode = s.fcode := rfl
@[simp] theorem setArg0_finfo (v : Word) : (s.setArg0 v).finfo = s.finfo := rfl
@[simp] theorem setArg0_maxcap (v : Word) : (s.setArg0 v).maxcap = s.maxcap := rfl
@[simp] theorem setArg0_draws (v : Word) : (s.setArg0 v).draws = s.draws := rfl
@[simp] theorem setArg0_running (v : Word) : (s.setArg0 v).running = s.running := rfl
@[simp] theorem setArg0_pending (v : Word) : (s.setArg0 v).pending = s.pending := rfl
@[simp] theorem setArg0_replies (v : Word) : (s.setArg0 v).replies = s.replies := rfl
@[simp] theorem setArg0_reg (v : Word) (j : Reg) : (s.setArg0 v).reg j = s.reg j := rfl

@[simp] theorem setArg1_arg0 (v : Word) : (s.setArg1 v).arg0 = s.arg0 := rfl
@[simp] theorem setArg1_arg1 (v : Word) : (s.setArg1 v).arg1 = v := rfl
@[simp] theorem setArg1_res (v : Word) : (s.setArg1 v).res = s.res := rfl
@[simp] theorem setArg1_flags (v : Word) : (s.setArg1 v).flags = s.flags := rfl
@[simp] theorem setArg1_fault (v : Word) : (s.setArg1 v).fault = s.fault := rfl
@[simp] theorem setArg1_fcode (v : Word) : (s.setArg1 v).fcode = s.fcode := rfl
@[simp] theorem setArg1_finfo (v : Word) : (s.setArg1 v).finfo = s.finfo := rfl
@[simp] theorem setArg1_maxcap (v : Word) : (s.setArg1 v).maxcap = s.maxcap := rfl
@[simp] theorem setArg1_draws (v : Word) : (s.setArg1 v).draws = s.draws := rfl
@[simp] theorem setArg1_running (v : Word) : (s.setArg1 v).running = s.running := rfl
@[simp] theorem setArg1_pending (v : Word) : (s.setArg1 v).pending = s.pending := rfl
@[simp] theorem setArg1_replies (v : Word) : (s.setArg1 v).replies = s.replies := rfl
@[simp] theorem setArg1_reg (v : Word) (j : Reg) : (s.setArg1 v).reg j = s.reg j := rfl

@[simp] theorem setDraws_arg0 (p : DrawPort) : (s.setDraws p).arg0 = s.arg0 := rfl
@[simp] theorem setDraws_arg1 (p : DrawPort) : (s.setDraws p).arg1 = s.arg1 := rfl
@[simp] theorem setDraws_res (p : DrawPort) : (s.setDraws p).res = s.res := rfl
@[simp] theorem setDraws_flags (p : DrawPort) : (s.setDraws p).flags = s.flags := rfl
@[simp] theorem setDraws_fault (p : DrawPort) : (s.setDraws p).fault = s.fault := rfl
@[simp] theorem setDraws_fcode (p : DrawPort) : (s.setDraws p).fcode = s.fcode := rfl
@[simp] theorem setDraws_finfo (p : DrawPort) : (s.setDraws p).finfo = s.finfo := rfl
@[simp] theorem setDraws_maxcap (p : DrawPort) : (s.setDraws p).maxcap = s.maxcap := rfl
@[simp] theorem setDraws_draws (p : DrawPort) : (s.setDraws p).draws = p := rfl
@[simp] theorem setDraws_running (p : DrawPort) : (s.setDraws p).running = s.running := rfl
@[simp] theorem setDraws_pending (p : DrawPort) : (s.setDraws p).pending = s.pending := rfl
@[simp] theorem setDraws_replies (p : DrawPort) : (s.setDraws p).replies = s.replies := rfl
@[simp] theorem setDraws_reg (p : DrawPort) (j : Reg) : (s.setDraws p).reg j = s.reg j := rfl

@[simp] theorem setRunning_arg0 (w : Option Word) : (s.setRunning w).arg0 = s.arg0 := rfl
@[simp] theorem setRunning_arg1 (w : Option Word) : (s.setRunning w).arg1 = s.arg1 := rfl
@[simp] theorem setRunning_res (w : Option Word) : (s.setRunning w).res = s.res := rfl
@[simp] theorem setRunning_flags (w : Option Word) : (s.setRunning w).flags = s.flags := rfl
@[simp] theorem setRunning_fault (w : Option Word) : (s.setRunning w).fault = s.fault := rfl
@[simp] theorem setRunning_fcode (w : Option Word) : (s.setRunning w).fcode = s.fcode := rfl
@[simp] theorem setRunning_finfo (w : Option Word) : (s.setRunning w).finfo = s.finfo := rfl
@[simp] theorem setRunning_maxcap (w : Option Word) : (s.setRunning w).maxcap = s.maxcap := rfl
@[simp] theorem setRunning_draws (w : Option Word) : (s.setRunning w).draws = s.draws := rfl
@[simp] theorem setRunning_running (w : Option Word) : (s.setRunning w).running = w := rfl
@[simp] theorem setRunning_pending (w : Option Word) : (s.setRunning w).pending = s.pending := rfl
@[simp] theorem setRunning_replies (w : Option Word) : (s.setRunning w).replies = s.replies := rfl
@[simp] theorem setRunning_reg (w : Option Word) (j : Reg) : (s.setRunning w).reg j = s.reg j := rfl

@[simp] theorem setPending_arg0 (es : List HostEvent) : (s.setPending es).arg0 = s.arg0 := rfl
@[simp] theorem setPending_arg1 (es : List HostEvent) : (s.setPending es).arg1 = s.arg1 := rfl
@[simp] theorem setPending_res (es : List HostEvent) : (s.setPending es).res = s.res := rfl
@[simp] theorem setPending_flags (es : List HostEvent) : (s.setPending es).flags = s.flags := rfl
@[simp] theorem setPending_fault (es : List HostEvent) : (s.setPending es).fault = s.fault := rfl
@[simp] theorem setPending_fcode (es : List HostEvent) : (s.setPending es).fcode = s.fcode := rfl
@[simp] theorem setPending_finfo (es : List HostEvent) : (s.setPending es).finfo = s.finfo := rfl
@[simp] theorem setPending_maxcap (es : List HostEvent) : (s.setPending es).maxcap = s.maxcap := rfl
@[simp] theorem setPending_draws (es : List HostEvent) : (s.setPending es).draws = s.draws := rfl
@[simp] theorem setPending_running (es : List HostEvent) : (s.setPending es).running = s.running := rfl
@[simp] theorem setPending_pending (es : List HostEvent) : (s.setPending es).pending = es := rfl
@[simp] theorem setPending_replies (es : List HostEvent) : (s.setPending es).replies = s.replies := rfl
@[simp] theorem setPending_reg (es : List HostEvent) (j : Reg) : (s.setPending es).reg j = s.reg j := rfl

@[simp] theorem reply_arg0 (v : Word) : (s.reply v).arg0 = s.arg0 := rfl
@[simp] theorem reply_arg1 (v : Word) : (s.reply v).arg1 = s.arg1 := rfl
@[simp] theorem reply_res (v : Word) : (s.reply v).res = s.res := rfl
@[simp] theorem reply_flags (v : Word) : (s.reply v).flags = s.flags := rfl
@[simp] theorem reply_fault (v : Word) : (s.reply v).fault = s.fault := rfl
@[simp] theorem reply_fcode (v : Word) : (s.reply v).fcode = s.fcode := rfl
@[simp] theorem reply_finfo (v : Word) : (s.reply v).finfo = s.finfo := rfl
@[simp] theorem reply_maxcap (v : Word) : (s.reply v).maxcap = s.maxcap := rfl
@[simp] theorem reply_draws (v : Word) : (s.reply v).draws = s.draws := rfl
@[simp] theorem reply_running (v : Word) : (s.reply v).running = s.running := rfl
@[simp] theorem reply_pending (v : Word) : (s.reply v).pending = s.pending := rfl
@[simp] theorem reply_replies (v : Word) : (s.reply v).replies = v :: s.replies := rfl
@[simp] theorem reply_reg (v : Word) (j : Reg) : (s.reply v).reg j = s.reg j := rfl

@[simp] theorem raiseFault_arg0 (c : Cause) (w : Word) : (s.raiseFault c w).arg0 = s.arg0 := rfl
@[simp] theorem raiseFault_arg1 (c : Cause) (w : Word) : (s.raiseFault c w).arg1 = s.arg1 := rfl
@[simp] theorem raiseFault_res (c : Cause) (w : Word) : (s.raiseFault c w).res = s.res := rfl
@[simp] theorem raiseFault_flags (c : Cause) (w : Word) : (s.raiseFault c w).flags = s.flags := rfl
@[simp] theorem raiseFault_fault (c : Cause) (w : Word) : (s.raiseFault c w).fault = true := rfl
@[simp] theorem raiseFault_fcode (c : Cause) (w : Word) : (s.raiseFault c w).fcode = c.code := rfl
@[simp] theorem raiseFault_finfo (c : Cause) (w : Word) : (s.raiseFault c w).finfo = w := rfl
@[simp] theorem raiseFault_maxcap (c : Cause) (w : Word) : (s.raiseFault c w).maxcap = s.maxcap := rfl
@[simp] theorem raiseFault_draws (c : Cause) (w : Word) : (s.raiseFault c w).draws = s.draws := rfl
@[simp] theorem raiseFault_running (c : Cause) (w : Word) : (s.raiseFault c w).running = s.running := rfl
@[simp] theorem raiseFault_pending (c : Cause) (w : Word) : (s.raiseFault c w).pending = s.pending := rfl
@[simp] theorem raiseFault_replies (c : Cause) (w : Word) : (s.raiseFault c w).replies = s.replies := rfl
@[simp] theorem raiseFault_reg (c : Cause) (w : Word) (j : Reg) : (s.raiseFault c w).reg j = s.reg j := rfl

theorem setReg_reg (i j : Reg) (b : BigNum) : (s.setReg i b).reg j = if j = i then b else s.reg j := by
  have h : (s.setReg i b).reg j = (s.regs.set i.val b i.isLt)[j.val] := rfl
  rw [h, Vector.getElem_set]
  by_cases hij : j = i
  · simp [hij]
  · have : i.val ≠ j.val := fun h => hij (Fin.ext h.symm)
    rw [if_neg this, if_neg hij]
    rfl

@[simp] theorem setReg_reg_self (i : Reg) (b : BigNum) : (s.setReg i b).reg i = b := by simp [setReg_reg]

@[simp] theorem setReg_reg_ne {i j : Reg} (h : j ≠ i) (b : BigNum) : (s.setReg i b).reg j = s.reg j := by
  simp [setReg_reg, h]

/-! The reset event -/

@[simp] theorem resetEvent_arg0 : s.resetEvent.arg0 = 0 := rfl
@[simp] theorem resetEvent_arg1 : s.resetEvent.arg1 = 0 := rfl
@[simp] theorem resetEvent_res : s.resetEvent.res = 0 := rfl
@[simp] theorem resetEvent_flags : s.resetEvent.flags = ⟨false, false, false⟩ := rfl
@[simp] theorem resetEvent_fault : s.resetEvent.fault = false := rfl
@[simp] theorem resetEvent_fcode : s.resetEvent.fcode = 0 := rfl
@[simp] theorem resetEvent_finfo : s.resetEvent.finfo = 0 := rfl
@[simp] theorem resetEvent_maxcap : s.resetEvent.maxcap = s.maxcap := rfl
@[simp] theorem resetEvent_draws : s.resetEvent.draws = s.draws := rfl
@[simp] theorem resetEvent_running : s.resetEvent.running = none := rfl
@[simp] theorem resetEvent_pending : s.resetEvent.pending = s.pending := rfl
@[simp] theorem resetEvent_replies : s.resetEvent.replies = s.replies := rfl

@[simp] theorem reset_reg (i : Reg) : State.reset.reg i = BigNum.empty := by
  have h : State.reset.reg i = (Vector.replicate 16 BigNum.empty)[i.val] := rfl
  simp [h]

@[simp] theorem resetEvent_reg (i : Reg) : s.resetEvent.reg i = BigNum.empty := reset_reg i

/-- Two states are equal when their registers and every other field are. -/
theorem ext_reg {s t : State} (hr : ∀ i, s.reg i = t.reg i) (h0 : s.arg0 = t.arg0) (h1 : s.arg1 = t.arg1)
    (hres : s.res = t.res) (hfl : s.flags = t.flags) (hf : s.fault = t.fault) (hc : s.fcode = t.fcode)
    (hi : s.finfo = t.finfo) (hm : s.maxcap = t.maxcap) (hd : s.draws = t.draws) (hrun : s.running = t.running)
    (hp : s.pending = t.pending) (hrep : s.replies = t.replies) : s = t := by
  have hregs : s.regs = t.regs := by
    ext k hk
    exact hr ⟨k, hk⟩
  cases s; cases t; simp_all

end Sys2Proof.Machine.State
end

