-- ==== Sys2Proof/Laws/Ops.lean ====
section
/-! SUPPORT. One lemma per shared operation: draws, the write and the length check of Commit, the end of a
command (00_scope.md R16 to R18, 60_exceptions.md R348). -/

namespace Sys2Proof.Machine

/-! Draws -/

theorem fitDraw_of_mem {lo hi a : Nat} (h1 : lo ≤ a) (h2 : a ≤ hi) : fitDraw lo hi a = a := by simp [fitDraw, h1, h2]

theorem le_fitDraw {lo hi a : Nat} : lo ≤ fitDraw lo hi a := by
  unfold fitDraw; split
  · exact (‹_ ∧ _›).1
  · exact Nat.le_add_right _ _

theorem fitDraw_le {lo hi a : Nat} (h : lo ≤ hi) : fitDraw lo hi a ≤ hi := by
  unfold fitDraw; split
  · exact (‹_ ∧ _›).2
  · have : a % (hi - lo + 1) < hi - lo + 1 := Nat.mod_lt _ (by omega)
    omega

@[simp] theorem DrawPort.draw_snd (p : DrawPort) (lo hi : Nat) : (p.draw lo hi).2 = p.advance := rfl

/-- A queued answer in the range is the value drawn. -/
theorem DrawPort.draw_cons {lo hi a : Nat} (q : List Nat) (k : Nat) (h1 : lo ≤ a) (h2 : a ≤ hi) :
    DrawPort.draw ⟨a :: q, k⟩ lo hi = (a, ⟨q, k + 1⟩) := by
  simp [DrawPort.draw, DrawPort.answer, DrawPort.advance, fitDraw_of_mem h1 h2]

@[simp] theorem DrawPort.drawSign_snd (p : DrawPort) : p.drawSign.2 = p.advance := rfl

@[simp] theorem DrawPort.length_drawLimbs (p : DrawPort) (n : Nat) : (p.drawLimbs n).1.length = n := by
  induction n generalizing p with
  | zero => rfl
  | succ n ih => simp [DrawPort.drawLimbs, ih]

/-! The write of Commit -/

theorem commitSign_of_ne {p : DrawPort} {sg : Sign} {L : Limbs} (h : L.mag ≠ 0) : commitSign p sg L = (sg, p) := by
  have : ¬ L.isZero = true := fun hz => h (Limbs.isZero_iff.1 hz)
  simp [commitSign, this]

theorem commitSign_of_eq {p : DrawPort} {sg : Sign} {L : Limbs} (h : L.mag = 0) : commitSign p sg L = p.drawSign := by
  simp [commitSign, Limbs.isZero_iff.2 h]

namespace State

variable (s : State) (d : Reg) (sg : Sign) (L : Limbs)

/-- The register a write leaves: the limbs, and the settled sign. -/
@[simp] theorem write_reg_self : (s.write d sg L).reg d = ⟨(commitSign s.draws sg L).1, L⟩ := by simp [State.write]

@[simp] theorem write_reg_ne {j : Reg} (h : j ≠ d) : (s.write d sg L).reg j = s.reg j := by simp [State.write, h]

@[simp] theorem write_draws : (s.write d sg L).draws = (commitSign s.draws sg L).2 := rfl
@[simp] theorem write_arg0 : (s.write d sg L).arg0 = s.arg0 := rfl
@[simp] theorem write_arg1 : (s.write d sg L).arg1 = s.arg1 := rfl
@[simp] theorem write_res : (s.write d sg L).res = s.res := rfl
@[simp] theorem write_flags : (s.write d sg L).flags = s.flags := rfl
@[simp] theorem write_fault : (s.write d sg L).fault = s.fault := rfl
@[simp] theorem write_fcode : (s.write d sg L).fcode = s.fcode := rfl
@[simp] theorem write_finfo : (s.write d sg L).finfo = s.finfo := rfl
@[simp] theorem write_maxcap : (s.write d sg L).maxcap = s.maxcap := rfl
@[simp] theorem write_running : (s.write d sg L).running = s.running := rfl
@[simp] theorem write_pending : (s.write d sg L).pending = s.pending := rfl
@[simp] theorem write_replies : (s.write d sg L).replies = s.replies := rfl

theorem write_mag : ((s.write d sg L).reg d).mag = L.mag := by simp [BigNum.mag]

theorem write_cap : ((s.write d sg L).reg d).cap = L.length := by simp [BigNum.cap]

/-- The value a write leaves is that of the sign it was given: the drawn tag of a zero does not show. -/
theorem write_val : ((s.write d sg L).reg d).val = (⟨sg, L⟩ : BigNum).val := by
  by_cases h : L.mag = 0
  · rw [BigNum.val_eq_zero_iff.2 (by rw [write_mag, h]), BigNum.val_eq_zero_iff.2 (by simpa [BigNum.mag] using h)]
  · simp [commitSign_of_ne h]

theorem write_draws_of_ne (h : L.mag ≠ 0) : (s.write d sg L).draws = s.draws := by simp [commitSign_of_ne h]

/-! Commit and the end of a command -/

variable {s d sg L} {w : Word}

theorem commit_of_le (h : L.length ≤ s.maxcap) : s.commit w d sg L = s.write d sg L := by
  simp [State.commit, not_lt.2 h]

theorem commit_of_lt (h : s.maxcap < L.length) : s.commit w d sg L = s.raiseFault .allocationFailure w := by
  simp [State.commit, h]

/-- Commit either writes or raises AllocationFailure. -/
theorem commit_cases : (L.length ≤ s.maxcap ∧ s.commit w d sg L = s.write d sg L) ∨
    (s.maxcap < L.length ∧ s.commit w d sg L = s.raiseFault .allocationFailure w) := by
  rcases Nat.lt_or_ge s.maxcap L.length with h | h
  · exact .inr ⟨h, commit_of_lt h⟩
  · exact .inl ⟨h, commit_of_le h⟩

/-- The two-destination commit either writes both or raises AllocationFailure. -/
theorem commit2_cases {d₁ d₂ : Reg} {r₁ r₂ : Sign × Limbs} :
    ((r₁.2.length ≤ s.maxcap ∧ r₂.2.length ≤ s.maxcap) ∧
      s.commit2 w d₁ r₁ d₂ r₂ = (s.write d₁ r₁.1 r₁.2).write d₂ r₂.1 r₂.2) ∨
    ((s.maxcap < r₁.2.length ∨ s.maxcap < r₂.2.length) ∧
      s.commit2 w d₁ r₁ d₂ r₂ = s.raiseFault .allocationFailure w) := by
  by_cases h : s.maxcap < r₁.2.length ∨ s.maxcap < r₂.2.length
  · exact .inr ⟨h, by simp [State.commit2, h]⟩
  · exact .inl ⟨by omega, by rw [State.commit2, if_neg h]⟩

@[simp] theorem conclude_ok (x : Sign × Limbs) : s.conclude w d (.ok x) = s.commit w d x.1 x.2 := rfl

@[simp] theorem conclude_error (c : Cause) : s.conclude w d (.error c) = s.raiseFault c w := rfl

/-- The end of a command writes its result or raises one cause. -/
theorem conclude_cases {r : Except Cause (Sign × Limbs)} :
    (∃ x, r = .ok x ∧ x.2.length ≤ s.maxcap ∧ s.conclude w d r = s.write d x.1 x.2) ∨
    (∃ c, s.conclude w d r = s.raiseFault c w ∧ (r = .error c ∨ c = .allocationFailure)) := by
  cases r with
  | error c => exact .inr ⟨c, rfl, .inl rfl⟩
  | ok x =>
    rcases commit_cases (s := s) (w := w) (d := d) (sg := x.1) (L := x.2) with ⟨h, e⟩ | ⟨h, e⟩
    · exact .inl ⟨x, rfl, h, by simp [e]⟩
    · exact .inr ⟨_, by simp [e], .inr rfl⟩

end State

end Sys2Proof.Machine
end

