-- ==== Sys2Proof/Laws/PerInstr.lean ====
section
/-! SUPPORT. Facts about every command as syntax, one lemma per constructor. -/

namespace Sys2Proof.Laws.EncodedFields

/-- The word of a command holds its opcode and its register fields, and zero in every field its format does not
use (30_encoding.md R91 to R93). -/
def Statement (i : Instr) : Prop := fieldsOf (encode i) = fieldsFor i

/-- The fields of a word are those it was made of. -/
theorem fieldsOf_wordOf (f : Fields) : fieldsOf (wordOf f) = f := by
  obtain ⟨op, rd, rs1, rs2, rs3, z⟩ := f
  have key : ∀ (k len : Nat) (i : Nat), i < len →
      ((wordOf ⟨op, rd, rs1, rs2, rs3, z⟩).extractLsb' k len).getLsbD i =
        (if k + i < 8 then z.getLsbD (k + i)
         else if k + i < 12 then (BitVec.ofFin (w := 4) rs3).getLsbD (k + i - 8)
         else if k + i < 16 then (BitVec.ofFin (w := 4) rs2).getLsbD (k + i - 12)
         else if k + i < 20 then (BitVec.ofFin (w := 4) rs1).getLsbD (k + i - 16)
         else if k + i < 24 then (BitVec.ofFin (w := 4) rd).getLsbD (k + i - 20)
         else op.getLsbD (k + i - 24)) := by
    intro k len i hi
    simp only [wordOf, BitVec.getLsbD_extractLsb', hi, decide_true, Bool.true_and, BitVec.getLsbD_append]
    grind
  have hr : ∀ (k : Nat) (r : Reg), (∀ i, i < 4 → ((wordOf ⟨op, rd, rs1, rs2, rs3, z⟩).extractLsb' k 4).getLsbD i = (BitVec.ofFin (w := 4) r).getLsbD i) →
      ((wordOf ⟨op, rd, rs1, rs2, rs3, z⟩).extractLsb' k 4).toFin = r := by
    intro k r h
    exact congrArg BitVec.toFin (BitVec.eq_of_getLsbD_eq h)
  simp only [fieldsOf, Fields.mk.injEq]
  refine ⟨BitVec.eq_of_getLsbD_eq fun i hi => ?_, hr _ _ fun i hi => ?_, hr _ _ fun i hi => ?_, hr _ _ fun i hi => ?_,
    hr _ _ fun i hi => ?_, BitVec.eq_of_getLsbD_eq fun i hi => ?_⟩ <;> rw [key _ _ i hi] <;> grind

theorem alloc (rd : Reg) : Statement (.alloc rd) := fieldsOf_wordOf _
theorem free (rd : Reg) : Statement (.free rd) := fieldsOf_wordOf _
theorem realloc (rd : Reg) : Statement (.realloc rd) := fieldsOf_wordOf _
theorem copy (rd rs1 : Reg) : Statement (.copy rd rs1) := fieldsOf_wordOf _
theorem copyc (rd rs1 : Reg) : Statement (.copyc rd rs1) := fieldsOf_wordOf _
theorem setu32 (rd : Reg) : Statement (.setu32 rd) := fieldsOf_wordOf _
theorem getlimb (rs1 : Reg) : Statement (.getlimb rs1) := fieldsOf_wordOf _
theorem setlimb (rd : Reg) : Statement (.setlimb rd) := fieldsOf_wordOf _
theorem getbyte (rs1 : Reg) : Statement (.getbyte rs1) := fieldsOf_wordOf _
theorem setbyte (rd : Reg) : Statement (.setbyte rd) := fieldsOf_wordOf _
theorem alen (rs1 : Reg) : Statement (.alen rs1) := fieldsOf_wordOf _
theorem bitlen (rs1 : Reg) : Statement (.bitlen rs1) := fieldsOf_wordOf _
theorem getsign (rs1 : Reg) : Statement (.getsign rs1) := fieldsOf_wordOf _
theorem setsign (rd : Reg) : Statement (.setsign rd) := fieldsOf_wordOf _
theorem neg (rd rs1 : Reg) : Statement (.neg rd rs1) := fieldsOf_wordOf _
theorem cmp (rs1 rs2 : Reg) : Statement (.cmp rs1 rs2) := fieldsOf_wordOf _
theorem shl (rd rs1 : Reg) : Statement (.shl rd rs1) := fieldsOf_wordOf _
theorem shr (rd rs1 : Reg) : Statement (.shr rd rs1) := fieldsOf_wordOf _
theorem add (rd rs1 rs2 : Reg) : Statement (.add rd rs1 rs2) := fieldsOf_wordOf _
theorem sub (rd rs1 rs2 : Reg) : Statement (.sub rd rs1 rs2) := fieldsOf_wordOf _
theorem mul (rd rs1 rs2 : Reg) : Statement (.mul rd rs1 rs2) := fieldsOf_wordOf _
theorem divrem (rd rs1 rs2 rs3 : Reg) : Statement (.divrem rd rs1 rs2 rs3) := fieldsOf_wordOf _
theorem div (rd rs1 rs2 : Reg) : Statement (.div rd rs1 rs2) := fieldsOf_wordOf _
theorem mod (rd rs1 rs2 : Reg) : Statement (.mod rd rs1 rs2) := fieldsOf_wordOf _
theorem gcd (rd rs1 rs2 : Reg) : Statement (.gcd rd rs1 rs2) := fieldsOf_wordOf _
theorem lcm (rd rs1 rs2 : Reg) : Statement (.lcm rd rs1 rs2) := fieldsOf_wordOf _
theorem modinv (rd rs1 rs2 : Reg) : Statement (.modinv rd rs1 rs2) := fieldsOf_wordOf _
theorem modexp (rd rs1 rs2 rs3 : Reg) : Statement (.modexp rd rs1 rs2 rs3) := fieldsOf_wordOf _
theorem isprime (rs1 : Reg) : Statement (.isprime rs1) := fieldsOf_wordOf _
theorem randl (rd : Reg) : Statement (.randl rd) := fieldsOf_wordOf _
theorem randmax (rd rs1 : Reg) : Statement (.randmax rd rs1) := fieldsOf_wordOf _
theorem randbits (rd : Reg) : Statement (.randbits rd) := fieldsOf_wordOf _
theorem genprime (rd : Reg) : Statement (.genprime rd) := fieldsOf_wordOf _

end Sys2Proof.Laws.EncodedFields
end

