-- ==== Sys2Proof/Laws/Primality.lean ====
section
/-! SUPPORT. One lemma per loop of the primality test (47_primality.md R264, R265). -/

namespace Sys2Proof.Machine

/-- The split of m > 0 into a power of two and an odd number; the count of halvings starts at s. -/
theorem splitTwos_spec {f m s : Nat} (h0 : m ≠ 0) (h : m < 2 ^ f) :
    2 ^ (splitTwos f m s).1 * (splitTwos f m s).2 = 2 ^ s * m ∧ (splitTwos f m s).2 % 2 = 1 := by
  induction f generalizing m s with
  | zero => simp at h; omega
  | succ f ih =>
    by_cases he : m % 2 = 0
    · have hf : splitTwos (f + 1) m s = splitTwos f (m / 2) (s + 1) := by simp [splitTwos, he]
      rw [hf]
      obtain ⟨h1, h2⟩ := ih (m := m / 2) (s := s + 1) (by omega) (by rw [pow_succ] at h; omega)
      refine ⟨h1.trans ?_, h2⟩
      rw [pow_succ, mul_assoc, Nat.mul_div_cancel' (Nat.dvd_of_mod_eq_zero he)]
    · have hf : splitTwos (f + 1) m s = (s, m) := by simp [splitTwos, he]
      rw [hf]
      exact ⟨rfl, by simp; omega⟩

/-- The squarings pass exactly when one of b^2, b^4, ... b^(2^k) is n - 1 modulo n. -/
theorem squareLoop_iff {n k b : Nat} :
    squareLoop n k b = true ↔ ∃ r, 1 ≤ r ∧ r ≤ k ∧ b ^ 2 ^ r % n = n - 1 := by
  induction k generalizing b with
  | zero => simp only [squareLoop, Bool.false_eq_true, false_iff]; rintro ⟨r, h1, h2, -⟩; omega
  | succ k ih =>
    have hsq : ∀ r, (b * b % n) ^ 2 ^ r % n = b ^ 2 ^ (r + 1) % n := by
      intro r; rw [← Nat.pow_mod, ← pow_two, ← pow_mul, pow_succ, mul_comm 2]
    by_cases hb : b * b % n = n - 1
    · simp only [squareLoop, hb, if_true, true_iff]
      exact ⟨1, le_rfl, by omega, by simpa [pow_two] using hb⟩
    · rw [squareLoop]
      simp only [hb, if_false]
      rw [ih]
      constructor
      · rintro ⟨r, h1, h2, h3⟩
        exact ⟨r + 1, by omega, by omega, by rw [← hsq]; exact h3⟩
      · rintro ⟨r, h1, h2, h3⟩
        rcases Nat.lt_or_ge 1 r with hr | hr
        · obtain ⟨r, rfl⟩ : ∃ r', r = r' + 1 := ⟨r - 1, by omega⟩
          exact ⟨r, by omega, by omega, by rw [hsq]; exact h3⟩
        · obtain rfl : r = 1 := by omega
          exact absurd (by simpa [pow_two] using h3) hb

/-- The rounds pass exactly when every drawn base passes. -/
theorem mrRounds_iff {n k : Nat} {p : DrawPort} :
    (mrRounds n k p).1 = true ↔ ∀ j < k, mrPasses n ((DrawPort.advance^[j] p).draw 1 (n - 1)).1 = true := by
  induction k generalizing p with
  | zero => simp [mrRounds]
  | succ k ih =>
    rw [Nat.forall_lt_succ_left]
    by_cases h : mrPasses n (p.draw 1 (n - 1)).1 = true
    · simp [mrRounds, h, ih]
    · simp [mrRounds, h]

/-- The rounds draw one base each, at most k, and stop after the first base that fails. -/
theorem mrRounds_draws (n k : Nat) (p : DrawPort) :
    ∃ j ≤ k, (mrRounds n k p).2 = DrawPort.advance^[j] p ∧ ((mrRounds n k p).1 = true → j = k) ∧
      ((mrRounds n k p).1 = false → 1 ≤ j ∧
        mrPasses n ((DrawPort.advance^[j - 1] p).draw 1 (n - 1)).1 = false ∧
        ∀ i < j - 1, mrPasses n ((DrawPort.advance^[i] p).draw 1 (n - 1)).1 = true) := by
  induction k generalizing p with
  | zero => exact ⟨0, by simp [mrRounds]⟩
  | succ k ih =>
    by_cases h : mrPasses n (p.draw 1 (n - 1)).1 = true
    · obtain ⟨j, h1, h2, h3, h4⟩ := ih p.advance
      have hr : mrRounds n (k + 1) p = mrRounds n k p.advance := by simp [mrRounds, h]
      rw [hr]
      refine ⟨j + 1, by omega, by simpa using h2, fun e => by rw [h3 e], fun e => ?_⟩
      obtain ⟨h5, h6, h7⟩ := h4 e
      obtain ⟨j, rfl⟩ : ∃ j', j = j' + 1 := ⟨j - 1, by omega⟩
      refine ⟨by omega, by simpa using h6, fun i hi => ?_⟩
      cases i with
      | zero => exact h
      | succ i => simpa using h7 i (by omega)
    · exact ⟨1, by simp [mrRounds, h]⟩

end Sys2Proof.Machine
end

