-- ==== Sys2Proof/Laws/Step.lean ====
section
/-! SUPPORT. What a step does in each situation (30_encoding.md R104, 20_memory.md R75 to R84). -/

namespace Sys2Proof.Machine

variable {s : State}

/-- No command in progress and no access to serve: the unit waits (log 8). -/
theorem step_idle (hr : s.running = none) (hp : s.pending = []) : step s = .next s := by
  simp [step, stepUnit, hr, hp]

/-- No command in progress: the next access is taken from the queue and served. -/
theorem step_serve {e : HostEvent} {es : List HostEvent} (hr : s.running = none) (hp : s.pending = e :: es) :
    step s = serveEvent e (s.setPending es) := by
  simp [step, stepUnit, hr, hp]

/-- A command in progress goes on, unless a reset or a second host comes first. -/
theorem step_resume {w : Word} (hr : s.running = some w) (h1 : s.pending.head? ≠ some .reset)
    (h2 : s.pending.head? ≠ some .otherHost) : step s = issueCommand w (s.setRunning none) := by
  unfold step stepUnit
  simp only [hr]
  unfold resumeCommand
  split <;> simp_all

theorem issueCommand_fault {w : Word} (h : s.fault = true) : issueCommand w s = .next s := by simp [issueCommand, h]

theorem issueCommand_illegal {w : Word} {e : Illegal} (h : s.fault = false) (hd : decode w = .error e) :
    issueCommand w s = .next (s.raiseFault .illegalCommand w) := by simp [issueCommand, h, hd]

theorem issueCommand_ok {w : Word} {i : Instr} (h : s.fault = false) (hd : decode w = .ok i) :
    issueCommand w s = exec i s := by simp [issueCommand, h, hd]

/-- An aligned word written to CMD is a command write. -/
theorem serveEvent_command (w : Word) : serveEvent (.write 0x00 4 w) s = issueCommand w s := rfl

/-- The word that is placed is the word the next step issues, with the rest of the queue as it was. -/
theorem step_withFetchWord (w : Word) : step (s.withFetchWord 32 w.toNat) = issueCommand w (s.setRunning none) := by
  have hw : BitVec.ofNat 32 (w.toNat % 2 ^ 32) = w := by
    rw [Nat.mod_eq_of_lt w.isLt]; simp
  have h : s.withFetchWord 32 w.toNat = (s.setRunning none).setPending (.write 0x00 4 w :: s.pending) := by
    simp only [State.withFetchWord, placeCommand, hw]
  rw [h, step_serve (e := .write 0x00 4 w) (es := s.pending) (by simp) (by simp)]
  rfl

end Sys2Proof.Machine
end

