-- ==== Sys2Proof/Tests/Slice0.lean ====
section
/-! SUPPORT. Tests: ill-formed commands are refused, words of the specification decode, one-step results of the
specification's vectors (95_test_vectors.md, parts 1 and 2), and a witness for each statement with hypotheses. Every
expected value is copied from a table of the specification or worked out from the rule named. -/

namespace Sys2Proof.Tests

open Sys2Proof.Machine Sys2Proof.Claims

/-! ## The states the tests start from -/

def pos (L : Limbs) : BigNum := ⟨.positive, L⟩
def neg (L : Limbs) : BigNum := ⟨.negative, L⟩

/-- The reset state with some registers, scalars and queued draws set. -/
def st (bs : List (Reg × BigNum)) (a0 a1 : Word) (q : List Nat) : State :=
  { bs.foldl (fun s b => s.setReg b.1 b.2) State.reset with arg0 := a0, arg1 := a1, draws := ⟨q, 0⟩ }

/-- The same in a unit with MAXCAP = 2. -/
def st2 (bs : List (Reg × BigNum)) (a0 a1 : Word) (q : List Nat) : State := { st bs a0 a1 q with maxcap := 2 }

/-- One view of the state an outcome goes on with. -/
def after {α : Type} (o : Host.Outcome State Fault Refusal) (f : State → α) : Option α :=
  match o with
  | .next t => some (f t)
  | .fault _ => none
  | .refused _ => none

theorem next_of_after {o : Host.Outcome State Fault Refusal} {t : State} (h : after o id = some t) : o = .next t := by
  cases o with
  | next u => exact congrArg _ (Option.some.inj h)
  | fault _ => cases h
  | refused _ => cases h

/-- One step that runs the command word w. -/
def ran (w : Word) (s : State) : Host.Outcome State Fault Refusal := step (s.withFetchWord 32 w.toNat)

/-- A register after the command word w. -/
def regAfter (w : Word) (s : State) (r : Reg) : Option BigNum := after (ran w s) (·.reg r)

/-- STATUS.FAULT, FCODE and FINFO after the command word w. -/
def faultAfter (w : Word) (s : State) : Option (Bool × BitVec 4 × Word) :=
  after (ran w s) fun t => (t.fault, t.fcode, t.finfo)

/-- EQ, LT, T after the command word w. -/
def flagsAfter (w : Word) (s : State) : Option (Bool × Bool × Bool) :=
  after (ran w s) fun t => (t.flags.eq, t.flags.lt, t.flags.t)

/-! ## WellFormed -/

theorem test_wellFormed_refuses_divrem_same_destinations : Instr.wellFormed (.divrem 5 1 2 5) = false := by decide
theorem test_wellFormed_admits_divrem_over_its_sources : Instr.wellFormed (.divrem 1 1 2 2) = true := by decide

/-! ## Decoding: the words of part 2, "Encoding" -/

theorem test_decode_storage :
    decode 0x01100000 = .ok (.alloc 1) ∧ decode 0x02200000 = .ok (.free 2) ∧ decode 0x03100000 = .ok (.realloc 1) ∧
    decode 0x04320000 = .ok (.copy 3 2) ∧ decode 0x05320000 = .ok (.copyc 3 2) ∧ decode 0x06200000 = .ok (.setu32 2) := by
  decide

theorem test_decode_access :
    decode 0x07010000 = .ok (.getlimb 1) ∧ decode 0x08100000 = .ok (.setlimb 1) ∧ decode 0x09010000 = .ok (.getbyte 1) ∧
    decode 0x0A100000 = .ok (.setbyte 1) ∧ decode 0x0B010000 = .ok (.alen 1) ∧ decode 0x0C010000 = .ok (.bitlen 1) ∧
    decode 0x0D080000 = .ok (.getsign 8) ∧ decode 0x0E500000 = .ok (.setsign 5) ∧ decode 0x0F210000 = .ok (.neg 2 1) := by
  decide

theorem test_decode_compare_shift :
    decode 0x10041000 = .ok (.cmp 4 1) ∧ decode 0x11210000 = .ok (.shl 2 1) ∧ decode 0x12320000 = .ok (.shr 3 2) := by decide

theorem test_decode_arithmetic :
    decode 0x20312000 = .ok (.add 3 1 2) ∧ decode 0x21432000 = .ok (.sub 4 3 2) ∧ decode 0x22976000 = .ok (.mul 9 7 6) ∧
    decode 0x30756800 = .ok (.divrem 7 5 6 8) ∧ decode 0x31312000 = .ok (.div 3 1 2) ∧ decode 0x32412000 = .ok (.mod 4 1 2) := by
  decide

theorem test_decode_number_theory :
    decode 0x40312000 = .ok (.gcd 3 1 2) ∧ decode 0x41756000 = .ok (.lcm 7 5 6) ∧ decode 0x42837000 = .ok (.modinv 8 3 7) ∧
    decode 0x43A93400 = .ok (.modexp 10 9 3 4) ∧ decode 0x43FFFF00 = .ok (.modexp 15 15 15 15) ∧
    decode 0x44010000 = .ok (.isprime 1) := by
  decide

theorem test_decode_random :
    decode 0x50100000 = .ok (.randl 1) ∧ decode 0x51210000 = .ok (.randmax 2 1) ∧ decode 0x52300000 = .ok (.randbits 3) ∧
    decode 0x53400000 = .ok (.genprime 4) := by
  decide

theorem test_decode_refuses_the_illegal_words :
    decode 0x00000000 = .error .undefinedOpcode ∧ decode 0xFFFFFFFF = .error .undefinedOpcode ∧ decode 0x13000000 = .error .undefinedOpcode ∧
    decode 0x20312001 = .error .nonzeroMustBeZero ∧ decode 0x20312100 = .error .nonzeroMustBeZero ∧
    decode 0x01110000 = .error .nonzeroMustBeZero ∧ decode 0x44100000 = .error .nonzeroMustBeZero ∧
    decode 0x10100000 = .error .nonzeroMustBeZero ∧ decode 0x30512500 = .error .sameDestinations ∧
    decode 0x30112100 = .error .sameDestinations := by
  decide

theorem test_decode_legal_neighbours :
    decode 0x30512600 = .ok (.divrem 5 1 2 6) ∧ decode 0x30112200 = .ok (.divrem 1 1 2 2) ∧
    decode 0x20111000 = .ok (.add 1 1 1) := by
  decide

/-! ## Storage, limb, byte and sign access (the table of part 2) -/

/-- `[0x44332211, 0x0000AB00]` of the table. -/
def ab : Limbs := [0x44332211, 0x0000AB00]

theorem test_alloc : after (ran 0x01100000 (st [] 2 0 [])) (fun t => (t.reg 1, t.flags.t)) = some (pos [0, 0], true) := by decide
theorem test_alloc_past_maxcap : faultAfter 0x01300000 (st [] 257 0 []) = some (true, 1, 0x01300000) := by decide
theorem test_free : regAfter 0x02200000 (st [(2, neg [5])] 0 0 []) 2 = some (pos []) := by decide
theorem test_realloc_drops_the_high_limb : regAfter 0x03100000 (st [(1, pos ab)] 1 0 []) 1 = some (pos [0x44332211]) := by decide
theorem test_realloc_past_maxcap : faultAfter 0x03100000 (st [] 257 0 []) = some (true, 1, 0x03100000) := by decide
theorem test_copy_keeps_the_tag_of_zero : regAfter 0x04320000 (st [(2, neg [0, 0])] 0 0 []) 3 = some (neg [0, 0]) := by decide
theorem test_copyc_extends : regAfter 0x05320000 (st [(2, pos [0x44332211])] 3 0 []) 3 = some (pos [0x44332211, 0, 0]) := by decide
theorem test_copyc_to_nothing : regAfter 0x05320000 (st [(2, neg [5])] 0 0 []) 3 = some (neg []) := by decide
theorem test_setu32_zero : regAfter 0x06200000 (st [(2, neg [1, 2])] 0 0 []) 2 = some (pos [0]) := by decide
theorem test_getlimb : after (ran 0x07010000 (st [(1, pos ab)] 1 0 [])) (·.res) = some 0x0000AB00 := by decide
theorem test_getlimb_out_of_range : after (ran 0x07010000 { st [(1, pos ab)] 2 0 [] with res := 7 }) (·.res) = some 0 := by decide
theorem test_setlimb : regAfter 0x08100000 (st [(1, pos [0, 0])] 0 0x44332211 []) 1 = some (pos [0x44332211, 0]) := by decide
theorem test_setlimb_unallocated :
    after (ran 0x08300000 (st [] 0 9 [])) (fun t => (t.reg 3, t.flags.t, t.fault)) = some (pos [], false, false) := by decide
theorem test_getbyte : after (ran 0x09010000 (st [(1, pos [0x44332211, 0])] 3 0 [])) (·.res) = some 0x44 := by decide
theorem test_setbyte_uses_the_low_byte :
    regAfter 0x0A100000 (st [(1, pos [0x44332211, 0])] 5 0xFFFFF1AB []) 1 = some (pos ab) := by decide
theorem test_setbyte_out_of_range :
    after (ran 0x0A100000 (st [(1, pos ab)] 8 1 [])) (fun t => (t.reg 1, t.flags.t)) = some (pos ab, false) := by decide
theorem test_alen : after (ran 0x0B010000 (st [(1, pos ab)] 0 0 [])) (·.res) = some 2 := by decide
theorem test_bitlen : after (ran 0x0C010000 (st [(1, pos ab)] 0 0 [])) (·.res) = some 48 := by decide
theorem test_bitlen_of_two_limbs : after (ran 0x0C010000 (st [(1, pos [0, 1])] 0 0 [])) (·.res) = some 33 := by decide
theorem test_getsign_of_negative_zero : after (ran 0x0D080000 (st [(8, neg [])] 0 0 [])) (·.res) = some 1 := by decide
theorem test_setsign_clears : regAfter 0x0E500000 (st [(5, neg [3])] 0 0 []) 5 = some (pos [3]) := by decide
theorem test_setsign_takes_bit_0 : regAfter 0x0E500000 (st [(5, neg [3])] 2 0 []) 5 = some (pos [3]) := by decide
theorem test_neg_of_zero : regAfter 0x0F210000 (st [] 0 0 []) 2 = some (neg []) := by decide

/-! ## Comparison and shifts -/

theorem test_cmp_negatives : flagsAfter 0x10041000 (st [(4, neg [7]), (1, neg [3])] 0 0 []) = some (false, true, false) := by decide
theorem test_cmp_zero_tags : flagsAfter 0x10041000 (st [(4, neg [0])] 0 0 []) = some (true, false, false) := by decide
theorem test_shl : regAfter 0x11210000 (st [(1, pos [0x12345678, 0x9ABCDEF0])] 36 0 []) 2 =
    some (pos [0x00000000, 0x23456780, 0xABCDEF01, 0x00000009]) := by decide
theorem test_shl_zero_never_faults :
    after (ran 0x11210000 (st [(1, neg [0, 0])] 0xFFFFFFFF 0 [1])) (fun t => (t.reg 2, t.fault)) = some (neg [], false) := by decide
theorem test_shr_rounds_toward_zero : regAfter 0x12320000 (st [(2, neg [5])] 1 0 []) 3 = some (neg [2]) := by decide
theorem test_shr : regAfter 0x12320000 (st [(2, pos [0x12345678, 0x9ABCDEF0])] 36 0 []) 3 = some (pos [0x09ABCDEF]) := by decide

/-- The two-pass mechanism on the same vectors. -/
theorem test_limb_shifts : ushl [0x12345678, 0x9ABCDEF0] 36 = [0x00000000, 0x23456780, 0xABCDEF01, 0x00000009] ∧
    ushr [0x12345678, 0x9ABCDEF0] 36 = [0x09ABCDEF] := by decide

/-! ## Arithmetic -/

theorem test_add_carries : regAfter 0x20312000 (st [(1, pos [0xFFFFFFFF, 0xFFFFFFFF]), (2, pos [1])] 0 0 []) 3 =
    some (pos [0, 0, 1]) := by decide
theorem test_add_borrows : regAfter 0x20312000 (st [(1, neg [0, 1]), (2, pos [1])] 0 0 []) 3 = some (neg [0xFFFFFFFF, 0]) := by decide
theorem test_sub_borrows : regAfter 0x21432000 (st [(3, pos [0, 0, 1]), (2, pos [1])] 0 0 []) 4 =
    some (pos [0xFFFFFFFF, 0xFFFFFFFF, 0]) := by decide
theorem test_sub_to_zero_draws_the_tag : regAfter 0x21432000 (st [(3, pos [9]), (2, pos [9])] 0 0 [1]) 4 = some (neg [0]) := by decide
theorem test_mul_carries : regAfter 0x22976000 (st [(7, pos [0xFFFFFFFF, 0xFFFFFFFF]), (6, pos [0xFFFFFFFF, 0xFFFFFFFF])] 0 0 []) 9 =
    some (pos [0x00000001, 0x00000000, 0xFFFFFFFE, 0xFFFFFFFF]) := by decide
theorem test_mul_sign : regAfter 0x22976000 (st [(7, neg [0xFFFFFFFF, 0xFFFFFFFF]), (6, pos [2])] 0 0 []) 9 =
    some (neg [0xFFFFFFFE, 0xFFFFFFFF, 0x00000001]) := by decide
theorem test_divrem : after (ran 0x30756800 (st [(5, neg [7, 0, 1]), (6, pos [3, 1])] 0 0 [])) (fun t => (t.reg 7, t.reg 8)) =
    some (neg [0xFFFFFFFD], neg [0x00000010]) := by decide
theorem test_divrem_by_zero : faultAfter 0x30756800 (st [(5, pos [5])] 0 0 []) = some (true, 2, 0x30756800) := by decide
theorem test_div_sign : regAfter 0x31312000 (st [(1, pos [7]), (2, neg [2])] 0 0 []) 3 = some (neg [3]) := by decide
theorem test_div_of_zero_by_negative_zero : faultAfter 0x31312000 (st [(2, neg [0, 0])] 0 0 []) = some (true, 2, 0x31312000) := by
  decide
theorem test_mod_sign : regAfter 0x32412000 (st [(1, neg [7]), (2, pos [3])] 0 0 []) 4 = some (neg [1]) := by decide

/-- Knuth D with the add-back taken at j = 0 (part 2, "Division"). -/
theorem test_divider_add_back : uDivMod [0, 0, 0x80000000, 0x7FFFFFFF] [1, 0, 0x80000000] =
    (0xFFFFFFFE, 0x7FFFFFFFFFFFFFFF00000002) := by decide

/-! ## Number theory -/

theorem test_gcd : regAfter 0x40312000 (st [(1, pos [0, 0x00000300]), (2, pos [0, 0x00000048])] 0 0 []) 3 =
    some (pos [0, 0x00000018]) := by decide
theorem test_gcd_zero_keeps_the_sign : regAfter 0x40312000 (st [(1, neg [5])] 0 0 []) 3 = some (neg [5]) := by decide
theorem test_lcm : regAfter 0x41756000 (st [(5, pos [60]), (6, pos [52])] 0 0 []) 7 = some (pos [0x0000030C]) := by decide
theorem test_lcm_of_zeros : faultAfter 0x41756000 (st [] 0 0 [0]) = some (true, 2, 0x41756000) := by decide
theorem test_modinv : regAfter 0x42837000 (st [(3, pos [17]), (7, pos [780])] 0 0 []) 8 = some (pos [0x0000019D]) := by decide
theorem test_modinv_of_modulus_one : regAfter 0x42837000 (st [(3, pos [5]), (7, pos [1])] 0 0 [1]) 8 = some (pos [1]) := by decide
theorem test_modexp : regAfter 0x43A93400 (st [(9, pos [65]), (3, pos [17]), (4, pos [3233])] 0 0 []) 10 =
    some (pos [0x00000AE6]) := by decide
theorem test_modexp_checks_the_domain_first : faultAfter 0x43412300 (st [(1, neg [2])] 0 0 []) = some (true, 3, 0x43412300) := by
  decide
set_option maxRecDepth 8000 in
theorem test_isprime_composite_by_miller_rabin :
    after (ran 0x44010000 (st [(1, pos [4028033])] 3 0 [1, 2, 1])) (fun t => (t.flags.t, t.draws.count)) = some (false, 2) := by decide
set_option maxRecDepth 8000 in
theorem test_isprime_fooled_by_liars :
    after (ran 0x44010000 (st [(1, pos [4028033])] 3 0 [1, 4028032, 1])) (fun t => (t.flags.t, t.draws.count)) = some (true, 3) := by
  decide

/-! ## Random and prime generation -/

theorem test_randl : regAfter 0x50100000 (st [] 2 0 [0x11111111, 0x00000002]) 1 = some (pos [0x11111111, 0x00000002]) := by decide
theorem test_randl_zero_limbs : regAfter 0x50100000 (st [] 2 0 [0, 0, 1]) 1 = some (neg [0, 0]) := by decide
theorem test_randmax_reduces : regAfter 0x51210000 (st [(1, pos [0, 1, 0])] 0 0 [5, 3]) 2 = some (pos [5, 0]) := by decide
theorem test_randmax_at_max : regAfter 0x51210000 (st [(1, pos [100])] 0 0 [100]) 2 = some (pos [100]) := by decide
theorem test_randbits : regAfter 0x52300000 (st [] 12 0 [0x2A5]) 3 = some (pos [0x00000AA5]) := by decide
theorem test_randbits_top_limb : regAfter 0x52300000 (st [] 33 0 [0]) 3 = some (pos [0, 1]) := by decide
theorem test_genprime_scans : regAfter 0x53400000 (st [] 8 2 [0x48]) 4 = some (pos [211]) := by decide
theorem test_genprime_drifts : after (ran 0x53400000 (st [] 8 2 [0x7D, 0x45])) (fun t => (t.reg 4, t.running, t.draws.queue)) =
    some (pos [], some 0x53400000, [0x45]) := by decide

/-! ## The host's accesses, the fault state and reset (part 2, last tables) -/

/-- B1 = 5 after a DivisionByZero of `DIV B3, B1, B2`. -/
def faultedUnit : State := { st [(1, pos [5])] 9 0 [] with fault := true, fcode := 2, finfo := 0x31312000 }

theorem test_fault_state_ignores_a_command :
    after (ran 0x06100000 faultedUnit) (fun t => (t.reg 1, t.fcode, t.finfo)) = some (pos [5], 2, 0x31312000) := by decide
theorem test_fault_state_ignores_an_illegal_word :
    after (ran 0xFFFFFFFF faultedUnit) (fun t => (t.fcode, t.finfo)) = some (2, 0x31312000) := by decide
theorem test_fault_state_takes_scalars :
    after (step { faultedUnit with pending := [wrArg0 7] }) (fun t => (t.arg0, t.fault)) = some (7, true) := by decide
theorem test_reset_leaves_the_fault_state :
    after (step { faultedUnit with pending := [.reset] }) (fun t => (t.reg 1, t.arg0, t.fault, t.fcode, t.finfo)) =
      some (pos [], 0, false, 0, 0) := by decide
theorem test_undefined_opcode_faults : faultAfter 0x13000000 State.reset = some (true, 4, 0x13000000) := by decide

theorem test_block_after_reset :
    [0x00, 0x04, 0x08, 0x0C, 0x10, 0x14, 0x18, 0x1C, 0x20, 0x24, 0x28, 0x2C].map (fun o => State.reset.blockRead o 4) =
      [0, 0, 0, 0, 0, 0, 0, 0, 0x504D5A01, 16, 256, 0] := by decide
theorem test_block_write_then_read : (State.reset.blockWrite 0x14 4 0x12345678).blockRead 0x14 4 = 0x12345678 := by decide
theorem test_block_ignores : State.reset.blockWrite 0x20 4 1 = State.reset ∧ State.reset.blockWrite 0x1C 4 1 = State.reset ∧
    State.reset.blockWrite 0x30 4 1 = State.reset ∧ State.reset.blockRead 0x15 4 = 0 := by decide

/-- The pseudo-instructions stand for the words of R102. -/
theorem test_pseudo_instructions :
    pseudoMov 3 2 = [.write 0 4 0x04320000] ∧ pseudoClr 2 = [.write 0 4 0x02200000] ∧ pseudoSqr 3 1 = [.write 0 4 0x22311000] ∧
    pseudoAbs 5 = [.write 0x14 4 0, .write 0 4 0x0E500000] ∧ pseudoTou32 1 = [.write 0x14 4 0, .write 0 4 0x07010000] ∧
    pseudoLdi 2 7 = [.write 0x14 4 7, .write 0 4 0x06200000] := by decide

/-- The first word placed after reset is fetched and run. -/
theorem test_placed_word_runs_after_reset : regAfter 0x0F210000 State.reset 2 = some (neg []) := by decide

/-! ## Witnesses: a state and operands that meet the hypotheses of a statement, clause by clause -/

/-- The unit with one access pending. -/
def asked (e : HostEvent) (s : State) : State := { s with pending := [e] }

/-- The unit with a GENPRIME of B4 in progress. -/
def searching : State := { st [] 8 2 [0x45] with running := some (encode (.genprime 4)) }

theorem witness_DecodeOfEncodeIsTheCommand :
    Instr.wellFormed (.divrem 15 0 0 14) = true ∧ Instr.wellFormed (.modexp 15 15 15 15) = true ∧
    Instr.wellFormed (.alloc 0) = true := by decide

theorem witness_EncodeOfDecodeIsTheWord : decode 0x53F00000 = .ok (.genprime 15) := by decide

theorem witness_CommandWriteStep :
    ((asked (.write 0x00 4 0x06100000) faultedUnit).running = none ∧
      (asked (.write 0x00 4 0x06100000) faultedUnit).pending = .write 0x00 4 0x06100000 :: [] ∧
      (asked (.write 0x00 4 0x06100000) faultedUnit).fault = true) ∧
    ((asked (.write 0x00 4 0x13000000) State.reset).running = none ∧
      (asked (.write 0x00 4 0x13000000) State.reset).fault = false ∧ decode 0x13000000 = .error .undefinedOpcode) ∧
    ((asked (.write 0x00 4 0x01100000) State.reset).fault = false ∧ decode 0x01100000 = .ok (.alloc 1)) := by decide

/-- Both forms of an illegal word, and the opcodes at the ends of every undefined range. -/
theorem witness_IllegalWordsRaiseIllegalCommand :
    (asked (.write 0x00 4 0x20312001) State.reset).Ready ∧
    (∀ r ∈ opcodeTable, (0x20312001 : Word) &&& r.format.mask ≠ BitVec.ofNat 32 (r.op.toNat * 2 ^ 24)) ∧
    ((0x30512500 : Word).extractLsb' 24 8 = 0x30 ∧ (0x30512500 : Word).extractLsb' 20 4 = (0x30512500 : Word).extractLsb' 8 4) ∧
    [0x00000000, 0x13000000, 0x1F000000, 0x23000000, 0x2F000000, 0x33000000, 0x3F000000, 0x45000000, 0x4F000000, 0x54000000,
      0xFFFFFFFF].map (fun w : Word => decode w) = List.replicate 11 (.error .undefinedOpcode) := by
  unfold State.Ready; decide

theorem witness_FaultStateIsSticky :
    (asked (.write 0x00 4 0x06100000) faultedUnit).fault = true ∧
    (asked (.write 0x00 4 0x06100000) faultedUnit).pending.head? ≠ some .reset ∧
    step (asked (.write 0x00 4 0x06100000) faultedUnit) = .next faultedUnit :=
  ⟨by decide, by decide, next_of_after (by decide)⟩

/-- Between commands, in the fault state, and while a command runs. -/
theorem witness_ResetEventClearsTheUnit :
    (asked .reset State.reset).pending = .reset :: [] ∧ (asked .reset faultedUnit).pending = .reset :: [] ∧
    (asked .reset searching).pending = .reset :: [] ∧ (asked .reset searching).running ≠ none := by decide

/-- Reads and writes at the first and the last byte of the block, and a command write of the wrong width. -/
theorem witness_RegisterBlockAccess :
    ((asked (.read 0x00 4) State.reset).running = none ∧ (asked (.read 0x00 4) State.reset).pending = .read 0x00 4 :: []) ∧
    (asked (.read 0xFF 1) State.reset).pending = .read 0xFF 1 :: [] ∧
    ((asked (.write 0x14 4 5) State.reset).running = none ∧ (asked (.write 0x14 4 5) State.reset).pending = .write 0x14 4 5 :: [] ∧
      ¬ ((4 : Nat) = 4 ∧ (0x14 : BitVec 8) = 0x00)) ∧
    ¬ ((4 : Nat) = 4 ∧ (0x18 : BitVec 8) = 0x00) ∧ ¬ ((2 : Nat) = 4 ∧ (0x00 : BitVec 8) = 0x00) ∧
    ¬ ((4 : Nat) = 4 ∧ (0xFF : BitVec 8) = 0x00) := by decide

theorem witness_SecondHostIsRefused : (asked .otherHost State.reset).pending = .otherHost :: [] := by decide

theorem witness_AccessesWaitForTheRunningCommand :
    (asked (rdWord 0x1C) searching).fault = false ∧ (asked (rdWord 0x1C) searching).running = some (encode (.genprime 4)) ∧
    (asked (rdWord 0x1C) searching).pending.head? ≠ some .reset ∧ (asked (rdWord 0x1C) searching).pending.head? ≠ some .otherHost ∧
    after (step (asked (rdWord 0x1C) searching)) (fun t => (t.reg 4, t.pending)) = some (pos [197], [rdWord 0x1C]) := by decide

/-- The invariant holds at reset, in the fault state and in the middle of a search, and each of them has a next state. -/
theorem witness_StepKeepsTheInvariant :
    State.reset.Inv ∧ step State.reset = .next State.reset ∧ faultedUnit.Inv ∧ step faultedUnit = .next faultedUnit ∧
    searching.Inv ∧ (after (step searching) (·.reg 4)) = some (pos [197]) := by
  refine ⟨⟨by unfold State.CapsBounded; decide, by unfold State.FaultConsistent; decide,
      by unfold State.OrderFlagsDisjoint; decide, fun w h => ?_⟩, next_of_after (by decide),
    ⟨by unfold State.CapsBounded; decide, by unfold State.FaultConsistent; decide,
      by unfold State.OrderFlagsDisjoint; decide, fun w h => ?_⟩, next_of_after (by decide),
    ⟨by unfold State.CapsBounded; decide, by unfold State.FaultConsistent; decide,
      by unfold State.OrderFlagsDisjoint; decide, fun w h => ?_⟩, by decide⟩
  · exact absurd (show (none : Option Word) = some w from h) (by simp)
  · exact absurd (show (none : Option Word) = some w from h) (by simp)
  · exact ⟨by decide, 4, (Option.some.inj (show some (encode (.genprime 4)) = some w from h)).symm⟩

theorem witness_CommandsKeepTheirFrame :
    exec (.neg 2 1) State.reset = .next (State.reset.setReg 2 (neg [])) ∧
    exec (.getsign 2) State.reset = .next { State.reset with res := 0 } ∧ writesRes (.neg 2 1) = false ∧
    writesOrder (.neg 2 1) = false ∧ writesT (.neg 2 1) = false ∧ Instr.neg 2 1 ≠ .genprime 2 :=
  ⟨next_of_after (by decide), next_of_after (by decide), by decide⟩

/-- A command that writes EQ and LT, and one that writes T. -/
theorem witness_NoFlagIsAnInput :
    (exec (.cmp 1 2) State.reset = .next { State.reset with flags := ⟨true, false, false⟩ } ∧ writesOrder (.cmp 1 2) = true) ∧
    (exec (.alloc 1) State.reset = .next { State.reset with flags := ⟨false, false, true⟩ } ∧ writesT (.alloc 1) = true ∧
      State.reset.fault = false) :=
  ⟨⟨next_of_after (by decide), by decide⟩, next_of_after (by decide), by decide⟩

theorem witness_FaultingCommandChangesNothingElse :
    State.reset.CapsBounded ∧ State.reset.fault = false ∧
    exec (.div 3 1 2) State.reset = .next (faulted State.reset 2 0x31312000) ∧
    (faulted State.reset 2 0x31312000).fault = true :=
  ⟨by unfold State.CapsBounded; decide, by decide, next_of_after (by decide), by decide⟩

theorem witness_CommandsRaiseOnlyTheirFaults :
    Instr.wellFormed (.randbits 3) = true ∧ State.reset.CapsBounded ∧ State.reset.fault = false ∧
    exec (.randbits 3) State.reset = .next (faulted State.reset 3 0x52300000) ∧
    (faulted State.reset 3 0x52300000).fault = true :=
  ⟨by decide, by unfold State.CapsBounded; decide, by decide, next_of_after (by decide), by decide⟩

theorem witness_CommandsAnswerNext : ∀ rd, Instr.alloc 0 ≠ .genprime rd := by decide

theorem witness_DrawsCoverTheirRange : (7 : Nat) ≤ 7 ∧ (0 : Nat) ≤ 2 ^ 32 - 1 := by decide

/-- An allocated register; one limb too many; exactly MAXCAP. -/
theorem witness_AllocReservesZeroLimbs :
    ((st2 [(1, pos [0])] 1 0 []).reg 1).cap ≠ 0 ∧
    (((st2 [] 3 0 []).reg 1).cap = 0 ∧ (st2 [] 3 0 []).maxcap < (st2 [] 3 0 []).arg0.toNat) ∧
    (((st2 [] 2 0 []).reg 1).cap = 0 ∧ (st2 [] 2 0 []).arg0.toNat ≤ (st2 [] 2 0 []).maxcap) := by decide

theorem witness_ReallocAndCopycResize :
    (st2 [] 3 0 []).maxcap < (st2 [] 3 0 []).arg0.toNat ∧ (st2 [] 2 0 []).arg0.toNat ≤ (st2 [] 2 0 []).maxcap := by decide

/-- The limb at the capacity, and the one below. -/
theorem witness_SetlimbWritesOneLimb :
    ((st [(1, pos [5, 6])] 2 0 []).reg 1).cap ≤ (st [(1, pos [5, 6])] 2 0 []).arg0.toNat ∧
    (st [(1, pos [5, 6])] 1 0 []).arg0.toNat < ((st [(1, pos [5, 6])] 1 0 []).reg 1).cap := by decide

/-- The byte past the last limb, and the last byte. -/
theorem witness_SetbyteWritesOneByte :
    ((st [(1, pos [5, 6])] 8 0 []).reg 1).cap ≤ (st [(1, pos [5, 6])] 8 0 []).arg0.toNat / 4 ∧
    (st [(1, pos [5, 6])] 7 0 []).arg0.toNat / 4 < ((st [(1, pos [5, 6])] 7 0 []).reg 1).cap := by decide

theorem witness_MixedWidthAccessSeesOneStorage :
    ((3 : Nat) < 4 ∧ (st [(1, pos [5, 6])] 1 9 []).arg0.toNat < ((st [(1, pos [5, 6])] 1 9 []).reg 1).cap ∧
      4 * (st [(1, pos [5, 6])] 1 9 []).arg0.toNat + 3 < 2 ^ 32 ∧
      after (exec (.setlimb 1) (st [(1, pos [5, 6])] 1 9 [])) (·.reg 1) = some (pos [5, 9])) ∧
    ((st [(1, pos [5, 6])] 7 9 []).arg0.toNat / 4 < ((st [(1, pos [5, 6])] 7 9 []).reg 1).cap ∧
      after (exec (.setbyte 1) (st [(1, pos [5, 6])] 7 9 [])) (·.reg 1) = some (pos [5, 0x09000006])) := by decide

/-- A register at MAXCAP. -/
theorem witness_AlenAndBitlenMeasure : (st2 [(1, pos [0, 0x80000000])] 0 0 []).CapsBounded := by
  unfold State.CapsBounded; decide

/-- 2^63 fits two limbs, 2^64 does not; a zero with the largest shift; the bound 256 exactly and one limb more. -/
theorem witness_ShlIsExact :
    ((Nat.size ((st2 [(1, pos [1])] 63 0 []).reg 1).mag + 63 + 31) / 32 ≤ (st2 [(1, pos [1])] 63 0 []).maxcap) ∧
    ((st2 [(1, pos [1])] 64 0 []).maxcap < (Nat.size ((st2 [(1, pos [1])] 64 0 []).reg 1).mag + 64 + 31) / 32) ∧
    ((st2 [(1, neg [0])] 0xFFFFFFFF 0 []).reg 1).mag = 0 := by
  have : Nat.size 1 = 1 := Nat.size_one
  refine ⟨?_, ?_, by decide⟩
  · rw [show ((st2 [(1, pos [1])] 63 0 []).reg 1).mag = 1 by decide, this]; decide
  · rw [show ((st2 [(1, pos [1])] 64 0 []).reg 1).mag = 1 by decide, this]; decide

theorem witness_ShrRoundsTowardZero : (st2 [(2, neg [5, 1])] 1 0 []).CapsBounded := by unfold State.CapsBounded; decide

theorem witness_CarryAndBorrowChainsAreExact : Limbs.mag [5, 1] ≤ Limbs.mag [5, 1, 0] := by decide

/-- Sums of one and two limbs fit MAXCAP = 2, a sum of two-limb operands of one sign does not; of two signs it does. -/
theorem witness_AddIsExact :
    (max (BigNum.alen (pos [1])) (BigNum.alen (pos [2])) + 1 ≤ (st2 [(1, pos [1]), (2, pos [2])] 0 0 []).maxcap) ∧
    ((st2 [(1, pos [1, 1])] 0 0 []).maxcap < max ((st2 [(1, pos [1, 1])] 0 0 []).reg 1).alen 0 + 1) ∧
    (max (BigNum.alen (pos [1, 1])) (BigNum.alen (neg [2, 1])) ≤ (st2 [(1, pos [1, 1]), (2, neg [2, 1])] 0 0 []).maxcap) := by
  decide

/-- As for ADD, with the signs of the other operand reversed. -/
theorem witness_SubIsExact :
    (max (BigNum.alen (pos [1])) (BigNum.alen (neg [2])) + 1 ≤ (st2 [(1, pos [1]), (2, neg [2])] 0 0 []).maxcap) ∧
    ((st2 [(1, pos [1, 1]), (2, neg [1])] 0 0 []).maxcap <
      max ((st2 [(1, pos [1, 1]), (2, neg [1])] 0 0 []).reg 1).alen ((st2 [(1, pos [1, 1]), (2, neg [1])] 0 0 []).reg 2).alen + 1) ∧
    (max (BigNum.alen (pos [1, 1])) (BigNum.alen (pos [2, 1])) ≤ (st2 [(1, pos [1, 1]), (2, pos [2, 1])] 0 0 []).maxcap) := by
  decide

/-- 2^32 * 2^31 fits two limbs, 2^32 * 2^32 does not. -/
theorem witness_MulIsExact :
    tightCap (((st2 [(1, pos [0, 1]), (2, neg [0x80000000])] 0 0 []).reg 1).mag *
      ((st2 [(1, pos [0, 1]), (2, neg [0x80000000])] 0 0 []).reg 2).mag) ≤ 2 ∧
    2 < tightCap (((st2 [(1, pos [0, 1])] 0 0 []).reg 1).mag * ((st2 [(1, pos [0, 1])] 0 0 []).reg 1).mag) := by
  rw [show ((st2 [(1, pos [0, 1]), (2, neg [0x80000000])] 0 0 []).reg 1).mag *
      ((st2 [(1, pos [0, 1]), (2, neg [0x80000000])] 0 0 []).reg 2).mag = 2 ^ 63 by decide,
    show ((st2 [(1, pos [0, 1])] 0 0 []).reg 1).mag * ((st2 [(1, pos [0, 1])] 0 0 []).reg 1).mag = 2 ^ 64 by decide]
  unfold tightCap
  rw [Nat.size_pow, Nat.size_pow]
  decide

theorem witness_DivLimbIsDivision : (0xFFFFFFFF : Word) ≠ 0 ∧ (1 : Word) ≠ 0 := by decide

/-- One operand pair on each path of the divider: equal, smaller, two, single limb, Knuth. -/
theorem witness_DividerComputesDivMod :
    Limbs.mag [9] ≠ 0 ∧ Limbs.mag [0, 1] ≠ 0 ∧ Limbs.mag [2, 0] ≠ 0 ∧ Limbs.mag [0xFFFFFFFF] ≠ 0 ∧ Limbs.mag [3, 1] ≠ 0 := by decide

/-- A zero divisor; both results nonzero, the quotient zero, the remainder zero, both zero. -/
theorem witness_DivremTruncates :
    (7 : Reg) ≠ 8 ∧ ((st [(6, neg [0, 0])] 0 0 []).CapsBounded ∧ ((st [(6, neg [0, 0])] 0 0 []).reg 6).mag = 0) ∧
    ((st [(5, neg [7, 0, 1]), (6, pos [3, 1])] 0 0 []).CapsBounded ∧
      ((st [(5, neg [7, 0, 1]), (6, pos [3, 1])] 0 0 []).reg 6).mag ≠ 0) ∧
    ((pos [7, 0, 1]).mag / (pos [3, 1]).mag ≠ 0 ∧ (pos [7, 0, 1]).mag % (pos [3, 1]).mag ≠ 0) ∧
    ((pos [5]).mag / (pos [0, 1]).mag = 0 ∧ (pos [5]).mag % (pos [0, 1]).mag ≠ 0) ∧
    ((pos [9]).mag / (neg [9]).mag ≠ 0 ∧ (pos [9]).mag % (neg [9]).mag = 0) ∧
    ((pos []).mag / (pos [3]).mag = 0 ∧ (pos []).mag % (pos [3]).mag = 0) := by
  unfold State.CapsBounded; decide

theorem witness_DivAndModTruncate :
    (st [(1, neg [7]), (2, pos [3])] 0 0 []).CapsBounded ∧ ((st [(1, neg [7]), (2, pos [3])] 0 0 []).reg 2).mag ≠ 0 ∧
    State.reset.CapsBounded ∧ (State.reset.reg 2).mag = 0 := by
  unfold State.CapsBounded; decide

theorem witness_BinaryGcdIsGcd : (0 : Nat) < 1 ∧ (0 : Nat) < 2 ^ 64 := by decide

/-- A zero operand on either side, a negative one, two positive ones. -/
theorem witness_GcdCommand :
    (st [(1, neg [5])] 0 0 []).CapsBounded ∧ ((st [(1, neg [5])] 0 0 []).reg 2).mag = 0 ∧ ((st [(1, neg [5])] 0 0 []).reg 0).mag = 0 ∧
    (((st [(1, neg [5]), (2, pos [10])] 0 0 []).reg 1).mag ≠ 0 ∧ ((st [(1, neg [5]), (2, pos [10])] 0 0 []).reg 2).mag ≠ 0 ∧
      ((st [(1, neg [5]), (2, pos [10])] 0 0 []).reg 1).val < 0) ∧
    (0 < ((st [(1, pos [48]), (2, pos [36])] 0 0 []).reg 1).val ∧ 0 < ((st [(1, pos [48]), (2, pos [36])] 0 0 []).reg 2).val) := by
  unfold State.CapsBounded; decide

/-- The operands of GCD's witness, and least common multiples of two limbs (2^63) and of three (2^64). -/
theorem witness_LcmCommand :
    (((st [(1, neg [4]), (2, pos [6])] 0 0 []).reg 1).mag ≠ 0 ∧ ((st [(1, neg [4]), (2, pos [6])] 0 0 []).reg 2).mag ≠ 0 ∧
      ((st [(1, neg [4]), (2, pos [6])] 0 0 []).reg 1).val < 0) ∧
    ((State.reset.reg 1).mag = 0 ∧ (State.reset.reg 2).mag = 0) ∧ ((st [(2, pos [7])] 0 0 []).reg 2).mag ≠ 0 ∧
    (0 < ((st2 [(1, pos [0, 0x80000000])] 0 0 []).reg 1).val ∧
      tightCap (Nat.lcm ((st2 [(1, pos [0, 0x80000000])] 0 0 []).reg 1).mag ((st2 [(1, pos [0, 0x80000000])] 0 0 []).reg 1).mag) ≤ 2) ∧
    (0 < ((st2 [(1, pos [0, 0, 1])] 0 0 []).reg 1).val ∧
      2 < tightCap (Nat.lcm ((st2 [(1, pos [0, 0, 1])] 0 0 []).reg 1).mag ((st2 [(1, pos [0, 0, 1])] 0 0 []).reg 1).mag)) := by
  refine ⟨by decide, by decide, by decide, ⟨by decide, ?_⟩, by decide, ?_⟩
  · rw [Nat.lcm_self, show ((st2 [(1, pos [0, 0x80000000])] 0 0 []).reg 1).mag = 2 ^ 63 by decide]
    unfold tightCap; rw [Nat.size_pow]
  · rw [Nat.lcm_self, show ((st2 [(1, pos [0, 0, 1])] 0 0 []).reg 1).mag = 2 ^ 64 by decide]
    unfold tightCap; rw [Nat.size_pow]; decide

theorem witness_ExtendedEuclidInverts :
    ((1 : Nat) < 7 ∧ (6 : Nat) < 7 ∧ Nat.gcd 6 7 = 1) ∧ ((1 : Nat) < 9 ∧ (0 : Nat) < 9 ∧ Nat.gcd 6 9 ≠ 1 ∧ Nat.gcd 0 9 ≠ 1) := by decide

/-- A negative operand, modulus 0, modulus 1, no inverse, an inverse. -/
theorem witness_ModinvCommand :
    (st [(1, neg [3]), (2, pos [7])] 0 0 []).CapsBounded ∧ ((st [(1, neg [3]), (2, pos [7])] 0 0 []).reg 1).val < 0 ∧
    (0 ≤ (State.reset.reg 1).val ∧ (State.reset.reg 2).val = 0) ∧
    ((st [(1, pos [5]), (2, pos [1])] 0 0 []).reg 2).val = 1 ∧
    (1 < ((st [(1, pos [6]), (2, pos [9])] 0 0 []).reg 2).val ∧
      Nat.gcd ((st [(1, pos [6]), (2, pos [9])] 0 0 []).reg 1).mag ((st [(1, pos [6]), (2, pos [9])] 0 0 []).reg 2).mag ≠ 1) ∧
    (1 < ((st [(1, pos [17]), (2, pos [780])] 0 0 []).reg 2).val ∧
      Nat.gcd ((st [(1, pos [17]), (2, pos [780])] 0 0 []).reg 1).mag
        ((st [(1, pos [17]), (2, pos [780])] 0 0 []).reg 2).mag = 1) := by
  unfold State.CapsBounded; decide

theorem witness_SquareAndMultiplyIsPower : (1 : Nat) ≤ 1 ∧ (1 : Nat) ≤ 2 ^ 64 := by decide

/-- A negative operand, modulus 0, exponent 0 with modulus 1, a full operation. -/
theorem witness_ModexpCommand :
    (st [(1, neg [2])] 0 0 []).CapsBounded ∧ ((st [(1, neg [2])] 0 0 []).reg 1).val < 0 ∧
    (0 ≤ (State.reset.reg 1).val ∧ 0 ≤ (State.reset.reg 2).val ∧ (State.reset.reg 3).val = 0) ∧
    (((st [(1, pos [3]), (3, pos [1])] 0 0 []).reg 2).val = 0 ∧ 0 < ((st [(1, pos [3]), (3, pos [1])] 0 0 []).reg 3).val) ∧
    (0 < ((st [(1, pos [2]), (2, pos [10]), (3, pos [1000])] 0 0 []).reg 2).val ∧
      0 < ((st [(1, pos [2]), (2, pos [10]), (3, pos [1000])] 0 0 []).reg 3).val) := by
  unfold State.CapsBounded; decide

/-- The least odd n with the largest base, prime; a composite with a base that shares a factor. -/
theorem witness_PrimePassesEveryRound :
    (2003 ≤ 2003 ∧ 2003 % 2 = 1 ∧ 1 ≤ 2002 ∧ 2002 ≤ 2003 - 1 ∧ 2003 - 1 = 2 ^ 1 * 1001 ∧ 1001 % 2 = 1 ∧ Nat.Prime 2003) ∧
    (2003 ≤ 4028033 ∧ 4028033 % 2 = 1 ∧ 2003 ≤ 4028033 - 1 ∧ Nat.gcd 2003 4028033 ≠ 1 ∧
      4028033 - 1 = 2 ^ 7 * 31469 ∧ 31469 % 2 = 1) := by
  norm_num

/-- 1; the largest table prime; a multiple of it; a composite without a table factor, accuracy 0; a prime above the table. -/
theorem witness_IsprimeVerdict :
    ((st [(1, pos [1])] 0 0 []).reg 1).val ≤ 1 ∧
    (Nat.Prime 1999 ∧ 1999 < 2000 ∧ ((st [(1, pos [1999])] 0 0 []).reg 1).val = (1999 : Nat)) ∧
    (((st [(1, pos [5997])] 0 0 []).reg 1).val ≠ (1999 : Nat) ∧
      ((1999 : Nat) : Int) ∣ ((st [(1, pos [5997])] 0 0 []).reg 1).val) ∧
    (1 < ((st [(1, pos [4028033])] 0 0 []).reg 1).val ∧ (st [(1, pos [4028033])] 0 0 []).arg0.toNat = 0 ∧
      ∀ q : Nat, Nat.Prime q → q < 2000 → ¬ (q : Int) ∣ ((st [(1, pos [4028033])] 0 0 []).reg 1).val) ∧
    (Nat.Prime 2003 ∧ ((st [(1, pos [2003])] 0 0 []).reg 1).val = (2003 : Nat)) := by
  refine ⟨by decide, ⟨by norm_num, by decide, by decide⟩, ⟨by decide, by decide⟩, ⟨by decide, by decide, ?_⟩,
    by norm_num, by decide⟩
  intro q hq hlt hd
  rw [show ((st [(1, pos [4028033])] 0 0 []).reg 1).val = ((2003 * 2011 : Nat) : Int) by decide] at hd
  rcases hq.dvd_mul.1 (Int.natCast_dvd_natCast.1 hd) with h | h
  · have := (Nat.prime_dvd_prime_iff_eq hq (by norm_num)).1 h; omega
  · have := (Nat.prime_dvd_prime_iff_eq hq (by norm_num)).1 h; omega

theorem witness_RandlFillsEveryLimb :
    (st2 [] 3 0 []).maxcap < (st2 [] 3 0 []).arg0.toNat ∧ (st2 [] 2 0 []).arg0.toNat ≤ (st2 [] 2 0 []).maxcap ∧
    List.length (α := Word) [7, 0] = (st2 [] 2 0 []).arg0.toNat := by decide

theorem witness_RandmaxStaysAtOrBelowMax :
    (st [(1, neg [9])] 0 0 []).CapsBounded ∧ ((st [(1, neg [9])] 0 0 []).reg 1).val < 0 ∧
    (st [(1, pos [100])] 0 0 []).CapsBounded ∧ 0 ≤ ((st [(1, pos [100])] 0 0 []).reg 1).val ∧
    ((100 : Nat) : Int) ≤ ((st [(1, pos [100])] 0 0 []).reg 1).val := by
  unfold State.CapsBounded; decide

/-- No bits, 65 bits, 64 bits in a unit with MAXCAP = 2. -/
theorem witness_RandbitsForcesTheBitLength :
    State.reset.arg0.toNat = 0 ∧
    ((st2 [] 65 0 []).arg0.toNat ≠ 0 ∧ (st2 [] 65 0 []).maxcap < ((st2 [] 65 0 []).arg0.toNat + 31) / 32) ∧
    ((st2 [] 64 0 []).arg0.toNat ≠ 0 ∧ ((st2 [] 64 0 []).arg0.toNat + 31) / 32 ≤ (st2 [] 64 0 []).maxcap) ∧
    Nat.size (2 ^ 63) = (st2 [] 64 0 []).arg0.toNat := by
  rw [Nat.size_pow]; decide

theorem witness_GenprimeFaults :
    (State.reset.arg0.toNat = 0 ∧ (st [] 8 9 []).arg0.toNat < (st [] 8 9 []).arg1.toNat) ∧
    ((st2 [] 65 65 []).arg0.toNat ≠ 0 ∧ (st2 [] 65 65 []).arg1.toNat ≤ (st2 [] 65 65 []).arg0.toNat ∧
      (st2 [] 65 65 []).maxcap < ((st2 [] 65 65 []).arg0.toNat + 31) / 32) := by decide

/-- A search that ends, one that drifts to 257 (part 2, "Random commands"), and a result. -/
theorem witness_GenprimeCommitsItsFind :
    ((st [] 8 2 [0x45]).arg0.toNat ≠ 0 ∧ (st [] 8 2 [0x45]).arg1.toNat ≤ (st [] 8 2 [0x45]).arg0.toNat ∧
      ((st [] 8 2 [0x45]).arg0.toNat + 31) / 32 ≤ (st [] 8 2 [0x45]).maxcap) ∧
    ((st [] 8 2 [0x45]).draws.draw 0 (2 ^ 7 - 1) = (0x45, ⟨[], 1⟩) ∧ searchStart 8 2 0x45 = 197 ∧
      FirstAccepted 197 ⟨[], 1⟩ 0 ∧ Nat.size 197 = 8) ∧
    ((st [] 8 2 [0x7D]).draws.draw 0 (2 ^ 7 - 1) = (0x7D, ⟨[], 1⟩) ∧ searchStart 8 2 0x7D = 253 ∧
      FirstAccepted 253 ⟨[], 1⟩ 2 ∧ Nat.size 257 ≠ 8) ∧
    SearchResult 8 2 197 := by
  unfold FirstAccepted SearchResult
  rw [← bitlenOf_eq_size, ← bitlenOf_eq_size]
  refine ⟨by decide, by decide, by decide, by decide, by decide, by decide, by decide, .inl (by norm_num)⟩

theorem witness_GenprimeOfOneAndTwoBits :
    1 ≤ (st2 [] 2 2 []).maxcap ∧ (st2 [] 2 2 []).arg0 = 2 ∧ (st2 [] 2 2 []).arg1.toNat ≤ 2 ∧
    (st2 [] 1 1 []).arg0 = 1 ∧ (st2 [] 1 1 []).arg1.toNat ≤ 1 := by decide

end Sys2Proof.Tests
end

section
/-! # Draws (00_scope.md R17): a draw keeps to its range, and the environment can answer every value of it. -/

namespace Sys2Proof.Machine

theorem DrawPort.draw_mem_range (p : DrawPort) {lo hi : Nat} (h : lo ≤ hi) :
    lo ≤ (p.draw lo hi).1 ∧ (p.draw lo hi).1 ≤ hi :=
  ⟨le_fitDraw, fitDraw_le h⟩

/-- The port whose environment has lined up exactly the answer `d`. -/
def DrawPort.answering (d : Nat) : DrawPort := { queue := [d], count := 0 }

theorem DrawPort.draw_answering {lo hi d : Nat} (h1 : lo ≤ d) (h2 : d ≤ hi) :
    ((DrawPort.answering d).draw lo hi).1 = d := by
  rw [DrawPort.answering, DrawPort.draw_cons [] 0 h1 h2]

/-- Either sign is drawn from some port: 0 answers Positive, 1 Negative (R17; log 5). -/
theorem DrawPort.exists_drawSign_eq : ∀ sg : Sign, ∃ p : DrawPort, p.drawSign.1 = sg
  | .positive => ⟨.answering 0, by simp [DrawPort.drawSign, DrawPort.draw_answering]⟩
  | .negative => ⟨.answering 1, by simp [DrawPort.drawSign, DrawPort.draw_answering]⟩

/-- Settles O21: `fitDraw` keeps every answer in the range, and a lined-up answer of the range is taken as it is. -/
theorem drawsCoverTheirRange : Obligations.DrawsCoverTheirRange :=
  ⟨fun _ _ h => ⟨fun p => p.draw_mem_range h, fun d h1 h2 => ⟨.answering d, DrawPort.draw_answering h1 h2⟩⟩,
    DrawPort.exists_drawSign_eq⟩

end Sys2Proof.Machine
end

section
/-! # What a command can do: every command that completes does one of eight things, chosen without looking at the
flags (10_state.md R28 to R34). -/

namespace Sys2Proof.Machine

open Sys2Proof.Claims

/-- The command writes none of the three flags (10_state.md R34). -/
def WritesNoFlag (i : Instr) : Prop := writesT i = false ∧ writesOrder i = false

/-- The updates `i` can make from `s`. The update is a function of the state it is applied to only in what it carries
over: its own data come from `s`, so it is the same update under other flags. -/
inductive CommandEffect (i : Instr) (s : State) : (State → State) → Prop where
  /-- A fault; only a unit with a register above MAXCAP can have drawn before it. -/
  | raise (c : Cause) (p : DrawPort) (hp : s.CapsBounded → p = s.draws) (ho : writesOrder i = false) :
      CommandEffect i s fun u => (u.setDraws p).raiseFault c (encode i)
  | store {d : Reg} {b : BigNum} (p : DrawPort) (hd : d ∈ destinations i) (hb : s.CapsBounded → b.cap ≤ s.maxcap)
      (hf : WritesNoFlag i) : CommandEffect i s fun u => (u.setDraws p).setReg d b
  | storeBoth {d₁ d₂ : Reg} {b₁ b₂ : BigNum} (p : DrawPort) (hd₁ : d₁ ∈ destinations i) (hd₂ : d₂ ∈ destinations i)
      (hb₁ : s.CapsBounded → b₁.cap ≤ s.maxcap) (hb₂ : s.CapsBounded → b₂.cap ≤ s.maxcap) (hf : WritesNoFlag i) :
      CommandEffect i s fun u => ((u.setDraws p).setReg d₁ b₁).setReg d₂ b₂
  | answer (v : Word) (hv : writesRes i = true) (hf : WritesNoFlag i) : CommandEffect i s fun u => u.setRes v
  | order (o : Ordering) (ho : writesOrder i = true) (ht : writesT i = false) :
      CommandEffect i s fun u => u.setFlags (u.flags.compare o)
  | test (b : Bool) (p : DrawPort) (ht : writesT i = true) (ho : writesOrder i = false) :
      CommandEffect i s fun u => (u.setDraws p).setT b
  | storeTest {d : Reg} {b : BigNum} (hd : d ∈ destinations i) (hb : s.CapsBounded → b.cap ≤ s.maxcap)
      (ht : writesT i = true) (ho : writesOrder i = false) : CommandEffect i s fun u => (u.setReg d b).setT true
  /-- A GENPRIME whose candidate has drifted (48_random.md R285, R287; log 6). -/
  | restart (rd : Reg) (p : DrawPort) (hi : i = .genprime rd) :
      CommandEffect i s fun u => (u.setDraws p).setRunning (some (encode i))

/-- The outcomes of `i` from `s` under every choice of flags: one effect for all of them, or a stop. -/
def HasEffect (i : Instr) (s : State) (o : Flags → Host.Outcome State Fault Refusal) : Prop :=
  (∃ g, CommandEffect i s g ∧ ∀ f, o f = .next (g (s.setFlags f))) ∨ ∃ r, ∀ f, o f = .fault r

namespace HasEffect

variable {i : Instr} {s : State}

/-! One rule per way a command ends. The side conditions about the command hold by computation. -/

theorem of {o : Flags → Host.Outcome State Fault Refusal} {g : State → State} (h : CommandEffect i s g)
    (e : ∀ f, o f = .next (g (s.setFlags f))) : HasEffect i s o := .inl ⟨g, h, e⟩

theorem stop {r : Fault} : HasEffect i s fun _ => .fault r := .inr ⟨r, fun _ => rfl⟩

/-- A branch on a condition in which no flag occurs; its decision may be written over either state. -/
theorem branch {c : Prop} {dec : Flags → Decidable c} {a b : Flags → Host.Outcome State Fault Refusal}
    (ha : c → HasEffect i s a) (hb : ¬ c → HasEffect i s b) :
    HasEffect i s fun f => @ite _ c (dec f) (a f) (b f) := by
  by_cases h : c
  · simpa only [if_pos h] using ha h
  · simpa only [if_neg h] using hb h

theorem raise {c : Cause} (ho : writesOrder i = false := by exact rfl) :
    HasEffect i s fun f => .next ((s.setFlags f).raiseFault c (encode i)) :=
  .of (.raise c s.draws (fun _ => rfl) ho) fun _ => rfl

theorem setReg {d : Reg} {b : BigNum} (hb : s.CapsBounded → b.cap ≤ s.maxcap)
    (hd : d ∈ destinations i := by exact List.mem_cons_self) (hf : WritesNoFlag i := by exact ⟨rfl, rfl⟩) :
    HasEffect i s fun f => .next ((s.setFlags f).setReg d b) :=
  .of (.store s.draws hd hb hf) fun _ => rfl

theorem setRes {v : Word} (hv : writesRes i = true := by exact rfl) (hf : WritesNoFlag i := by exact ⟨rfl, rfl⟩) :
    HasEffect i s fun f => .next ((s.setFlags f).setRes v) :=
  .of (.answer v hv hf) fun _ => rfl

theorem setT {b : Bool} (ht : writesT i = true := by exact rfl) (ho : writesOrder i = false := by exact rfl) :
    HasEffect i s fun f => .next ((s.setFlags f).setT b) :=
  .of (.test b s.draws ht ho) fun _ => rfl

theorem setRegT {d : Reg} {b : BigNum} (hb : s.CapsBounded → b.cap ≤ s.maxcap)
    (hd : d ∈ destinations i := by exact List.mem_cons_self) (ht : writesT i = true := by exact rfl)
    (ho : writesOrder i = false := by exact rfl) :
    HasEffect i s fun f => .next (((s.setFlags f).setReg d b).setT true) :=
  .of (.storeTest hd hb ht ho) fun _ => rfl

/-- A commit after draws: in a unit within its bounds it must not fault, since the draws are made. -/
theorem drawCommit {p : DrawPort} {d : Reg} {sg : Sign} {L : Limbs} (hp : s.CapsBounded → L.length ≤ s.maxcap)
    (hd : d ∈ destinations i := by exact List.mem_cons_self) (hf : WritesNoFlag i := by exact ⟨rfl, rfl⟩) :
    HasEffect i s fun f => .next (((s.setFlags f).setDraws p).commit (encode i) d sg L) := by
  by_cases hL : L.length ≤ s.maxcap
  · exact .of (.store (b := ⟨(commitSign p sg L).1, L⟩) (commitSign p sg L).2 hd (fun _ => hL) hf)
      fun f => congrArg _ (State.commit_of_le hL)
  · exact .of (.raise .allocationFailure p (fun hs => absurd (hp hs) hL) hf.2)
      fun f => congrArg _ (State.commit_of_lt (not_le.1 hL))

/-- A commit without a draw before it. -/
theorem commit {d : Reg} {sg : Sign} {L : Limbs} (hd : d ∈ destinations i := by exact List.mem_cons_self)
    (hf : WritesNoFlag i := by exact ⟨rfl, rfl⟩) :
    HasEffect i s fun f => .next ((s.setFlags f).commit (encode i) d sg L) := by
  by_cases hL : L.length ≤ s.maxcap
  · exact drawCommit (p := s.draws) (fun _ => hL) hd hf
  · exact .of (.raise .allocationFailure s.draws (fun _ => rfl) hf.2)
      fun f => congrArg _ (State.commit_of_lt (not_le.1 hL))

theorem conclude {d : Reg} {r : Except Cause (Sign × Limbs)} (hd : d ∈ destinations i := by exact List.mem_cons_self)
    (hf : WritesNoFlag i := by exact ⟨rfl, rfl⟩) :
    HasEffect i s fun f => .next ((s.setFlags f).conclude (encode i) d r) := by
  cases r with
  | ok x => exact commit hd hf
  | error c => exact raise hf.2

theorem commit2 {d₁ d₂ : Reg} {r₁ r₂ : Sign × Limbs} (hd₁ : d₁ ∈ destinations i) (hd₂ : d₂ ∈ destinations i)
    (hf : WritesNoFlag i := by exact ⟨rfl, rfl⟩) :
    HasEffect i s fun f => .next ((s.setFlags f).commit2 (encode i) d₁ r₁ d₂ r₂) := by
  by_cases h : s.maxcap < r₁.2.length ∨ s.maxcap < r₂.2.length
  · exact .of (.raise .allocationFailure s.draws (fun _ => rfl) hf.2) fun f => congrArg _ (if_pos h)
  · obtain ⟨h₁, h₂⟩ := not_or.1 h
    let c₁ := commitSign s.draws r₁.1 r₁.2
    let c₂ := commitSign c₁.2 r₂.1 r₂.2
    exact .of (.storeBoth (b₁ := ⟨c₁.1, r₁.2⟩) (b₂ := ⟨c₂.1, r₂.2⟩) c₂.2 hd₁ hd₂ (fun _ => not_lt.1 h₁)
      (fun _ => not_lt.1 h₂) hf) fun f => congrArg _ (if_neg h)

end HasEffect

/-! The effects of the commands -/

section Commands

variable (s : State) (rd rs1 rs2 rs3 : Reg)

theorem alloc_hasEffect : HasEffect (.alloc rd) s fun f => exec (.alloc rd) (s.setFlags f) := by
  simp only [exec, execAlloc, State.setFlags_reg, State.setFlags_arg0, State.setFlags_maxcap]
  refine .branch (fun _ => .setT) fun _ => .branch (fun _ => .raise) fun hn => .setRegT fun _ => ?_
  simpa [BigNum.cap] using hn

theorem realloc_hasEffect : HasEffect (.realloc rd) s fun f => exec (.realloc rd) (s.setFlags f) := by
  simp only [exec, execRealloc, State.setFlags_reg, State.setFlags_arg0, State.setFlags_maxcap]
  refine .branch (fun _ => .raise) fun hn => .setReg fun _ => ?_
  simpa [BigNum.cap] using hn

theorem copyc_hasEffect : HasEffect (.copyc rd rs1) s fun f => exec (.copyc rd rs1) (s.setFlags f) := by
  simp only [exec, execCopyc, State.setFlags_reg, State.setFlags_arg0, State.setFlags_maxcap]
  refine .branch (fun _ => .raise) fun hn => .setReg fun _ => ?_
  simpa [BigNum.cap] using hn

theorem setlimb_hasEffect : HasEffect (.setlimb rd) s fun f => exec (.setlimb rd) (s.setFlags f) := by
  simp only [exec, execSetlimb, State.setFlags_reg, State.setFlags_arg0, State.setFlags_arg1]
  refine .branch (fun _ => .setRegT fun ⟨_, _, hcap⟩ => ?_) fun _ => .setT
  simpa [BigNum.cap] using hcap rd

theorem setbyte_hasEffect : HasEffect (.setbyte rd) s fun f => exec (.setbyte rd) (s.setFlags f) := by
  simp only [exec, execSetbyte, State.setFlags_reg, State.setFlags_arg0, State.setFlags_arg1]
  refine .branch (fun _ => .setRegT fun ⟨_, _, hcap⟩ => ?_) fun _ => .setT
  simpa [BigNum.cap] using hcap rd

theorem divrem_hasEffect :
    HasEffect (.divrem rd rs1 rs2 rs3) s fun f => exec (.divrem rd rs1 rs2 rs3) (s.setFlags f) := by
  simp only [exec, execDivrem, State.setFlags_reg]
  exact .branch (fun _ => .raise) fun _ => .branch (fun _ => .raise) fun _ =>
    .commit2 List.mem_cons_self (List.mem_cons_of_mem _ List.mem_cons_self)

/-- The modulus 1 draws 0 or 1, which any MAXCAP holds. -/
theorem modinv_hasEffect :
    HasEffect (.modinv rd rs1 rs2) s fun f => exec (.modinv rd rs1 rs2) (s.setFlags f) := by
  simp only [exec, execModinv, State.setFlags_reg, State.setFlags_draws]
  refine .branch (fun _ => .raise) fun _ => .branch (fun _ => .raise) fun _ =>
    .branch (fun _ => .drawCommit fun ⟨hmax, _⟩ => ?_) fun _ => .commit
  have hx : (s.draws.draw 0 1).1 ≤ 1 := fitDraw_le (Nat.zero_le 1)
  exact Limbs.length_tight_le_iff.2 (lt_of_le_of_lt hx (Nat.one_lt_pow (Nat.one_le_iff_ne_zero.1 hmax) (by decide)))

theorem isprime_hasEffect : HasEffect (.isprime rs1) s fun f => exec (.isprime rs1) (s.setFlags f) :=
  .of (.test (isProbablyPrime (s.reg rs1).val s.arg0.toNat s.draws).1
    (isProbablyPrime (s.reg rs1).val s.arg0.toNat s.draws).2 rfl rfl) fun _ => rfl

theorem randl_hasEffect : HasEffect (.randl rd) s fun f => exec (.randl rd) (s.setFlags f) := by
  simp only [exec, execRandl, State.setFlags_arg0, State.setFlags_maxcap, State.setFlags_draws]
  refine .branch (fun _ => .raise) fun hn => .drawCommit fun _ => ?_
  simpa using hn

theorem randmax_hasEffect : HasEffect (.randmax rd rs1) s fun f => exec (.randmax rd rs1) (s.setFlags f) := by
  have hlen : ∀ r, s.CapsBounded → (Limbs.ofMag r (s.reg rs1).alen).length ≤ s.maxcap := fun r ⟨_, _, hcap⟩ =>
    (Limbs.length_ofMag r _).le.trans ((BigNum.alen_le_cap _).trans (hcap rs1))
  simp only [exec, execRandmax, State.setFlags_reg, State.setFlags_draws]
  refine .branch (fun _ => .raise) fun _ => ?_
  by_cases hlt : (s.reg rs1).mag < (s.draws.drawLimbs (s.reg rs1).alen).1.mag
  · simp only [hlt, if_true]
    exact .drawCommit (hlen _)
  · simp only [hlt, if_false]
    exact .drawCommit (hlen _)

theorem randbits_hasEffect : HasEffect (.randbits rd) s fun f => exec (.randbits rd) (s.setFlags f) := by
  simp only [exec, execRandbits, State.setFlags_arg0, State.setFlags_maxcap, State.setFlags_draws]
  refine .branch (fun _ => .raise) fun _ => .branch (fun _ => .raise) fun hn => .drawCommit fun _ => ?_
  simpa using hn

theorem genprime_hasEffect : HasEffect (.genprime rd) s fun f => exec (.genprime rd) (s.setFlags f) := by
  simp only [exec, execGenprime, State.setFlags_arg0, State.setFlags_arg1, State.setFlags_maxcap, State.setFlags_draws]
  refine .branch (fun _ => .raise) fun _ => .branch (fun _ => .raise) fun hn => ?_
  obtain ⟨found, p⟩ := genPrimeTry s.arg0.toNat s.arg1.toNat s.draws
  cases found with
  | none => exact .stop
  | some q =>
    refine .branch (fun _ => .drawCommit fun _ => ?_) fun _ => .of (.restart rd p rfl) fun _ => rfl
    simpa using hn

end Commands

/-- What a command can do, and that no flag decides it. -/
theorem exec_hasEffect (i : Instr) (s : State) : HasEffect i s fun f => exec i (s.setFlags f) := by
  cases i with
  | alloc rd => exact alloc_hasEffect s rd
  | free rd => exact .setReg fun _ => Nat.zero_le _
  | realloc rd => exact realloc_hasEffect s rd
  | copy rd rs1 => exact .setReg (b := s.reg rs1) fun ⟨_, _, hcap⟩ => hcap rs1
  | copyc rd rs1 => exact copyc_hasEffect s rd rs1
  | setu32 rd => exact .setReg (b := ⟨.positive, [s.arg0]⟩) fun ⟨hmax, _⟩ => hmax
  | getlimb rs1 => exact .setRes (v := (s.reg rs1).limbs.get s.arg0.toNat)
  | setlimb rd => exact setlimb_hasEffect s rd
  | getbyte rs1 => exact .setRes (v := ((s.reg rs1).limbs.getByte s.arg0.toNat).zeroExtend 32)
  | setbyte rd => exact setbyte_hasEffect s rd
  | alen rs1 => exact .setRes (v := BitVec.ofNat 32 (s.reg rs1).alen)
  | bitlen rs1 => exact .setRes (v := BitVec.ofNat 32 (s.reg rs1).bitlen)
  | getsign rs1 => exact .setRes (v := (s.reg rs1).sign.code)
  | setsign rd => exact .setReg (b := { s.reg rd with sign := Sign.ofBit0 s.arg0 }) fun ⟨_, _, hcap⟩ => hcap rd
  | neg rd rs1 => exact .setReg (b := { s.reg rs1 with sign := (s.reg rs1).sign.flip }) fun ⟨_, _, hcap⟩ => hcap rs1
  | cmp rs1 rs2 => exact .of (.order (scmp (s.reg rs1) (s.reg rs2)) rfl rfl) fun _ => rfl
  | shl rd rs1 => exact .conclude (r := shlResult s.maxcap (s.reg rs1) s.arg0.toNat)
  | shr rd rs1 => exact .commit (sg := (s.reg rs1).sign) (L := Limbs.tight (shrMag (s.reg rs1) s.arg0.toNat))
  | add rd rs1 rs2 => simp only [exec, execAdd, State.setFlags_reg]; exact .commit
  | sub rd rs1 rs2 => simp only [exec, execSub, State.setFlags_reg]; exact .commit
  | mul rd rs1 rs2 => exact .conclude (r := mulResult s.maxcap (s.reg rs1) (s.reg rs2))
  | divrem rd rs1 rs2 rs3 => exact divrem_hasEffect s rd rs1 rs2 rs3
  | div rd rs1 rs2 =>
    simp only [exec, execDiv, State.setFlags_reg]
    exact .branch (fun _ => .raise) fun _ => .commit
  | mod rd rs1 rs2 =>
    simp only [exec, execMod, State.setFlags_reg]
    exact .branch (fun _ => .raise) fun _ => .commit
  | gcd rd rs1 rs2 => exact .conclude (r := gcdResult (s.reg rs1) (s.reg rs2))
  | lcm rd rs1 rs2 => exact .conclude (r := lcmResult s.maxcap (s.reg rs1) (s.reg rs2))
  | modinv rd rs1 rs2 => exact modinv_hasEffect s rd rs1 rs2
  | modexp rd rs1 rs2 rs3 =>
    simp only [exec, execModexp, State.setFlags_reg]
    exact .branch (fun _ => .raise) fun _ => .branch (fun _ => .raise) fun _ => .commit
  | isprime rs1 => exact isprime_hasEffect s rs1
  | randl rd => exact randl_hasEffect s rd
  | randmax rd rs1 => exact randmax_hasEffect s rd rs1
  | randbits rd => exact randbits_hasEffect s rd
  | genprime rd => exact genprime_hasEffect s rd

/-- A command that answers a next state has made one of the updates of `CommandEffect`, and makes the same one under other
flags. -/
theorem exec_next {i : Instr} {s t : State} (h : exec i s = .next t) :
    ∃ g, CommandEffect i s g ∧ t = g s ∧ ∀ f, exec i (s.setFlags f) = .next (g (s.setFlags f)) := by
  rcases exec_hasEffect i s with ⟨g, hg, he⟩ | ⟨r, hr⟩
  · have hs : exec i s = .next (g s) := he s.flags
    rw [h, Host.Outcome.next.injEq] at hs
    exact ⟨g, hg, hs, he⟩
  · have hs : exec i s = .fault r := hr s.flags
    rw [h] at hs
    cases hs

end Sys2Proof.Machine
end

section
/-! # What no command changes, and that no flag is an input (10_state.md R28 to R34). -/

namespace Sys2Proof.Machine

open Sys2Proof.Claims

theorem regsExcept_setReg {ds : List Reg} {d : Reg} (hd : d ∈ ds) (s : State) (b : BigNum) :
    RegsExcept ds s (s.setReg d b) := fun j hj => State.setReg_reg_ne s (by rintro rfl; exact hj hd) b

/-- Settles O15: each effect keeps what the command has no licence to change. -/
theorem commandsKeepTheirFrame : Obligations.CommandsKeepTheirFrame := by
  intro i s t h
  obtain ⟨g, hg, rfl, -⟩ := exec_next h
  cases hg with
  | raise c p hp ho => simp [RegsExcept]
  | store p hd hb hf => exact ⟨regsExcept_setReg hd (s.setDraws p) _, by simp⟩
  | storeBoth p hd₁ hd₂ hb₁ hb₂ hf =>
    refine ⟨fun j hj => ?_, by simp⟩
    rw [regsExcept_setReg hd₂ _ _ j hj, regsExcept_setReg hd₁ _ _ j hj, State.setDraws_reg]
  | answer v hv hf => simp [RegsExcept, hv]
  | order o ho ht => simp [RegsExcept, ho, Flags.compare]
  | test b p ht ho => simp [RegsExcept, ht, Flags.setT]
  | storeTest hd hb ht ho => exact ⟨regsExcept_setReg hd s _, by simp [ht, Flags.setT]⟩
  | restart rd p hi => simp [RegsExcept, hi]

/-- Settles O16: the effect is the same under any flags, and it sets a flag it writes to a value of its own. -/
theorem noFlagIsAnInput : Obligations.NoFlagIsAnInput := by
  intro i s t f h
  obtain ⟨g, hg, rfl, he⟩ := exec_next h
  refine ⟨g (s.setFlags f), he f, ?_⟩
  cases hg with
  | raise c p hp ho => exact ⟨rfl, by simp [ho]⟩
  | store p hd hb hnf => exact ⟨rfl, by simp [hnf.1, hnf.2]⟩
  | storeBoth p hd₁ hd₂ hb₁ hb₂ hnf => exact ⟨rfl, by simp [hnf.1, hnf.2]⟩
  | answer v hv hnf => exact ⟨rfl, by simp [hnf.1, hnf.2]⟩
  | order o ho ht => exact ⟨rfl, by simp [Flags.compare, ht]⟩
  | test b p ht ho => exact ⟨rfl, by simp [Flags.setT, ho]⟩
  | storeTest hd hb ht ho => exact ⟨rfl, by simp [Flags.setT, ho]⟩
  | restart rd p hi => exact ⟨rfl, by simp [hi, writesOrder, writesT]⟩

end Sys2Proof.Machine
end

section
/-! # What a step can do, and what every step keeps (20_memory.md R75 to R84, 10_state.md R22, R35, R38 to R40). -/

namespace Sys2Proof.Machine

/-- The next states of a step, by the access it serves or the command it runs. -/
inductive StepCase (s : State) : State → Prop where
  | idle (hr : s.running = none) (hp : s.pending = []) : StepCase s s
  | reset {es : List HostEvent} (hp : s.pending = .reset :: es) : StepCase s (s.setPending es).resetEvent
  | read {offset : BitVec 8} {width : Nat} {es : List HostEvent} (hr : s.running = none)
      (hp : s.pending = .read offset width :: es) : StepCase s ((s.setPending es).reply (s.blockRead offset width))
  | write {offset : BitVec 8} {width : Nat} {v : Word} {es : List HostEvent} (hr : s.running = none)
      (hp : s.pending = .write offset width v :: es) (hc : isCommandWrite offset width = false) :
      StepCase s ((s.setPending es).blockWrite offset width v)
  | command {offset : BitVec 8} {width : Nat} {w : Word} {es : List HostEvent} {t : State} (hr : s.running = none)
      (hp : s.pending = .write offset width w :: es) (hc : isCommandWrite offset width = true)
      (h : issueCommand w (s.setPending es) = .next t) : StepCase s t
  | resume {w : Word} {t : State} (hr : s.running = some w) (h₁ : s.pending.head? ≠ some .reset)
      (h₂ : s.pending.head? ≠ some .otherHost) (h : issueCommand w (s.setRunning none) = .next t) : StepCase s t

/-- An access that is served with no command in progress. -/
theorem stepCase_of_serve {s t : State} {e : HostEvent} {es : List HostEvent} (hr : s.running = none)
    (hp : s.pending = e :: es) (h : serveEvent e (s.setPending es) = .next t) : StepCase s t := by
  cases e with
  | write offset width v =>
    by_cases hc : isCommandWrite offset width = true
    · exact .command hr hp hc (by simpa [serveEvent, hc] using h)
    · obtain rfl : (s.setPending es).blockWrite offset width v = t := by simpa [serveEvent, hc] using h
      exact .write hr hp (by simpa using hc)
  | read offset width =>
    obtain rfl := Host.Outcome.next.inj h
    exact .read hr hp
  | reset =>
    obtain rfl := Host.Outcome.next.inj h
    exact .reset hp
  | otherHost => cases h

/-- A step with a command in progress. -/
theorem stepCase_of_resume {s t : State} {w : Word} (hr : s.running = some w) (h : resumeCommand w s = .next t) :
    StepCase s t := by
  unfold resumeCommand at h
  split at h
  · obtain rfl := Host.Outcome.next.inj h
    exact .reset ‹_›
  · cases h
  all_goals exact .resume hr (by simp [*]) (by simp [*]) h

theorem step_next {s t : State} (h : step s = .next t) : StepCase s t := by
  unfold step stepUnit at h
  split at h
  · exact stepCase_of_resume ‹_› h
  · split at h
    · obtain rfl := Host.Outcome.next.inj h
      exact .idle ‹_› ‹_›
    · exact stepCase_of_serve ‹_› ‹_› h

/-- A command write is ignored in the fault state, raises IllegalCommand, or runs the command it decodes to. -/
theorem issueCommand_next {w : Word} {s t : State} (h : issueCommand w s = .next t) :
    (s.fault = true ∧ t = s) ∨ (s.fault = false ∧ t = s.raiseFault .illegalCommand w) ∨
      (s.fault = false ∧ ∃ i, decode w = .ok i ∧ exec i s = .next t) := by
  cases hf : s.fault with
  | true => exact .inl ⟨rfl, by simpa [issueCommand_fault hf, eq_comm] using h⟩
  | false =>
    cases hd : decode w with
    | error e => exact .inr (.inl ⟨rfl, by simpa [issueCommand_illegal hf hd, eq_comm] using h⟩)
    | ok i => exact .inr (.inr ⟨rfl, i, rfl, by rwa [issueCommand_ok hf hd] at h⟩)

theorem issueCommand_next_of_fault {w : Word} {s t : State} (hf : s.fault = true) (h : issueCommand w s = .next t) :
    t = s := by
  rw [issueCommand_fault hf] at h
  exact (Host.Outcome.next.inj h).symm

/-- A write outside CMD reaches ARG0, ARG1 or nothing (R72, R76). -/
theorem blockWrite_cases (s : State) (offset : BitVec 8) (width : Nat) (v : Word) :
    s.blockWrite offset width v = s.setArg0 v ∨ s.blockWrite offset width v = s.setArg1 v ∨
      s.blockWrite offset width v = s := by
  unfold State.blockWrite
  split_ifs <;> simp

/-! The fault state -/

/-- What R40 says the fault state keeps. -/
def State.FaultKept (s t : State) : Prop :=
  t.fault = true ∧ t.fcode = s.fcode ∧ t.finfo = s.finfo ∧
    (∀ i, t.reg i = s.reg i) ∧ t.res = s.res ∧ t.flags = s.flags ∧ t.draws = s.draws ∧ t.maxcap = s.maxcap

/-- No command runs in the fault state, and no access but a reset reaches what R40 names. -/
theorem faultKept_of_step {s t : State} (hf : s.fault = true) (hreset : s.pending.head? ≠ some .reset)
    (h : step s = .next t) : s.FaultKept t := by
  cases step_next h with
  | idle hr hp => simp [State.FaultKept, hf]
  | reset hp => simp [hp] at hreset
  | read hr hp => simp [State.FaultKept, hf]
  | @write offset width v es hr hp hc =>
    rcases blockWrite_cases (s.setPending es) offset width v with e | e | e <;> simp [State.FaultKept, e, hf]
  | command hr hp hc hi =>
    obtain rfl := issueCommand_next_of_fault (by exact hf) hi
    simp [State.FaultKept, hf]
  | resume hr h₁ h₂ hi =>
    obtain rfl := issueCommand_next_of_fault (by exact hf) hi
    simp [State.FaultKept, hf]

/-- A command write to a faulted unit is ignored: only the access is gone (R40; log 1). -/
theorem step_commandWrite_of_fault {s : State} {w : Word} {es : List HostEvent} (hf : s.fault = true)
    (hr : s.running = none) (hp : s.pending = .write 0x00 4 w :: es) : step s = .next { s with pending := es } := by
  rw [step_serve hr hp, serveEvent_command]
  exact issueCommand_fault (s := s.setPending es) hf

/-- Settles O7, from what every step of a faulted unit keeps and from what a command write to one does. -/
theorem faultStateIsSticky : Obligations.FaultStateIsSticky := by
  intro s t hf hreset h
  obtain ⟨hfault, hcode, hinfo, hregs, hres, hflags, hdraws, hmax⟩ := faultKept_of_step hf hreset h
  refine ⟨hfault, hcode, hinfo, hregs, hres, hflags, hdraws, hmax, fun hr w es hp => ?_⟩
  rw [step_commandWrite_of_fault hf hr hp] at h
  exact (Host.Outcome.next.inj h).symm

/-! The invariant -/

theorem capsBounded_setReg {s : State} {d : Reg} {b : BigNum} (h : s.CapsBounded) (hb : b.cap ≤ s.maxcap) :
    (s.setReg d b).CapsBounded := by
  obtain ⟨hlo, hhi, hcap⟩ := h
  refine ⟨hlo, hhi, fun j => ?_⟩
  rw [State.setReg_reg]
  split
  · exact hb
  · exact hcap j

/-- The codes of R38 are 1 to 4. -/
theorem Cause.code_mem_range (c : Cause) : 1 ≤ c.code.toNat ∧ c.code.toNat ≤ 4 := by cases c <;> decide

theorem orderFlagsDisjoint_compare (s : State) (o : Ordering) :
    (s.setFlags (s.flags.compare o)).OrderFlagsDisjoint := by
  cases o <;> simp [State.OrderFlagsDisjoint, Flags.compare]

/-- With no command in progress there is nothing to say of one. -/
theorem runningGenprime_of_none {s : State} (h : s.running = none) : s.RunningGenprime := fun w hw => by
  rw [h] at hw
  cases hw

theorem inv_raiseFault {s : State} (h : s.Inv) (hr : s.running = none) (c : Cause) (w : Word) :
    (s.raiseFault c w).Inv := by
  obtain ⟨hcaps, -, hord, -⟩ := h
  exact ⟨hcaps, c.code_mem_range, hord, runningGenprime_of_none hr⟩

/-- Every command keeps the invariant in a ready unit. -/
theorem exec_inv {i : Instr} {s t : State} (hs : s.Inv) (hready : s.Ready) (h : exec i s = .next t) : t.Inv := by
  obtain ⟨hf, hr⟩ := hready
  obtain ⟨g, hg, rfl, -⟩ := exec_next h
  obtain ⟨hcaps, hfault, hord, hrun⟩ := id hs
  cases hg with
  | raise c p hp ho => exact inv_raiseFault (s := s.setDraws p) hs hr c _
  | store p hd hb _ => exact ⟨capsBounded_setReg (s := s.setDraws p) hcaps (hb hcaps), hfault, hord, hrun⟩
  | storeBoth p hd₁ hd₂ hb₁ hb₂ _ =>
    exact ⟨capsBounded_setReg (capsBounded_setReg (s := s.setDraws p) hcaps (hb₁ hcaps)) (hb₂ hcaps), hfault, hord,
      hrun⟩
  | answer v hv _ => exact hs
  | order o ho ht => exact ⟨hcaps, hfault, orderFlagsDisjoint_compare s o, hrun⟩
  | test b p ht ho => exact hs
  | storeTest hd hb ht ho => exact ⟨capsBounded_setReg hcaps (hb hcaps), hfault, hord, hrun⟩
  | restart rd p hi =>
    refine ⟨hcaps, hfault, hord, fun w hw => ⟨hf, rd, ?_⟩⟩
    rw [← Option.some.inj hw, hi]

/-- A command write keeps the invariant, in the fault state and for an illegal word too. -/
theorem issueCommand_inv {w : Word} {s t : State} (hs : s.Inv) (hr : s.running = none)
    (h : issueCommand w s = .next t) : t.Inv := by
  rcases issueCommand_next h with ⟨-, rfl⟩ | ⟨-, rfl⟩ | ⟨hf, i, -, he⟩
  · exact hs
  · exact inv_raiseFault hs hr _ _
  · exact exec_inv hs ⟨hf, hr⟩ he

theorem inv_setRunning_none {s : State} (hs : s.Inv) : (s.setRunning none).Inv := by
  obtain ⟨hcaps, hfault, hord, -⟩ := hs
  exact ⟨hcaps, hfault, hord, runningGenprime_of_none rfl⟩

/-- The reset event leaves empty registers under the MAXCAP it found (70_reset_and_hazards.md R371). -/
theorem inv_resetEvent {s : State} (hs : s.CapsBounded) : s.resetEvent.Inv := by
  obtain ⟨hlo, hhi, -⟩ := hs
  exact ⟨⟨hlo, hhi, fun i => by simp⟩, ⟨rfl, rfl⟩, by simp [State.OrderFlagsDisjoint], runningGenprime_of_none rfl⟩

/-- Settles O13, by the cases of a step; the commands keep it by `exec_inv`. -/
theorem stepKeepsTheInvariant : Obligations.StepKeepsTheInvariant := by
  intro s t hs h
  cases step_next h with
  | idle hr hp => exact hs
  | reset hp => exact inv_resetEvent hs.1
  | read hr hp => exact hs
  | @write offset width v es hr hp hc =>
    rcases blockWrite_cases (s.setPending es) offset width v with e | e | e <;>
      (rw [e]; exact hs)
  | @command offset width w es _ hr hp hc hi => exact issueCommand_inv (s := s.setPending es) hs hr hi
  | resume hr h₁ h₂ hi => exact issueCommand_inv (inv_setRunning_none hs) rfl hi

/-! The state after reset (10_state.md R46) -/

/-- Settles O14: the reset state is what a reset event leaves of it. -/
theorem resetMeetsTheInvariant : Obligations.ResetMeetsTheInvariant :=
  inv_resetEvent (s := State.reset) ⟨by decide, by decide, fun i => by simp⟩

/-- Settles O9: every register is empty, and the other values stand in the definition of the reset state. -/
theorem resetStateHasTheTabledValues : Obligations.ResetStateHasTheTabledValues := by
  refine ⟨fun i => ?_, rfl, rfl, rfl, rfl, rfl, rfl, rfl, rfl, rfl, rfl⟩
  rw [State.reset_reg]
  exact ⟨rfl, rfl, rfl⟩

end Sys2Proof.Machine
end

section
/-! # The register block and the host's accesses (20_memory.md R72, R75, R76, R80, R84). -/

namespace Sys2Proof.Machine

open Sys2Proof.Claims

/-! What the host reads -/

theorem Flags.word_eq_ofNat (f : Flags) :
    f.word = BitVec.ofNat 32 (f.eq.toNat + 2 * f.lt.toNat + 4 * f.t.toNat) := by
  obtain ⟨eq, lt, t⟩ := f
  cases eq <;> cases lt <;> cases t <;> rfl

/-- The model's map of the block is the map of R75. -/
theorem State.blockWord_eq_mappedWord (s : State) (offset : Nat) : s.blockWord offset = mappedWord s offset := by
  unfold State.blockWord
  split
  case h_2 => exact s.flags.word_eq_ofNat
  case h_3 => exact (BitVec.ofNat_toNat 32 s.fcode).symm
  case h_11 => simp_all only [mappedWord, imp_false, if_false]
  all_goals rfl

theorem alignedWord_iff {offset : BitVec 8} {width : Nat} :
    alignedWord offset width = true ↔ width = 4 ∧ offset.toNat % 4 = 0 := by
  simp [alignedWord]

theorem State.blockRead_eq (s : State) (offset : BitVec 8) (width : Nat) :
    s.blockRead offset width = if width = 4 ∧ offset.toNat % 4 = 0 then mappedWord s offset.toNat else 0 := by
  simp only [State.blockRead, alignedWord_iff, State.blockWord_eq_mappedWord]

/-! What the host writes -/

theorem isCommandWrite_eq_false {offset : BitVec 8} {width : Nat} (h : ¬ (width = 4 ∧ offset = 0)) :
    isCommandWrite offset width = false := by
  rw [Bool.eq_false_iff]
  simp only [isCommandWrite, ne_eq, Bool.and_eq_true, alignedWord_iff, beq_iff_eq]
  exact fun ⟨⟨hw, _⟩, ho⟩ => h ⟨hw, ho⟩

theorem State.blockWrite_eq (s : State) (offset : BitVec 8) (width : Nat) (v : Word) :
    s.blockWrite offset width v =
      if width = 4 ∧ offset = 0x14 then s.setArg0 v
      else if width = 4 ∧ offset = 0x18 then s.setArg1 v
      else s := by
  split_ifs with h0 h1
  · obtain ⟨rfl, rfl⟩ := h0
    rfl
  · obtain ⟨rfl, rfl⟩ := h1
    rfl
  · rw [State.blockWrite, ite_eq_right_iff]
    intro ha
    obtain ⟨hw, -⟩ := alignedWord_iff.1 ha
    rw [if_neg fun ho => h0 ⟨hw, ho⟩, if_neg fun ho => h1 ⟨hw, ho⟩]

/-! What a step does with an access -/

theorem step_read {s : State} {offset : BitVec 8} {width : Nat} {es : List HostEvent} (hr : s.running = none)
    (hp : s.pending = .read offset width :: es) :
    step s = .next ((s.setPending es).reply ((s.setPending es).blockRead offset width)) := step_serve hr hp

theorem step_write {s : State} {offset : BitVec 8} {width : Nat} {v : Word} {es : List HostEvent}
    (hr : s.running = none) (hp : s.pending = .write offset width v :: es) (hc : ¬ (width = 4 ∧ offset = 0)) :
    step s = .next ((s.setPending es).blockWrite offset width v) := by
  simp [step_serve hr hp, serveEvent, isCommandWrite_eq_false hc]

theorem step_of_running {s : State} {w : Word} (hr : s.running = some w) : step s = resumeCommand w s := by
  simp [step, stepUnit, hr]

theorem resumeCommand_otherHost {s : State} {es : List HostEvent} (hp : s.pending = .otherHost :: es) (w : Word) :
    resumeCommand w s = .refused .secondHost := by
  simp [resumeCommand, hp]

/-- Settles O10: the map of R75 is the model's block, and a write reaches ARG0, ARG1 or nothing. -/
theorem registerBlockAccess : Obligations.RegisterBlockAccess := by
  refine ⟨fun s offset width es hr hp => ?_, fun s offset width v es hr hp hc => ?_⟩
  · rw [step_read hr hp, State.blockRead_eq]
    rfl
  · rw [step_write hr hp hc, State.blockWrite_eq]
    rfl

/-- Settles O11: the access is refused when it is served and when it finds a command in progress. -/
theorem secondHostIsRefused : Obligations.SecondHostIsRefused := by
  intro s es hp
  cases hr : s.running with
  | none => exact step_serve hr hp
  | some w => rw [step_of_running hr, resumeCommand_otherHost hp]

theorem decode_encode_genprime (rd : Reg) : decode (encode (.genprime rd)) = .ok (.genprime rd) := by
  rw [decode, Laws.EncodedFields.genprime rd]
  rfl

/-- Settles O12: the step issues the word in progress again, and no command changes the queue or the answers. -/
theorem accessesWaitForTheRunningCommand : Obligations.AccessesWaitForTheRunningCommand := by
  intro s rd hf hr h₁ h₂
  have hstep : step s = exec (.genprime rd) (s.setRunning none) := by
    rw [step_resume hr h₁ h₂, issueCommand_ok (by exact hf) (decode_encode_genprime rd)]
  refine ⟨hstep, fun t ht => ?_⟩
  obtain ⟨-, -, -, -, hpending, hreplies, -⟩ := commandsKeepTheirFrame _ _ t (hstep ▸ ht)
  exact ⟨hpending, hreplies⟩

end Sys2Proof.Machine
end

section
/-! # One storage under limb and byte accesses (20_memory.md R62, R64; 40_storage.md R127 to R130). -/

namespace Sys2Proof

theorem Limbs.get_set_self {X : Limbs} {i : Nat} (h : i < X.length) (v : Word) : Limbs.get (X.set i v) i = v := by
  rw [Limbs.get_set, if_pos ⟨rfl, h⟩]

/-- Byte `4j + k` is byte k of limb j (R62). -/
theorem Limbs.getByte_four_mul_add (X : Limbs) (j : Nat) {k : Nat} (h : k < 4) :
    X.getByte (4 * j + k) = (X.get j).extractLsb' (8 * k) 8 := by
  have hdiv : (4 * j + k) / 4 = j := by omega
  have hmod : (4 * j + k) % 4 = k := by omega
  rw [Limbs.getByte, hdiv, hmod]

theorem zeroExtend_extractLsb'_byte (w : Word) (i : Nat) :
    (w.extractLsb' i 8).zeroExtend 32 = BitVec.ofNat 32 (w.toNat / 2 ^ i % 256) := by
  rw [← Nat.shiftRight_eq_div_pow]
  apply BitVec.eq_of_toNat_eq
  simp [BitVec.extractLsb'_toNat]

/-- `replaceByte` bit by bit: byte k is the new byte, every other bit the old one (R130). -/
theorem getLsbD_replaceByte (old : Word) (k : Nat) (c : BitVec 8) {m : Nat} (h : m < 32) :
    (replaceByte old k c).getLsbD m = if m / 8 = k then c.getLsbD (m % 8) else old.getLsbD m := by
  have hmask : (0xFF : Word) = BitVec.setWidth 32 (BitVec.allOnes 8) := rfl
  simp only [replaceByte, hmask, BitVec.getLsbD_or, BitVec.getLsbD_and, BitVec.getLsbD_not, BitVec.getLsbD_shiftLeft,
    BitVec.getLsbD_setWidth, BitVec.getLsbD_allOnes, h]
  split
  case isTrue hk =>
    have hlow : m - 8 * k = m % 8 := by omega
    have h8 : m % 8 < 8 := by omega
    have h32 : m % 8 < 32 := by omega
    have hge : ¬ m < 8 * k := by omega
    simp [hge, hlow, h8, h32]
  case isFalse hk =>
    rcases Nat.lt_or_ge m (8 * k) with hlt | hge
    · simp [hlt]
    · have hhigh : ¬ m - 8 * k < 8 := by omega
      simp [hhigh, BitVec.getLsbD_of_ge _ _ (not_lt.1 hhigh)]

namespace Machine

/-! The four access commands -/

theorem exec_getlimb (s : State) (r : Reg) :
    exec (.getlimb r) s = .next (s.setRes ((s.reg r).limbs.get s.arg0.toNat)) := rfl

theorem exec_getbyte (s : State) (r : Reg) :
    exec (.getbyte r) s = .next (s.setRes (((s.reg r).limbs.getByte s.arg0.toNat).zeroExtend 32)) := rfl

theorem exec_setlimb_of_lt {s : State} {r : Reg} (h : s.arg0.toNat < (s.reg r).cap) :
    exec (.setlimb r) s =
      .next ((s.setReg r { s.reg r with limbs := (s.reg r).limbs.set s.arg0.toNat s.arg1 }).setT true) := if_pos h

theorem exec_setbyte_of_lt {s : State} {r : Reg} (h : s.arg0.toNat / 4 < (s.reg r).cap) :
    exec (.setbyte r) s = .next ((s.setReg r { s.reg r with
      limbs := (s.reg r).limbs.set (s.arg0.toNat / 4) (replaceByte ((s.reg r).limbs.get (s.arg0.toNat / 4))
        (s.arg0.toNat % 4) (s.arg1.extractLsb' 0 8)) }).setT true) := if_pos h

/-! What one access leaves for the other -/

theorem get_after_setlimb {s t : State} {r : Reg} (h : s.arg0.toNat < (s.reg r).cap)
    (ht : exec (.setlimb r) s = .next t) : (t.reg r).limbs.get s.arg0.toNat = s.arg1 := by
  rw [exec_setlimb_of_lt h] at ht
  obtain rfl := Host.Outcome.next.inj ht
  simpa using Limbs.get_set_self h s.arg1

theorem get_after_setbyte {s t : State} {r : Reg} (h : s.arg0.toNat / 4 < (s.reg r).cap)
    (ht : exec (.setbyte r) s = .next t) :
    (t.reg r).limbs.get (s.arg0.toNat / 4) =
      replaceByte ((s.reg r).limbs.get (s.arg0.toNat / 4)) (s.arg0.toNat % 4) (s.arg1.extractLsb' 0 8) := by
  rw [exec_setbyte_of_lt h] at ht
  obtain rfl := Host.Outcome.next.inj ht
  simpa using Limbs.get_set_self h _

/-- Settles O29: either write leaves the limb the other access reads, and byte `4j + k` is byte k of limb j. -/
theorem mixedWidthAccessSeesOneStorage : Obligations.MixedWidthAccessSeesOneStorage := by
  refine fun s t r => ⟨fun k hk hcap hlt ht => ⟨_, exec_getbyte _ r, ?_⟩,
    fun hcap ht => ⟨_, exec_getlimb _ r, fun m hm => ?_⟩⟩
  · have hidx : (BitVec.ofNat 32 (4 * s.arg0.toNat + k)).toNat = 4 * s.arg0.toNat + k := by
      rw [BitVec.toNat_ofNat, Nat.mod_eq_of_lt hlt]
    have hbyte : (t.reg r).limbs.getByte (4 * s.arg0.toNat + k) = s.arg1.extractLsb' (8 * k) 8 := by
      rw [Limbs.getByte_four_mul_add _ _ hk, get_after_setlimb hcap ht]
    calc (((t.reg r).limbs.getByte (BitVec.ofNat 32 (4 * s.arg0.toNat + k)).toNat).zeroExtend 32)
        = (s.arg1.extractLsb' (8 * k) 8).zeroExtend 32 := by rw [hidx, hbyte]
      _ = BitVec.ofNat 32 (s.arg1.toNat / 2 ^ (8 * k) % 256) := zeroExtend_extractLsb'_byte _ _
  · have hidx : (BitVec.ofNat 32 (s.arg0.toNat / 4)).toNat = s.arg0.toNat / 4 := by
      rw [BitVec.toNat_ofNat, Nat.mod_eq_of_lt (by omega)]
    have hlow : (s.arg1.extractLsb' 0 8).getLsbD (m % 8) = s.arg1.getLsbD (m % 8) := by
      simp [Nat.mod_lt]
    calc ((t.reg r).limbs.get (BitVec.ofNat 32 (s.arg0.toNat / 4)).toNat).getLsbD m
        = (replaceByte ((s.reg r).limbs.get (s.arg0.toNat / 4)) (s.arg0.toNat % 4)
            (s.arg1.extractLsb' 0 8)).getLsbD m := by rw [hidx, get_after_setbyte hcap ht]
      _ = _ := by rw [getLsbD_replaceByte _ _ _ hm, hlow]

end Machine

end Sys2Proof
end

section
/-! # The command word: fields, masks, and the round trips between words and commands (30_encoding.md R91 to R104). -/

namespace Sys2Proof

open Machine Claims

/-! Words and fields -/

theorem wordOf_fieldsOf (w : Word) : wordOf (fieldsOf w) = w := by
  refine BitVec.eq_of_getLsbD_eq fun k hk => ?_
  simp only [wordOf, fieldsOf, BitVec.ofFin_toFin, BitVec.getLsbD_append, BitVec.getLsbD_extractLsb']
  grind

/-- The fields of a command are those of its word (R91 to R93). -/
theorem fieldsOf_encode (i : Instr) : fieldsOf (encode i) = fieldsFor i := Laws.EncodedFields.fieldsOf_wordOf _

theorem encode_eq_iff {i : Instr} {w : Word} : encode i = w ↔ fieldsFor i = fieldsOf w := by
  constructor
  · rintro rfl
    exact (fieldsOf_encode i).symm
  · intro h
    rw [encode, h, wordOf_fieldsOf]

theorem fieldsFor_op (i : Instr) : (fieldsFor i).op = opcodeOf i := by cases i <;> rfl

/-! The format checks (R92, R93): what passes has the fields of the format and no other -/

section Formats

variable {f : Fields} {i : Instr}

theorem decodeD_eq_ok {mk : Reg → Instr} :
    decodeD f mk = .ok i ↔ f = ⟨f.op, f.rd, 0, 0, 0, 0⟩ ∧ i = mk f.rd := by
  cases f
  grind [decodeD]

theorem decodeS_eq_ok {mk : Reg → Instr} :
    decodeS f mk = .ok i ↔ f = ⟨f.op, 0, f.rs1, 0, 0, 0⟩ ∧ i = mk f.rs1 := by
  cases f
  grind [decodeS]

theorem decodeDS_eq_ok {mk : Reg → Reg → Instr} :
    decodeDS f mk = .ok i ↔ f = ⟨f.op, f.rd, f.rs1, 0, 0, 0⟩ ∧ i = mk f.rd f.rs1 := by
  cases f
  grind [decodeDS]

theorem decodeSS_eq_ok {mk : Reg → Reg → Instr} :
    decodeSS f mk = .ok i ↔ f = ⟨f.op, 0, f.rs1, f.rs2, 0, 0⟩ ∧ i = mk f.rs1 f.rs2 := by
  cases f
  grind [decodeSS]

theorem decodeDSS_eq_ok {mk : Reg → Reg → Reg → Instr} :
    decodeDSS f mk = .ok i ↔ f = ⟨f.op, f.rd, f.rs1, f.rs2, 0, 0⟩ ∧ i = mk f.rd f.rs1 f.rs2 := by
  cases f
  grind [decodeDSS]

theorem decodeDSSS_eq_ok {mk : Reg → Reg → Reg → Reg → Instr} :
    decodeDSSS f mk = .ok i ↔ f = ⟨f.op, f.rd, f.rs1, f.rs2, f.rs3, 0⟩ ∧ i = mk f.rd f.rs1 f.rs2 f.rs3 := by
  cases f
  grind [decodeDSSS]

theorem rejectSameDestinations_eq_ok {r : Except Illegal Instr} :
    rejectSameDestinations f r = .ok i ↔ f.rd ≠ f.rs3 ∧ r = .ok i := by
  cases r with
  | error e => simp [rejectSameDestinations]
  | ok j => by_cases h : f.rd = f.rs3 <;> simp [rejectSameDestinations, h]

end Formats

/-- The command a word decodes to has the word's fields: each row's check leaves only the fields its command names. -/
theorem fieldsFor_of_decodeFields {f : Fields} {i : Instr} (h : decodeFields f = .ok i) :
    fieldsFor i = f ∧ i.wellFormed = true := by
  have hop : BitVec.ofNat 8 f.op.toNat = f.op := by simp
  unfold decodeFields at h
  split at h
  case h_22 hk => -- DIVREM: the row with the further check
    obtain ⟨hne, h⟩ := rejectSameDestinations_eq_ok.1 h
    obtain ⟨hf, rfl⟩ := decodeDSSS_eq_ok.1 h
    rw [hk] at hop
    exact ⟨by rw [hf, ← hop]; rfl, by simpa [Instr.wellFormed] using hne⟩
  case h_34 => cases h -- no row
  all_goals
    rename_i hk
    rw [hk] at hop
    simp only [decodeD_eq_ok, decodeS_eq_ok, decodeDS_eq_ok, decodeSS_eq_ok, decodeDSS_eq_ok, decodeDSSS_eq_ok] at h
    obtain ⟨hf, rfl⟩ := h
    rw [hf, ← hop]
    exact ⟨rfl, rfl⟩

theorem decodeFields_fieldsFor {i : Instr} (h : i.wellFormed = true) : decodeFields (fieldsFor i) = .ok i := by
  cases i with
  | divrem rd rs1 rs2 rs3 => exact if_neg (of_decide_eq_true h)
  | _ => rfl

/-- A word decodes to a command exactly when the command is well formed and its fields are those of the word. -/
theorem decode_eq_ok_iff {w : Word} {i : Instr} :
    decode w = .ok i ↔ fieldsFor i = fieldsOf w ∧ i.wellFormed = true :=
  ⟨fieldsFor_of_decodeFields, fun ⟨hf, hi⟩ => by rw [decode, ← hf, decodeFields_fieldsFor hi]⟩

/-- Settles O1: the word of a command has the command's fields. -/
theorem decodeOfEncodeIsTheCommand : Obligations.DecodeOfEncodeIsTheCommand :=
  fun i hi => decode_eq_ok_iff.2 ⟨(fieldsOf_encode i).symm, hi⟩

/-- Settles O2: a word is made of its fields, and they are those of the command it decodes to. -/
theorem encodeOfDecodeIsTheWord : Obligations.EncodeOfDecodeIsTheWord := by
  intro w i h
  obtain ⟨hf, hi⟩ := decode_eq_ok_iff.1 h
  exact ⟨encode_eq_iff.2 hf, hi⟩

/-! The masked table (R92, R96, R97) -/

/-- The format of a command's row (R92). -/
def formatOf : Instr → Format
  | .alloc _ | .free _ | .realloc _ | .setu32 _ | .setlimb _ | .setbyte _ | .setsign _ | .randl _ | .randbits _
  | .genprime _ => .D
  | .getlimb _ | .getbyte _ | .alen _ | .bitlen _ | .getsign _ | .isprime _ => .S
  | .copy _ _ | .copyc _ _ | .neg _ _ | .shl _ _ | .shr _ _ | .randmax _ _ => .DS
  | .cmp _ _ => .SS
  | .add _ _ _ | .sub _ _ _ | .mul _ _ _ | .div _ _ _ | .mod _ _ _ | .gcd _ _ _ | .lcm _ _ _ | .modinv _ _ _ => .DSS
  | .divrem _ _ _ _ | .modexp _ _ _ _ => .DSSS

theorem row_mem_opcodeTable (i : Instr) : ⟨opcodeOf i, formatOf i⟩ ∈ opcodeTable := by
  cases i <;> (simp only [opcodeOf, formatOf]; decide)

/-- The fields of a word under the mask of a format: those the format uses are gone. -/
def Format.masked : Format → Fields → Fields
  | .D, f => { f with rd := 0 }
  | .S, f => { f with rs1 := 0 }
  | .DS, f => { f with rd := 0, rs1 := 0 }
  | .SS, f => { f with rs1 := 0, rs2 := 0 }
  | .DSS, f => { f with rd := 0, rs1 := 0, rs2 := 0 }
  | .DSSS, f => { f with rd := 0, rs1 := 0, rs2 := 0, rs3 := 0 }

/-- `AND` of two words made of fields is `AND` of the fields. -/
theorem append_and_append (op op' z z' : BitVec 8) (a b c d a' b' c' d' : BitVec 4) :
    (op ++ a ++ b ++ c ++ d ++ z) &&& (op' ++ a' ++ b' ++ c' ++ d' ++ z') =
      (op &&& op') ++ (a &&& a') ++ (b &&& b') ++ (c &&& c') ++ (d &&& d') ++ (z &&& z') := by
  simp only [BitVec.and_append]

/-- A mask keeps op and z and acts on each register field by itself. -/
theorem wordOf_and_append (f : Fields) (a b c d : BitVec 4) :
    wordOf f &&& (BitVec.allOnes 8 ++ a ++ b ++ c ++ d ++ BitVec.allOnes 8) =
      wordOf ⟨f.op, (.ofFin f.rd &&& a).toFin, (.ofFin f.rs1 &&& b).toFin, (.ofFin f.rs2 &&& c).toFin,
        (.ofFin f.rs3 &&& d).toFin, f.z⟩ := by
  refine (append_and_append ..).trans ?_
  rw [BitVec.and_allOnes, BitVec.and_allOnes]
  rfl

theorem wordOf_and_mask (m : Format) (f : Fields) : wordOf f &&& m.mask = wordOf (m.masked f) := by
  have used : ∀ x : BitVec 4, x &&& 0 = 0 := fun _ => BitVec.and_zero
  have unused : ∀ x : BitVec 4, x &&& 15 = x := fun _ => BitVec.and_allOnes
  cases m with
  | D => exact (wordOf_and_append f 0 15 15 15).trans (by simp only [used, unused]; rfl)
  | S => exact (wordOf_and_append f 15 0 15 15).trans (by simp only [used, unused]; rfl)
  | DS => exact (wordOf_and_append f 0 0 15 15).trans (by simp only [used, unused]; rfl)
  | SS => exact (wordOf_and_append f 15 0 0 15).trans (by simp only [used, unused]; rfl)
  | DSS => exact (wordOf_and_append f 0 0 0 15).trans (by simp only [used, unused]; rfl)
  | DSSS => exact (wordOf_and_append f 0 0 0 0).trans (by simp only [used]; rfl)

theorem wordOf_opcode (op : BitVec 8) : wordOf ⟨op, 0, 0, 0, 0, 0⟩ = BitVec.ofNat 32 (op.toNat * 2 ^ 24) := by
  revert op; decide

theorem masked_fieldsFor (i : Instr) : (formatOf i).masked (fieldsFor i) = ⟨opcodeOf i, 0, 0, 0, 0, 0⟩ := by
  cases i <;> rfl

/-- Under the mask of its row the word of a command is `op * 2^24` (R92). -/
theorem encode_and_mask (i : Instr) :
    encode i &&& (formatOf i).mask = BitVec.ofNat 32 ((opcodeOf i).toNat * 2 ^ 24) := by
  rw [encode, wordOf_and_mask, masked_fieldsFor, wordOf_opcode]

/-- The one ill-formed form, read off the fields (R96, R99). -/
theorem wellFormed_iff (i : Instr) :
    i.wellFormed = true ↔ ¬ ((fieldsFor i).op = 0x30 ∧ (fieldsFor i).rd = (fieldsFor i).rs3) := by
  cases i with
  | divrem rd rs1 rs2 rs3 => simp [Instr.wellFormed, fieldsFor, opcodeOf]
  | _ => exact iff_of_true rfl fun ⟨h, _⟩ => absurd h (by simp [fieldsFor, opcodeOf])

/-- The same, read off the word of the command. -/
theorem wellFormed_iff_of_fieldsFor {w : Word} {i : Instr} (h : fieldsFor i = fieldsOf w) :
    i.wellFormed = true ↔ ¬ (w.extractLsb' 24 8 = 0x30 ∧ w.extractLsb' 20 4 = w.extractLsb' 8 4) := by
  rw [wellFormed_iff, h, ← BitVec.toFin_inj (x := w.extractLsb' 20 4)]
  rfl

/-- Settles O3: the row is the command's own, and the command's word under the row's mask is its opcode. -/
theorem decodingFollowsTheMaskedTable : Obligations.DecodingFollowsTheMaskedTable := by
  intro w i
  rw [decode_eq_ok_iff]
  constructor
  · rintro ⟨hf, hi⟩
    obtain rfl := encode_eq_iff.2 hf
    have hop : opcodeOf i = (encode i).extractLsb' 24 8 := (fieldsFor_op i).symm.trans (congrArg Fields.op hf)
    exact ⟨⟨_, row_mem_opcodeTable i, hop, encode_and_mask i⟩, (wellFormed_iff_of_fieldsFor hf).1 hi, hf⟩
  · rintro ⟨-, hne, hf⟩
    exact ⟨hf, (wellFormed_iff_of_fieldsFor hf).2 hne⟩

/-- Settles O4, by running the encoder and the decoder on the words of R103. -/
theorem workedEncodingsDecode : Obligations.WorkedEncodingsDecode := by
  unfold Obligations.WorkedEncodingsDecode
  decide

/-! The command write (R98, R104) -/

namespace Machine

section CommandWrite

variable {s : State} {w : Word} {es : List HostEvent}

theorem step_commandWrite (hr : s.running = none) (hp : s.pending = .write 0x00 4 w :: es) :
    step s = issueCommand w (s.setPending es) := by
  rw [step_serve hr hp, serveEvent_command]

theorem step_commandWrite_of_illegal {e : Illegal} (hready : s.Ready) (hp : s.pending = .write 0x00 4 w :: es)
    (hd : decode w = .error e) : step s = .next (faulted { s with pending := es } illegalCommand w) := by
  obtain ⟨hf, hr⟩ := hready
  rw [step_commandWrite hr hp]
  exact issueCommand_illegal (s := s.setPending es) hf hd

theorem step_commandWrite_of_not_decode (hready : s.Ready) (hp : s.pending = .write 0x00 4 w :: es)
    (h : ∀ i, decode w ≠ .ok i) : step s = .next (faulted { s with pending := es } illegalCommand w) := by
  cases hd : decode w with
  | error e => exact step_commandWrite_of_illegal hready hp hd
  | ok i => exact absurd hd (h i)

end CommandWrite

/-- Settles O5: ignored in the fault state, illegal, or the decoded command. -/
theorem commandWriteStep : Obligations.CommandWriteStep := by
  intro s w es hr hp
  refine ⟨fun hf => step_commandWrite_of_fault hf hr hp,
    fun hf e hd => step_commandWrite_of_illegal ⟨hf, hr⟩ hp hd, fun hf i hd => ?_⟩
  rw [step_commandWrite hr hp]
  exact issueCommand_ok (s := s.setPending es) hf hd

/-- The opcodes R98 lists as undefined. -/
def UndefinedOpcode (op : BitVec 8) : Prop :=
  op = 0x00 ∨ (0x13 ≤ op.toNat ∧ op.toNat ≤ 0x1F) ∨ (0x23 ≤ op.toNat ∧ op.toNat ≤ 0x2F) ∨
    (0x33 ≤ op.toNat ∧ op.toNat ≤ 0x3F) ∨ (0x45 ≤ op.toNat ∧ op.toNat ≤ 0x4F) ∨ (0x54 ≤ op.toNat ∧ op.toNat ≤ 0xFF)

theorem not_undefinedOpcode_of_mem : ∀ r ∈ opcodeTable, ¬ UndefinedOpcode r.op := by
  unfold UndefinedOpcode
  decide

theorem decode_ne_ok_of_undefinedOpcode {w : Word} (h : UndefinedOpcode (w.extractLsb' 24 8)) (i : Instr) :
    decode w ≠ .ok i := by
  intro hd
  obtain ⟨⟨r, hr, hop, -⟩, -⟩ := (decodingFollowsTheMaskedTable w i).1 hd
  exact not_undefinedOpcode_of_mem r hr (hop ▸ h)

/-- Settles O6: by the masked table (O3) none of the words decodes, the all-zero and the all-ones word for their opcode. -/
theorem illegalWordsRaiseIllegalCommand : Obligations.IllegalWordsRaiseIllegalCommand := by
  refine ⟨fun s w es hready hp hw => step_commandWrite_of_not_decode hready hp fun i hd => ?_,
    fun s w es hready hp hw => step_commandWrite_of_not_decode hready hp (decode_ne_ok_of_undefinedOpcode ?_)⟩
  · obtain ⟨⟨r, hr, -, hmask⟩, hne, -⟩ := (decodingFollowsTheMaskedTable w i).1 hd
    rcases hw with hrows | hsame
    · exact hrows r hr hmask
    · exact hne hsame
  · rcases hw with h | rfl | rfl
    · exact h
    all_goals
      unfold UndefinedOpcode
      decide

end Machine

end Sys2Proof
end

section
/-! # Storage, limb, byte and sign access: what each command stores or answers (40_storage.md R121 to R135). -/

namespace Sys2Proof

namespace Limbs

theorem get_set_of_lt {X : Limbs} {i : Nat} (h : i < X.length) (v : Word) (j : Nat) :
    Limbs.get (X.set i v) j = if j = i then v else X.get j := by
  simp only [get_set, h, and_true, eq_comm]

/-! Bytes -/

/-- The byte space is the little-endian image of the magnitude (20_memory.md R62, R68). -/
theorem toNat_get_div_mod (X : Limbs) (b : Nat) :
    (X.get (b / 4)).toNat / 2 ^ (8 * (b % 4)) % 256 = X.mag / 2 ^ (8 * b) % 256 := by
  have hbyte : (256 : Nat) = 2 ^ 8 := rfl
  rw [toNat_get, base_pow, base_eq, hbyte]
  apply Nat.eq_of_testBit_eq
  intro i
  simp only [Nat.testBit_mod_two_pow, Nat.testBit_div_two_pow]
  by_cases hi : i < 8
  · have hin : i + 8 * (b % 4) < 32 := by omega
    have hpos : i + 8 * (b % 4) + 32 * (b / 4) = i + 8 * b := by omega
    simp [hi, hin, hpos]
  · simp [hi]

theorem getByte_zeroExtend (X : Limbs) (b : Nat) :
    (X.getByte b).zeroExtend 32 = BitVec.ofNat 32 (X.mag / 2 ^ (8 * b) % 256) := by
  rw [getByte, zeroExtend_extractLsb'_byte, toNat_get_div_mod]

/-- `replaceByte` byte by byte (R130). -/
theorem extractLsb'_replaceByte (old : Word) (k : Nat) (c : BitVec 8) {k' : Nat} (h : k' < 4) :
    (replaceByte old k c).extractLsb' (8 * k') 8 = if k' = k then c else old.extractLsb' (8 * k') 8 := by
  apply BitVec.eq_of_getLsbD_eq
  intro i hi
  have hdiv : (8 * k' + i) / 8 = k' := by omega
  have hmod : (8 * k' + i) % 8 = i := by omega
  rw [BitVec.getLsbD_extractLsb', getLsbD_replaceByte _ _ _ (by omega), hdiv, hmod]
  split <;> simp [hi]

/-- Writing byte b changes byte b and no other: within the limb by `replaceByte`, in the other limbs by `set`. -/
theorem getByte_set_replaceByte {X : Limbs} {b : Nat} (h : b / 4 < X.length) (c : BitVec 8) (b' : Nat) :
    Limbs.getByte (X.set (b / 4) (replaceByte (X.get (b / 4)) (b % 4) c)) b' =
      if b' = b then c else X.getByte b' := by
  rw [getByte, get_set_of_lt h]
  by_cases hlimb : b' / 4 = b / 4
  · have hbyte : b' % 4 = b % 4 ↔ b' = b := by omega
    rw [if_pos hlimb, extractLsb'_replaceByte _ _ _ (Nat.mod_lt _ (by decide)), getByte, hlimb]
    simp only [hbyte]
  · have hne : b' ≠ b := by rintro rfl; exact hlimb rfl
    rw [if_neg hlimb, if_neg hne, getByte]

/-! Active length and bit length -/

theorem get_eq_zero_of_alen_le {X : Limbs} {j : Nat} (h : X.alen ≤ j) : X.get j = 0 := by
  apply BitVec.eq_of_toNat_eq
  rw [toNat_get, Nat.div_eq_of_lt (alen_le_iff.1 h)]
  rfl

theorem get_alen_sub_one_ne_zero {X : Limbs} (h : X.alen ≠ 0) : X.get (X.alen - 1) ≠ 0 := by
  have hsucc : X.alen - 1 + 1 = X.alen := by omega
  have hlow : Config.base ^ (X.alen - 1) ≤ X.mag := not_lt.1 fun hlt => by have := alen_le_iff.2 hlt; omega
  have hhigh : X.mag < Config.base ^ (X.alen - 1) * Config.base := by
    rw [← pow_succ, hsucc]
    exact mag_lt_base_pow_alen X
  have hpos : 0 < X.mag / Config.base ^ (X.alen - 1) := Nat.div_pos hlow (Nat.pow_pos base_pos)
  have hget := toNat_get X (X.alen - 1)
  rw [Nat.mod_eq_of_lt (Nat.div_lt_of_lt_mul hhigh)] at hget
  intro hzero
  rw [hzero] at hget
  exact hpos.ne hget

theorem bitlenOf_mag_le (X : Limbs) : bitlenOf X.mag ≤ 32 * X.length := by
  rw [bitlenOf_le_iff, ← base_pow]
  exact mag_lt X

end Limbs

theorem testBit_eq_false_of_bitlenOf_le {m k : Nat} (h : bitlenOf m ≤ k) : m.testBit k = false :=
  Nat.testBit_lt_two_pow (bitlenOf_le_iff.1 h)

theorem testBit_bitlenOf_sub_one {m : Nat} (h : bitlenOf m ≠ 0) : m.testBit (bitlenOf m - 1) = true := by
  have hm : m ≠ 0 := fun h0 => h (bitlenOf_eq_zero_iff.2 h0)
  simp [bitlenOf, hm, Nat.testBit_log2]

namespace Machine

open Claims

/-! Signs -/

theorem Sign.code_eq_ite (a : Sign) : a.code = if a = .positive then 0 else 1 := by cases a <;> rfl

theorem Sign.flip_eq_ite (a : Sign) : a.flip = if a = .positive then .negative else .positive := by cases a <;> rfl

theorem BigNum.val_flip (b : BigNum) : BigNum.val { b with sign := b.sign.flip } = -b.val := by
  obtain ⟨sign, limbs⟩ := b
  cases sign <;> simp [BigNum.val, BigNum.mag, Sign.flip]

/-! One rule per way these commands end: one register, one register and T, or AllocationFailure -/

section Rules

variable {s : State} {rd : Reg}

theorem stores_of_setReg {i : Instr} {b : BigNum} (h : exec i s = .next (s.setReg rd b)) : Stores rd b i s :=
  ⟨_, h, by simp, ⟨by simp [SameControl], rfl, rfl, regsExcept_setReg List.mem_cons_self s b⟩, rfl⟩

theorem setReg_setT_frame (s : State) (rd : Reg) (b : BigNum) :
    let t := (s.setReg rd b).setT true
    RegsExcept [rd] s t ∧ SameControl s t ∧ t.res = s.res ∧ t.draws = s.draws ∧
      t.flags = { s.flags with t := true } :=
  ⟨regsExcept_setReg List.mem_cons_self s b, by simp [SameControl], rfl, rfl, rfl⟩

theorem raises_of_raiseFault {i : Instr} {c : Cause} (h : exec i s = .next (s.raiseFault c (encode i))) :
    Raises c.code i s := h

/-! The outcome of each command in each of its cases -/

theorem exec_alloc_of_allocated (h : (s.reg rd).cap ≠ 0) : exec (.alloc rd) s = .next (s.setT false) := if_pos h

theorem exec_alloc_of_lt (h : (s.reg rd).cap = 0) (hn : s.maxcap < s.arg0.toNat) :
    exec (.alloc rd) s = .next (s.raiseFault .allocationFailure (encode (.alloc rd))) :=
  (if_neg (not_not.2 h)).trans (if_pos hn)

theorem exec_alloc_of_le (h : (s.reg rd).cap = 0) (hn : s.arg0.toNat ≤ s.maxcap) :
    exec (.alloc rd) s = .next ((s.setReg rd ⟨.positive, List.replicate s.arg0.toNat 0⟩).setT true) :=
  (if_neg (not_not.2 h)).trans (if_neg (not_lt.2 hn))

theorem exec_realloc_of_lt (hn : s.maxcap < s.arg0.toNat) :
    exec (.realloc rd) s = .next (s.raiseFault .allocationFailure (encode (.realloc rd))) := if_pos hn

theorem exec_realloc_of_le (hn : s.arg0.toNat ≤ s.maxcap) :
    exec (.realloc rd) s = .next (s.setReg rd ⟨(s.reg rd).sign, (s.reg rd).limbs.resize s.arg0.toNat⟩) :=
  if_neg (not_lt.2 hn)

theorem exec_copyc_of_lt {rs1 : Reg} (hn : s.maxcap < s.arg0.toNat) :
    exec (.copyc rd rs1) s = .next (s.raiseFault .allocationFailure (encode (.copyc rd rs1))) := if_pos hn

theorem exec_copyc_of_le {rs1 : Reg} (hn : s.arg0.toNat ≤ s.maxcap) :
    exec (.copyc rd rs1) s = .next (s.setReg rd ⟨(s.reg rs1).sign, (s.reg rs1).limbs.resize s.arg0.toNat⟩) :=
  if_neg (not_lt.2 hn)

theorem exec_setlimb_of_le (h : (s.reg rd).cap ≤ s.arg0.toNat) : exec (.setlimb rd) s = .next (s.setT false) :=
  if_neg (not_lt.2 h)

theorem exec_setbyte_of_le (h : (s.reg rd).cap ≤ s.arg0.toNat / 4) : exec (.setbyte rd) s = .next (s.setT false) :=
  if_neg (not_lt.2 h)

theorem exec_alen (s : State) (rs1 : Reg) :
    exec (.alen rs1) s = .next (s.setRes (BitVec.ofNat 32 (s.reg rs1).alen)) := rfl

theorem exec_bitlen (s : State) (rs1 : Reg) :
    exec (.bitlen rs1) s = .next (s.setRes (BitVec.ofNat 32 (s.reg rs1).bitlen)) := rfl

theorem exec_getsign (s : State) (rs1 : Reg) : exec (.getsign rs1) s = .next (s.setRes (s.reg rs1).sign.code) := rfl

theorem exec_neg (s : State) (rd rs1 : Reg) :
    exec (.neg rd rs1) s = .next (s.setReg rd { s.reg rs1 with sign := (s.reg rs1).sign.flip }) := rfl

/-! The bounds under which a length fits RES -/

theorem cap_lt_of_capsBounded (h : s.CapsBounded) (r : Reg) : (s.reg r).cap < 2 ^ 27 := by
  obtain ⟨-, hlimit, hcap⟩ := h
  calc (s.reg r).cap ≤ s.maxcap := hcap r
    _ ≤ Config.maxcapLimit := hlimit
    _ < 2 ^ 27 := by decide

theorem alen_lt_of_capsBounded (h : s.CapsBounded) (r : Reg) : (s.reg r).alen < 2 ^ 32 := by
  have hcap := cap_lt_of_capsBounded h r
  have halen := BigNum.alen_le_cap (s.reg r)
  omega

theorem bitlen_lt_of_capsBounded (h : s.CapsBounded) (r : Reg) : (s.reg r).bitlen < 2 ^ 32 := by
  have hcap := cap_lt_of_capsBounded h r
  have hbits : (s.reg r).bitlen ≤ 32 * (s.reg r).cap := Limbs.bitlenOf_mag_le _
  omega

end Rules

/-! The obligations -/

/-- Settles O22: the allocated register comes first, then the length check. -/
theorem allocReservesZeroLimbs : Obligations.AllocReservesZeroLimbs :=
  fun s rd => ⟨exec_alloc_of_allocated, fun h hn => raises_of_raiseFault (exec_alloc_of_lt h hn),
    fun h hn => ⟨_, exec_alloc_of_le h hn, by simp, setReg_setT_frame s rd _⟩⟩

/-- Settles O23: both commands are one register write. -/
theorem freeEmptiesAndCopyCopies : Obligations.FreeEmptiesAndCopyCopies :=
  fun _ _ _ => ⟨stores_of_setReg rfl, stores_of_setReg rfl⟩

/-- Settles O24: `resize` reads below the new capacity what `get` reads in the source. -/
theorem reallocAndCopycResize : Obligations.ReallocAndCopycResize := by
  intro s rd rs1 n
  have hresize : ∀ r : Reg, ∀ j < n, ((s.reg r).limbs.resize n).get j = (s.reg r).limbs.get j :=
    fun r j hj => (Limbs.get_resize _ _ _).trans (if_pos hj)
  refine ⟨fun hn => ⟨raises_of_raiseFault (exec_realloc_of_lt hn), raises_of_raiseFault (exec_copyc_of_lt hn)⟩,
    fun hn => ⟨⟨_, stores_of_setReg (exec_realloc_of_le hn), ?_, rfl, hresize rd⟩,
      ⟨_, stores_of_setReg (exec_copyc_of_le hn), ?_, rfl, hresize rs1⟩⟩⟩
  · exact Limbs.length_resize _ _
  · exact Limbs.length_resize _ _

/-- Settles O25: `get` is the limb below the capacity and 0 from the capacity on. -/
theorem setu32AndGetlimb : Obligations.Setu32AndGetlimb := by
  refine fun s rd rs1 => ⟨stores_of_setReg rfl, (exec_getlimb s rs1).trans ?_⟩
  split
  case isTrue h => rw [Limbs.get, List.getD_eq_getElem _ _ h]; rfl
  case isFalse h => rw [Limbs.get_of_length_le (not_lt.1 h)]; rfl

/-- Settles O26: below the capacity the list is `set` at ARG0, which keeps its length. -/
theorem setlimbWritesOneLimb : Obligations.SetlimbWritesOneLimb := by
  refine fun s rd => ⟨exec_setlimb_of_le, fun h =>
    ⟨_, exec_setlimb_of_lt h, by simp, by simp [BigNum.cap], fun j => ?_, setReg_setT_frame s rd _⟩⟩
  rw [State.setT_reg, State.setReg_reg_self]
  exact Limbs.get_set_of_lt h _ j

/-- Settles O27: byte b of the limbs is the byte of weight `2^(8b)` of the magnitude. -/
theorem getbyteReadsTheByteOfItsWeight : Obligations.GetbyteReadsTheByteOfItsWeight := by
  intro s rs1
  rw [exec_getbyte, Limbs.getByte_zeroExtend]
  rfl

/-- Settles O28: within the capacity one limb is `set` to itself with one byte replaced. -/
theorem setbyteWritesOneByte : Obligations.SetbyteWritesOneByte := by
  refine fun s rd => ⟨exec_setbyte_of_le, fun h =>
    ⟨_, exec_setbyte_of_lt h, by simp, by simp [BigNum.cap], fun b' => ?_, setReg_setT_frame s rd _⟩⟩
  rw [State.setT_reg, State.setReg_reg_self]
  exact Limbs.getByte_set_replaceByte h _ b'

/-- Settles O30: the active length and the bit length are the lengths RES reports. -/
theorem alenAndBitlenMeasure : Obligations.AlenAndBitlenMeasure :=
  fun s rs1 hs =>
    ⟨⟨_, exec_alen s rs1, alen_lt_of_capsBounded hs rs1, fun _ => Limbs.get_eq_zero_of_alen_le,
        Limbs.get_alen_sub_one_ne_zero⟩,
      ⟨_, exec_bitlen s rs1, bitlen_lt_of_capsBounded hs rs1, fun _ => testBit_eq_false_of_bitlenOf_le,
        testBit_bitlenOf_sub_one⟩⟩

/-- Settles O31: GETSIGN answers the tag, the other two write one register with the tag set or flipped. -/
theorem signCommands : Obligations.SignCommands := by
  refine fun s rd rs1 => ⟨?_, stores_of_setReg rfl, stores_of_setReg ?_, ⟨_, exec_neg s rd rs1, ?_⟩⟩
  · rw [exec_getsign, Sign.code_eq_ite]; rfl
  · rw [exec_neg, Sign.flip_eq_ite]
  · rw [State.setReg_reg_self, BigNum.val_flip]

end Machine

end Sys2Proof
end

section
/-! # Parts of a limb list, and Commit as the statements describe it (00_scope.md R14, R18; 10_state.md R30). -/

namespace Sys2Proof

/-- A digit below B does not carry into the digits above it. -/
theorem add_mul_lt_mul {B a c d : Nat} (ha : a < B) (h : c < d) : a + B * c < B * d :=
  calc a + B * c < B * (c + 1) := by rw [Nat.mul_succ]; omega
    _ ≤ B * d := Nat.mul_le_mul_left B h

namespace Limbs

/-! Magnitudes of parts of a limb list -/

theorem mag_take (X : Limbs) (n : Nat) : Limbs.mag (X.take n) = X.mag % Config.base ^ n := by
  induction n generalizing X with
  | zero => simp [Nat.mod_one]
  | succ n ih =>
    cases X with
    | nil => simp
    | cons l ls =>
      rw [List.take_succ_cons, mag_cons, ih, pow_succ', Nat.mod_mul, ← toNat_headD, ← mag_tail]
      rfl

theorem mag_drop (X : Limbs) (n : Nat) : Limbs.mag (X.drop n) = X.mag / Config.base ^ n := by
  induction n with
  | zero => simp
  | succ n ih => rw [← List.tail_drop, mag_tail, ih, Nat.div_div_eq_div_mul, pow_succ]

/-- The limbs from the active length on are zero. -/
theorem mag_take_alen (X : Limbs) : Limbs.mag (X.take X.alen) = X.mag := by
  rw [mag_take, Nat.mod_eq_of_lt (mag_lt_base_pow_alen X)]

/-- The limb n is the digit of weight `base ^ n`. -/
theorem mag_mod_base_pow_succ (X : Limbs) (n : Nat) :
    X.mag % Config.base ^ (n + 1) = X.mag % Config.base ^ n + Config.base ^ n * (X.get n).toNat := by
  rw [Nat.mod_pow_succ, toNat_get]

theorem mag_lt_mag_of_alen_lt {X Y : Limbs} (h : X.alen < Y.alen) : X.mag < Y.mag :=
  (mag_lt_base_pow_alen X).trans_le (not_lt.1 fun hY => not_le.2 h (alen_le_iff.2 hY))

end Limbs

theorem lt_base_pow_limbCount_of_lt {m bits : Nat} (h : m < 2 ^ bits) : m < Config.base ^ limbCount bits := by
  rw [base_pow]
  exact h.trans_le (Nat.pow_le_pow_right (by decide) (limbCount_le_iff.1 le_rfl))

namespace Machine

open Claims

section Commit

variable {s : State} {d : Reg} {sg : Sign} {L : Limbs} {i : Instr}

theorem writesOnly_write : WritesOnly [d] s (s.write d sg L) :=
  ⟨by simp [SameControl], rfl, rfl, fun _ hj => State.write_reg_ne s d sg L (by simpa using hj)⟩

theorem tagged_write : Tagged s.draws ((s.write d sg L).reg d) (s.write d sg L).draws := by
  rw [Tagged, State.write_mag]
  split_ifs with h
  · rw [State.write_reg_self, State.write_draws, commitSign_of_eq h]
    exact ⟨rfl, rfl⟩
  · exact State.write_draws_of_ne s d sg L h

/-- A command that ends in a commit within MAXCAP completes with the value and the length it commits. -/
theorem commits_of_commit {v : Int} {n : Nat} (h : exec i s = .next (s.commit (encode i) d sg L))
    (hL : L.length ≤ s.maxcap) (hv : (⟨sg, L⟩ : BigNum).val = v) (hn : L.length = n) : Commits d v n i s :=
  ⟨s.write d sg L, h.trans (congrArg _ (State.commit_of_le hL)), (State.write_val s d sg L).trans hv,
    (State.write_cap s d sg L).trans hn, writesOnly_write, tagged_write⟩

end Commit

theorem tightCap_eq_limbCount (m : Nat) : tightCap m = limbCount (bitlenOf m) := by
  rw [bitlenOf_eq_size]
  rfl

end Machine

end Sys2Proof
end

section
/-! # Comparison and shifts: CMP, SHL and SHR by the values of their operands (41_compare_shift.md R160 to R166). -/

namespace Sys2Proof

/-! The weights of R163 -/

/-- A shift by `k div 32` limbs and then by `k mod 32` bits is a shift by k bits (R163). -/
theorem base_pow_div_mul_two_pow_mod (k : Nat) : Config.base ^ (k / 32) * 2 ^ (k % 32) = 2 ^ k := by
  rw [base_pow, ← pow_add, Nat.div_add_mod]

theorem base_eq_two_pow_mul {r : Nat} (hr : r < 32) : Config.base = 2 ^ r * 2 ^ (32 - r) := by
  rw [base_eq, ← pow_add, Nat.add_sub_cancel' hr.le]

namespace Machine

open Claims

/-! Comparison -/

/-- The limb loop of `ucmp` compares what the limbs below n hold. -/
theorem ucmpFrom_eq_compare (X Y : Limbs) (n : Nat) :
    ucmpFrom X Y n = compare (X.mag % Config.base ^ n) (Y.mag % Config.base ^ n) := by
  have hmod : ∀ m k, m % Config.base ^ k < Config.base ^ k := fun m k => Nat.mod_lt _ (Nat.pow_pos base_pos)
  induction n with
  | zero => simp [ucmpFrom, Nat.mod_one]
  | succ n ih =>
    rw [Limbs.mag_mod_base_pow_succ, Limbs.mag_mod_base_pow_succ, ucmpFrom]
    rcases lt_trichotomy (X.get n).toNat (Y.get n).toNat with hlt | heq | hgt
    · rw [if_pos hlt, eq_comm, compare_lt_iff_lt]
      exact (add_mul_lt_mul (hmod _ n) hlt).trans_le (Nat.le_add_left _ _)
    · rw [if_neg heq.not_lt, if_neg heq.not_gt, ih, heq]
      simp only [compare, compareOfLessAndEq, Nat.add_lt_add_iff_right, Nat.add_right_cancel_iff]
    · rw [if_neg hgt.not_gt, if_pos hgt, eq_comm, compare_gt_iff_gt]
      exact (add_mul_lt_mul (hmod _ n) hgt).trans_le (Nat.le_add_left _ _)

/-- Settles O32: a longer active length is a greater magnitude, and at equal lengths the limb loop decides. -/
theorem ucmpComparesMagnitudes : Obligations.UcmpComparesMagnitudes := by
  intro X Y
  rw [ucmp]
  rcases lt_trichotomy X.alen Y.alen with hlt | heq | hgt
  · rw [if_pos hlt, compare_lt_iff_lt.2 (Limbs.mag_lt_mag_of_alen_lt hlt)]
  · rw [if_neg heq.not_lt, if_neg heq.not_gt, ucmpFrom_eq_compare,
      Nat.mod_eq_of_lt (Limbs.mag_lt_base_pow_alen X), heq, Nat.mod_eq_of_lt (Limbs.mag_lt_base_pow_alen Y)]
  · rw [if_neg hgt.not_gt, if_pos hgt, compare_gt_iff_gt.2 (Limbs.mag_lt_mag_of_alen_lt hgt)]

theorem ucmp_compares (X Y : Limbs) : (ucmp X Y).Compares X.mag Y.mag :=
  (compare_iff _ _).1 (ucmpComparesMagnitudes X Y).symm

theorem compares_natCast {o : Ordering} {m n : Nat} : o.Compares (m : Int) (n : Int) ↔ o.Compares m n := by
  cases o <;> simp [Ordering.Compares]

theorem compares_neg {o : Ordering} {a b : Int} : o.Compares (-a) (-b) ↔ o.Compares b a := by
  cases o <;> simp [Ordering.Compares, eq_comm]

theorem Sign.eq_negative_of_ne {a : Sign} (h : a ≠ .positive) : a = .negative := by
  cases a
  · exact absurd rfl h
  · rfl

theorem BigNum.val_pos {b : BigNum} (h : b.sign = .positive) (h0 : b.mag ≠ 0) : 0 < b.val := by
  rw [val_positive h]
  omega

theorem BigNum.val_neg {b : BigNum} (h : b.sign ≠ .positive) (h0 : b.mag ≠ 0) : b.val < 0 := by
  rw [val_negative (Sign.eq_negative_of_ne h)]
  omega

/-- The case order of R161: zeros, then differing signs, then magnitudes. -/
theorem scmp_compares (a b : BigNum) : (scmp a b).Compares a.val b.val := by
  unfold scmp
  split_ifs with hzero ha hbpos hb hapos hsign hapos hapos
  · exact (BigNum.val_eq_zero_iff.2 hzero.1).trans (BigNum.val_eq_zero_iff.2 hzero.2).symm
  · exact (BigNum.val_eq_zero_iff.2 ha).trans_lt (BigNum.val_pos hbpos fun hb => hzero ⟨ha, hb⟩)
  · exact (BigNum.val_neg hbpos fun hb => hzero ⟨ha, hb⟩).trans_eq (BigNum.val_eq_zero_iff.2 ha).symm
  · exact (BigNum.val_eq_zero_iff.2 hb).trans_lt (BigNum.val_pos hapos ha)
  · exact (BigNum.val_neg hapos ha).trans_eq (BigNum.val_eq_zero_iff.2 hb).symm
  · exact (BigNum.val_neg (fun hbpos => hsign (hapos.trans hbpos.symm)) hb).trans (BigNum.val_pos hapos ha)
  · have hbpos : b.sign = .positive := by
      by_contra hbneg
      exact hsign ((Sign.eq_negative_of_ne hapos).trans (Sign.eq_negative_of_ne hbneg).symm)
    exact (BigNum.val_neg hapos ha).trans (BigNum.val_pos hbpos hb)
  · rw [BigNum.val_positive hapos, BigNum.val_positive ((not_not.1 hsign).symm.trans hapos), compares_natCast]
    exact ucmp_compares a.limbs b.limbs
  · have haneg := Sign.eq_negative_of_ne hapos
    rw [BigNum.val_negative haneg, BigNum.val_negative ((not_not.1 hsign).symm.trans haneg), compares_neg,
      compares_natCast, Ordering.compares_swap]
    exact ucmp_compares a.limbs b.limbs

theorem exec_cmp (s : State) (rs1 rs2 : Reg) :
    exec (.cmp rs1 rs2) s = .next (s.setFlags (s.flags.compare (scmp (s.reg rs1) (s.reg rs2)))) := rfl

theorem Flags.compare_of_compares {f : Flags} {o : Ordering} {a b : Int} (h : o.Compares a b) :
    f.compare o = ⟨decide (a = b), decide (a < b), f.t⟩ := by
  simp only [Flags.compare, h.eq_eq, h.eq_lt]

/-- Settles O33: the order CMP finds is the order of the values, and it writes EQ and LT by it. -/
theorem cmpComparesValues : Obligations.CmpComparesValues := fun s rs1 rs2 => by
  rw [exec_cmp, Flags.compare_of_compares (scmp_compares _ _)]
  rfl

/-! The two-pass shifts on limb lists -/

/-- The 64-bit accumulator of the left shift does not overflow. -/
theorem toNat_shl_add_carry {r : Nat} (hr : r < 32) (x : Word) {c : DWord} (hc : c.toNat < 2 ^ r) :
    ((x.setWidth 64 <<< r) + c).toNat = x.toNat * 2 ^ r + c.toNat := by
  have hpow : 2 ^ r ≤ 2 ^ 31 := Nat.pow_le_pow_right (by decide) (by omega)
  have hsum : x.toNat * 2 ^ r + c.toNat < 2 ^ 64 := by
    have := add_mul_lt_mul hc x.isLt
    linarith
  have hwidth : (x.setWidth 64).toNat = x.toNat := BitVec.toNat_setWidth_of_le (by decide)
  rw [BitVec.toNat_add, BitVec.toNat_shiftLeft, hwidth, Nat.shiftLeft_eq, Nat.mod_add_mod, Nat.mod_eq_of_lt hsum]

theorem ushlPass_succ (r n : Nat) (X : Limbs) (c : DWord) :
    ushlPass r (n + 1) X c = BitVec.setWidth 32 (((X.headD 0).setWidth 64 <<< r) + c) ::
      ushlPass r n X.tail ((((X.headD 0).setWidth 64 <<< r) + c) >>> 32) := rfl

/-- The pass inside the limbs shifts the n limbs it reads, with the carry below them. -/
theorem mag_ushlPass {r : Nat} (hr : r < 32) (n : Nat) (X : Limbs) {c : DWord} (hc : c.toNat < 2 ^ r) :
    (ushlPass r n X c).mag = X.mag % Config.base ^ n * 2 ^ r + c.toNat := by
  induction n generalizing X c with
  | zero =>
    have hword : c.toNat < 2 ^ 32 := hc.trans (Nat.pow_lt_pow_right (by decide) hr)
    rw [ushlPass, Limbs.mag_cons, BitVec.toNat_setWidth, Nat.mod_eq_of_lt hword]
    simp [Nat.mod_one]
  | succ n ih =>
    have ht := toNat_shl_add_carry hr (X.headD 0) hc
    have hlt : (X.headD 0).toNat * 2 ^ r + c.toNat < Config.base * 2 ^ r := by
      have := add_mul_lt_mul hc (word_lt_base (X.headD 0))
      linarith
    have hcarry : ((((X.headD 0).setWidth 64 <<< r) + c) >>> 32).toNat =
        ((X.headD 0).toNat * 2 ^ r + c.toNat) / Config.base := by
      rw [BitVec.toNat_ushiftRight, ht, Nat.shiftRight_eq_div_pow, base_eq]
    have hdigits := Nat.mod_add_div ((X.headD 0).toNat * 2 ^ r + c.toNat) Config.base
    rw [ushlPass_succ, Limbs.mag_cons, ih _ (hcarry ▸ Nat.div_lt_of_lt_mul hlt), hcarry, BitVec.toNat_setWidth, ht,
      ← base_eq, Limbs.mag_tail, pow_succ', Nat.mod_mul, ← Limbs.toNat_headD]
    linear_combination hdigits

/-- The bits that a limb takes from the limb above it are the low bits of all that stands above it. -/
theorem toNat_ushrPass_limb {r : Nat} (hr : r < 32) (y : Word) (ys : Limbs) :
    (BitVec.ofNat 32 (y.toNat / 2 ^ r + ((ys.headD 0).toNat % 2 ^ r * 2 ^ (32 - r)) % Config.base)).toNat =
      y.toNat / 2 ^ r + Limbs.mag ys % 2 ^ r * 2 ^ (32 - r) := by
  have hbase := base_eq_two_pow_mul hr
  have hhead : (ys.headD 0).toNat % 2 ^ r = Limbs.mag ys % 2 ^ r := by
    rw [Limbs.toNat_headD, hbase, Nat.mod_mul_right_mod]
  have hlow : Limbs.mag ys % 2 ^ r < 2 ^ r := Nat.mod_lt _ (Nat.two_pow_pos r)
  have hhigh : y.toNat / 2 ^ r < 2 ^ (32 - r) := Nat.div_lt_of_lt_mul (hbase ▸ word_lt_base y)
  have hsum : y.toNat / 2 ^ r + Limbs.mag ys % 2 ^ r * 2 ^ (32 - r) < Config.base := by
    have := add_mul_lt_mul hhigh hlow
    linarith
  rw [hhead, Nat.mod_eq_of_lt ((Nat.le_add_left _ _).trans_lt hsum), ofNat_toNat_base, Nat.mod_eq_of_lt hsum]

theorem mag_ushrPass {r : Nat} (hr : r < 32) (X : Limbs) : (ushrPass r X).mag = X.mag / 2 ^ r := by
  induction X with
  | nil => simp [ushrPass]
  | cons y ys ih =>
    have hdigits := Nat.mod_add_div (Limbs.mag ys) (2 ^ r)
    have hdiv : (y.toNat + Config.base * Limbs.mag ys) / 2 ^ r = y.toNat / 2 ^ r + 2 ^ (32 - r) * Limbs.mag ys := by
      rw [base_eq_two_pow_mul hr, mul_assoc, Nat.add_mul_div_left _ _ (Nat.two_pow_pos r)]
    rw [ushrPass, Limbs.mag_cons, toNat_ushrPass_limb hr, ih, Limbs.mag_cons, hdiv, base_eq_two_pow_mul hr]
    linear_combination 2 ^ (32 - r) * hdigits

theorem mag_ushl (X : Limbs) (k : Nat) : (ushl X k).mag = X.mag * 2 ^ k := by
  have hr : k % 32 < 32 := Nat.mod_lt _ (by decide)
  have hcarry : (0 : DWord).toNat = 0 := rfl
  rw [ushl, Limbs.mag_append, Limbs.mag_replicate_zero, List.length_replicate,
    mag_ushlPass hr X.alen X (c := 0) (Nat.two_pow_pos _),
    Nat.mod_eq_of_lt (Limbs.mag_lt_base_pow_alen X), ← base_pow_div_mul_two_pow_mod k, hcarry]
  ring

theorem mag_ushr (X : Limbs) (k : Nat) : (ushr X k).mag = X.mag / 2 ^ k := by
  rw [ushr, ← base_pow_div_mul_two_pow_mod k]
  split_ifs with hall
  · have hlt : X.mag < Config.base ^ (k / 32) := Limbs.alen_le_iff.1 hall
    rw [← Nat.div_div_eq_div_mul, Nat.div_eq_of_lt hlt, Nat.zero_div, Limbs.mag_nil]
  · rw [mag_ushrPass (Nat.mod_lt _ (by decide)), Limbs.mag_drop, Limbs.mag_take_alen, Nat.div_div_eq_div_mul]

/-- Settles O34: the whole-limb pass and the pass inside the limbs, one after the other, in either direction. -/
theorem limbShiftsAreExact : Obligations.LimbShiftsAreExact := fun X k => ⟨mag_ushl X k, mag_ushr X k⟩

/-! SHL and SHR -/

theorem BigNum.val_of_mag_eq_mul {b : BigNum} {L : Limbs} {k : Nat} (h : L.mag = b.mag * 2 ^ k) :
    (⟨b.sign, L⟩ : BigNum).val = b.val * 2 ^ k := by
  obtain ⟨sign, limbs⟩ := b
  cases sign <;> simp [BigNum.val, BigNum.mag, h]

theorem BigNum.val_of_mag_eq_div {b : BigNum} {L : Limbs} {k : Nat} (h : L.mag = b.mag / 2 ^ k) :
    (⟨b.sign, L⟩ : BigNum).val = b.val.tdiv (2 ^ k) := by
  obtain ⟨sign, limbs⟩ := b
  cases sign <;> simp [BigNum.val, BigNum.mag, h, Int.neg_tdiv]

theorem exec_shl (s : State) (rd rs1 : Reg) : exec (.shl rd rs1) s =
    .next (s.conclude (encode (.shl rd rs1)) rd (shlResult s.maxcap (s.reg rs1) s.arg0.toNat)) := rfl

theorem exec_shr (s : State) (rd rs1 : Reg) : exec (.shr rd rs1) s =
    .next (s.commit (encode (.shr rd rs1)) rd (s.reg rs1).sign (Limbs.tight (shrMag (s.reg rs1) s.arg0.toNat))) := rfl

theorem shlResult_of_zero {maxcap : Nat} {b : BigNum} {k : Nat} (h : b.mag = 0) :
    shlResult maxcap b k = .ok (b.sign, []) := if_pos h

theorem shlResult_of_lt {maxcap : Nat} {b : BigNum} {k : Nat} (h : b.mag ≠ 0)
    (hn : maxcap < limbCount (b.bitlen + k)) : shlResult maxcap b k = .error .allocationFailure :=
  (if_neg h).trans (if_pos hn)

theorem shlResult_of_le {maxcap : Nat} {b : BigNum} {k : Nat} (h : b.mag ≠ 0)
    (hn : limbCount (b.bitlen + k) ≤ maxcap) :
    shlResult maxcap b k = .ok (b.sign, Limbs.ofMag (b.mag * 2 ^ k) (limbCount (b.bitlen + k))) :=
  (if_neg h).trans (if_neg (not_lt.2 hn))

/-- The limbs SHL commits hold every bit of the shifted magnitude (R164). -/
theorem mag_ofMag_shl (b : BigNum) (k : Nat) :
    (Limbs.ofMag (b.mag * 2 ^ k) (limbCount (b.bitlen + k))).mag = b.mag * 2 ^ k := by
  refine Limbs.mag_ofMag_of_lt (lt_base_pow_limbCount_of_lt ?_)
  rw [pow_add]
  exact Nat.mul_lt_mul_of_pos_right (lt_two_pow_bitlenOf b.mag) (Nat.two_pow_pos k)

/-- Settles O35: a zero operand commits no limb; any other is refused by its length or commits the exact product. -/
theorem shlIsExact : Obligations.ShlIsExact := by
  intro s rd rs1 k n
  by_cases hzero : (s.reg rs1).mag = 0
  · have hn : n = 0 := if_pos hzero
    have hexec := exec_shl s rd rs1
    rw [shlResult_of_zero hzero, State.conclude_ok] at hexec
    refine ⟨fun _ => commits_of_commit hexec (Nat.zero_le _) ?_ hn.symm, fun h => absurd h (by omega)⟩
    exact BigNum.val_of_mag_eq_mul (by rw [hzero, Nat.zero_mul, Limbs.mag_nil])
  · have hn : n = limbCount ((s.reg rs1).bitlen + k) := by
      rw [BigNum.bitlen, bitlenOf_eq_size]
      exact if_neg hzero
    rw [hn]
    have hexec := exec_shl s rd rs1
    refine ⟨fun h => ?_, fun h => ?_⟩
    · rw [shlResult_of_le hzero h, State.conclude_ok] at hexec
      exact commits_of_commit hexec ((Limbs.length_ofMag _ _).trans_le h)
        (BigNum.val_of_mag_eq_mul (mag_ofMag_shl _ k)) (Limbs.length_ofMag _ _)
    · rw [shlResult_of_lt hzero h, State.conclude_error] at hexec
      exact raises_of_raiseFault hexec

theorem shrMag_eq_div (b : BigNum) (k : Nat) : shrMag b k = b.mag / 2 ^ k := by
  rw [shrMag]
  split_ifs with h
  · exact (Nat.div_eq_of_lt (bitlenOf_le_iff.1 h)).symm
  · rfl

/-- Settles O36: the quotient is no longer than the operand, and the sign in front makes the division truncate. -/
theorem shrRoundsTowardZero : Obligations.ShrRoundsTowardZero := by
  intro s rd rs1 hs k
  obtain ⟨-, -, hcap⟩ := hs
  have hfit : (Limbs.tight ((s.reg rs1).mag / 2 ^ k)).length ≤ s.maxcap := by
    rw [Limbs.length_tight_le_iff]
    calc (s.reg rs1).mag / 2 ^ k ≤ (s.reg rs1).mag := Nat.div_le_self _ _
      _ < Config.base ^ (s.reg rs1).cap := Limbs.mag_lt _
      _ ≤ Config.base ^ s.maxcap := Nat.pow_le_pow_right base_pos (hcap rs1)
  have hexec := exec_shr s rd rs1
  rw [shrMag_eq_div] at hexec
  exact commits_of_commit hexec hfit (BigNum.val_of_mag_eq_div (Limbs.mag_tight _))
    ((Limbs.length_tight _).trans (tightCap_eq_limbCount _).symm)

end Machine

end Sys2Proof
end

section
/-! # Addition and subtraction: the carry and borrow chains, and ADD and SUB over them (42_addsub.md R180 to R186). -/

namespace Sys2Proof

namespace Limbs

/-- The n + 1 lowest limbs are the head and the n lowest limbs of the tail. -/
theorem mag_mod_base_pow_succ_eq_headD (X : Limbs) (n : Nat) :
    X.mag % Config.base ^ (n + 1) = (X.headD 0).toNat + Config.base * (Limbs.mag X.tail % Config.base ^ n) := by
  rw [pow_succ', Nat.mod_mul, ← toNat_headD, ← mag_tail]

theorem mag_mod_base_pow_of_alen_le {X : Limbs} {n : Nat} (h : X.alen ≤ n) : X.mag % Config.base ^ n = X.mag :=
  Nat.mod_eq_of_lt (alen_le_iff.1 h)

theorem alen_le_alen_of_mag_le {X Y : Limbs} (h : Y.mag ≤ X.mag) : Y.alen ≤ X.alen :=
  alen_le_iff.2 (h.trans_lt (mag_lt_base_pow_alen X))

end Limbs

namespace Machine

open Claims

/-! The carry chain (R180) -/

theorem length_uaddLoop (n : Nat) (X Y : Limbs) (carry : DWord) : (uaddLoop n X Y carry).length = n + 1 := by
  induction n generalizing X Y carry with
  | zero => rfl
  | succ n ih => rw [uaddLoop, List.length_cons, ih]

/-- One limb of the sum: the 64-bit intermediate holds it and the carry out, which is again 0 or 1. -/
theorem add_limb_carry (x y : Word) {carry : DWord} (hc : carry.toNat ≤ 1) :
    let t := x.setWidth 64 + y.setWidth 64 + carry
    (t.setWidth 32).toNat + Config.base * (t >>> 32).toNat = x.toNat + y.toNat + carry.toNat ∧
      (t >>> 32).toNat ≤ 1 := by
  have hx := x.isLt
  have hy := y.isLt
  simp only [base_eq, BitVec.toNat_setWidth, BitVec.toNat_ushiftRight, BitVec.toNat_add, Nat.shiftRight_eq_div_pow]
  omega

/-- The chain adds the n limbs it reads of each operand, and the carry in. -/
theorem mag_uaddLoop (n : Nat) (X Y : Limbs) {carry : DWord} (hc : carry.toNat ≤ 1) :
    (uaddLoop n X Y carry).mag = X.mag % Config.base ^ n + Y.mag % Config.base ^ n + carry.toNat := by
  induction n generalizing X Y carry with
  | zero =>
    have hword : carry.toNat < 2 ^ 32 := by omega
    rw [uaddLoop, Limbs.mag_cons, BitVec.toNat_setWidth, Nat.mod_eq_of_lt hword]
    simp [Nat.mod_one]
  | succ n ih =>
    obtain ⟨hlimb, hout⟩ := add_limb_carry (X.headD 0) (Y.headD 0) hc
    rw [uaddLoop, Limbs.mag_cons, ih _ _ hout, Limbs.mag_mod_base_pow_succ_eq_headD X,
      Limbs.mag_mod_base_pow_succ_eq_headD Y]
    linear_combination hlimb

theorem length_uadd (X Y : Limbs) : (uadd X Y).length = max X.alen Y.alen + 1 := length_uaddLoop _ _ _ _

theorem mag_uadd (X Y : Limbs) : (uadd X Y).mag = X.mag + Y.mag := by
  rw [uadd, mag_uaddLoop _ _ _ (carry := 0) (Nat.zero_le 1), Limbs.mag_mod_base_pow_of_alen_le (le_max_left _ _),
    Limbs.mag_mod_base_pow_of_alen_le (le_max_right _ _)]
  rfl

/-! The borrow chain (R181) -/

theorem length_usubLoop (n : Nat) (X Y : Limbs) (borrow : DWord) : (usubLoop n X Y borrow).length = n := by
  induction n generalizing X Y borrow with
  | zero => rfl
  | succ n ih => rw [usubLoop, List.length_cons, ih]

/-- One limb of the difference: bit 63 of the wrapped 64-bit difference is the borrow out, which is again 0 or 1. -/
theorem sub_limb_borrow (x y : Word) {borrow : DWord} (hb : borrow.toNat ≤ 1) :
    let t := x.setWidth 64 - y.setWidth 64 - borrow
    (t.setWidth 32).toNat + y.toNat + borrow.toNat = x.toNat + Config.base * (t >>> 63).toNat ∧
      (t >>> 63).toNat ≤ 1 := by
  have hx := x.isLt
  have hy := y.isLt
  simp only [base_eq, BitVec.toNat_setWidth, BitVec.toNat_ushiftRight, BitVec.toNat_sub, Nat.shiftRight_eq_div_pow]
  omega

/-- The chain subtracts the n limbs it reads of Y, and the borrow in, where those of X cover both. -/
theorem mag_usubLoop_add (n : Nat) (X Y : Limbs) {borrow : DWord} (hb : borrow.toNat ≤ 1)
    (hle : Y.mag % Config.base ^ n + borrow.toNat ≤ X.mag % Config.base ^ n) :
    (usubLoop n X Y borrow).mag + Y.mag % Config.base ^ n + borrow.toNat = X.mag % Config.base ^ n := by
  induction n generalizing X Y borrow with
  | zero =>
    have hzero : borrow.toNat = 0 := by simpa [Nat.mod_one] using hle
    simp [usubLoop, Nat.mod_one, hzero]
  | succ n ih =>
    obtain ⟨hlimb, hout⟩ := sub_limb_borrow (X.headD 0) (Y.headD 0) hb
    have hdigit := word_lt_base (((X.headD 0).setWidth 64 - (Y.headD 0).setWidth 64 - borrow).setWidth 32)
    rw [Limbs.mag_mod_base_pow_succ_eq_headD X, Limbs.mag_mod_base_pow_succ_eq_headD Y] at hle ⊢
    have hcover : Config.base * (Limbs.mag Y.tail % Config.base ^ n +
        (((X.headD 0).setWidth 64 - (Y.headD 0).setWidth 64 - borrow) >>> 63).toNat) <
        Config.base * (Limbs.mag X.tail % Config.base ^ n + 1) := by linarith
    have hrest := ih _ _ hout (Nat.lt_succ_iff.1 (Nat.lt_of_mul_lt_mul_left hcover))
    rw [usubLoop, Limbs.mag_cons]
    linear_combination hlimb + Config.base * hrest

theorem length_usub (X Y : Limbs) : (usub X Y).length = max X.alen Y.alen := length_usubLoop _ _ _ _

theorem mag_usub {X Y : Limbs} (h : Y.mag ≤ X.mag) : (usub X Y).mag = X.mag - Y.mag := by
  have hloop := mag_usubLoop_add (max X.alen Y.alen) X Y (borrow := 0) (Nat.zero_le 1)
  rw [Limbs.mag_mod_base_pow_of_alen_le (le_max_left _ _), Limbs.mag_mod_base_pow_of_alen_le (le_max_right _ _)]
    at hloop
  exact Nat.eq_sub_of_add_eq (hloop h)

/-- Settles O37: the two chains over the longer active length; the subtrahend's is not longer than the minuend's. -/
theorem carryAndBorrowChainsAreExact : Obligations.CarryAndBorrowChainsAreExact := fun X Y =>
  ⟨⟨mag_uadd X Y, length_uadd X Y⟩, fun h =>
    ⟨mag_usub h, (length_usub X Y).trans (max_eq_left (Limbs.alen_le_alen_of_mag_le h))⟩⟩

/-! Signed addition (R182) -/

theorem Sign.eq_flip_iff {a b : Sign} : a = b.flip ↔ ¬ a = b := by cases a <;> cases b <;> decide

theorem BigNum.val_of_mag_eq_add {a b : BigNum} {L : Limbs} (hsign : b.sign = a.sign) (h : L.mag = a.mag + b.mag) :
    (⟨a.sign, L⟩ : BigNum).val = a.val + b.val := by
  cases ha : a.sign with
  | positive =>
    rw [val_positive rfl, val_positive ha, val_positive (hsign.trans ha), ← Nat.cast_add, ← h]
    rfl
  | negative =>
    rw [val_negative rfl, val_negative ha, val_negative (hsign.trans ha), ← neg_add, ← Nat.cast_add, ← h]
    rfl

theorem BigNum.val_of_mag_eq_sub {a b : BigNum} {L : Limbs} (hsign : b.sign = a.sign.flip) (hle : b.mag ≤ a.mag)
    (h : L.mag = a.mag - b.mag) : (⟨a.sign, L⟩ : BigNum).val = a.val + b.val := by
  have hmag : ((⟨a.sign, L⟩ : BigNum).mag : Int) = a.mag - b.mag := by rw [← Nat.cast_sub hle, ← h]; rfl
  cases ha : a.sign with
  | positive =>
    rw [ha] at hsign hmag
    rw [val_positive rfl, val_positive ha, val_negative hsign, hmag, sub_eq_add_neg]
  | negative =>
    rw [ha] at hsign hmag
    rw [val_negative rfl, val_negative ha, val_positive hsign, hmag, neg_sub, sub_eq_neg_add]

/-- Equal signs add the magnitudes; different signs take the smaller from the greater, under the greater's sign. -/
theorem sadd_val (a b : BigNum) : (⟨(sadd a b).1, (sadd a b).2⟩ : BigNum).val = a.val + b.val := by
  have hcmp := ucmp_compares a.limbs b.limbs
  unfold sadd
  split_ifs with hsign
  · exact BigNum.val_of_mag_eq_add hsign.symm (mag_uadd _ _)
  · split
    case h_1 hlt =>
      have hle := (hcmp.eq_lt.1 hlt).le
      rw [add_comm]
      exact BigNum.val_of_mag_eq_sub (Sign.eq_flip_iff.2 hsign) hle (mag_usub hle)
    case h_2 heq =>
      have hle := (hcmp.eq_eq.1 heq).ge
      exact BigNum.val_of_mag_eq_sub (Sign.eq_flip_iff.2 (Ne.symm hsign)) hle (mag_usub hle)
    case h_3 hgt =>
      have hle := (hcmp.eq_gt.1 hgt).le
      exact BigNum.val_of_mag_eq_sub (Sign.eq_flip_iff.2 (Ne.symm hsign)) hle (mag_usub hle)

/-- The capacity of R184. -/
theorem length_sadd (a b : BigNum) :
    (sadd a b).2.length = if a.sign = b.sign then max a.alen b.alen + 1 else max a.alen b.alen := by
  unfold sadd
  split_ifs with hsign
  · exact length_uadd _ _
  · split
    · exact (length_usub _ _).trans (max_comm _ _)
    all_goals exact length_usub _ _

/-! ADD and SUB -/

theorem exec_add (s : State) (rd rs1 rs2 : Reg) : exec (.add rd rs1 rs2) s =
    .next (s.commit (encode (.add rd rs1 rs2)) rd (sadd (s.reg rs1) (s.reg rs2)).1
      (sadd (s.reg rs1) (s.reg rs2)).2) := rfl

theorem exec_sub (s : State) (rd rs1 rs2 : Reg) : exec (.sub rd rs1 rs2) s =
    .next (s.commit (encode (.sub rd rs1 rs2)) rd
      (sadd (s.reg rs1) { s.reg rs2 with sign := (s.reg rs2).sign.flip }).1
      (sadd (s.reg rs1) { s.reg rs2 with sign := (s.reg rs2).sign.flip }).2) := rfl

/-- A command that ends in a commit beyond MAXCAP raises AllocationFailure. -/
theorem raises_of_commit {i : Instr} {s : State} {d : Reg} {sg : Sign} {L : Limbs}
    (h : exec i s = .next (s.commit (encode i) d sg L)) (hL : s.maxcap < L.length) : Raises allocationFailure i s :=
  raises_of_raiseFault (h.trans (congrArg _ (State.commit_of_lt hL)))

/-- A command that commits a signed sum is exact where the sum's capacity is within MAXCAP, and faults elsewhere. -/
theorem commits_or_raises_of_commit_sadd {i : Instr} {s : State} {d : Reg} {a b : BigNum} {n : Nat}
    (h : exec i s = .next (s.commit (encode i) d (sadd a b).1 (sadd a b).2)) (hn : (sadd a b).2.length = n) :
    (n ≤ s.maxcap → Commits d (a.val + b.val) n i s) ∧ (s.maxcap < n → Raises allocationFailure i s) :=
  ⟨fun hle => commits_of_commit h (hn.trans_le hle) (sadd_val a b) hn,
    fun hlt => raises_of_commit h (hlt.trans_eq hn.symm)⟩

/-- Settles O38: ADD commits the signed sum of its operands. -/
theorem addIsExact : Obligations.AddIsExact := fun s rd rs1 rs2 =>
  commits_or_raises_of_commit_sadd (exec_add s rd rs1 rs2) (length_sadd _ _)

/-- Settles O39: SUB commits the signed sum of its first operand and the second with its sign flipped. -/
theorem subIsExact : Obligations.SubIsExact := by
  intro s rd rs1 rs2 a b n
  have hlength : (sadd a { b with sign := b.sign.flip }).2.length = n := by
    rw [length_sadd]
    simp only [Sign.eq_flip_iff, ite_not]
    rfl
  rw [sub_eq_add_neg, ← BigNum.val_flip]
  exact commits_or_raises_of_commit_sadd (exec_sub s rd rs1 rs2) hlength

end Machine

end Sys2Proof
end

section
/-! # Multiplication: the partial products, the schoolbook accumulation, and MUL (43_multiply.md R200 to R203). -/

namespace Sys2Proof

/-- A product is at most one bit shorter than its factors together, so the length R202 checks first is a lower bound. -/
theorem bitlenOf_add_sub_one_le {m n : Nat} (hm : m ≠ 0) (hn : n ≠ 0) :
    bitlenOf m + bitlenOf n - 1 ≤ bitlenOf (m * n) := by
  have hm0 : bitlenOf m ≠ 0 := mt bitlenOf_eq_zero_iff.1 hm
  have hn0 : bitlenOf n ≠ 0 := mt bitlenOf_eq_zero_iff.1 hn
  have htop : 2 ^ (bitlenOf m - 1 + (bitlenOf n - 1)) ≤ m * n := by
    rw [pow_add]
    exact Nat.mul_le_mul (two_pow_le_of_bitlenOf hm) (two_pow_le_of_bitlenOf hn)
  have hlt : bitlenOf m - 1 + (bitlenOf n - 1) < bitlenOf (m * n) := by
    rw [← not_le, bitlenOf_le_iff]
    exact not_lt.2 htop
  omega

theorem limbCount_mono {b c : Nat} (h : b ≤ c) : limbCount b ≤ limbCount c :=
  limbCount_le_iff.2 (h.trans (limbCount_le_iff.1 le_rfl))

namespace Machine

open Claims

/-! One partial product (R200) -/

theorem length_mulLimbLoop (d : Word) (n : Nat) (X : Limbs) (carry : DWord) :
    (mulLimbLoop d n X carry).length = n + 1 := by
  induction n generalizing X carry with
  | zero => rfl
  | succ n ih => rw [mulLimbLoop, List.length_cons, ih]

/-- One limb of the product: the 64-bit intermediate holds it and the carry out, which is again one limb. -/
theorem mul_limb_carry (x d : Word) {carry : DWord} (hc : carry.toNat < Config.base) :
    let t := x.setWidth 64 * d.setWidth 64 + carry
    (t.setWidth 32).toNat + Config.base * (t >>> 32).toNat = x.toNat * d.toNat + carry.toNat ∧
      (t >>> 32).toNat < Config.base := by
  have hprod : x.toNat * d.toNat ≤ (2 ^ 32 - 1) * (2 ^ 32 - 1) :=
    Nat.mul_le_mul (Nat.le_sub_one_of_lt x.isLt) (Nat.le_sub_one_of_lt d.isLt)
  have hwidth (w : Word) : (w.setWidth 64).toNat = w.toNat := BitVec.toNat_setWidth_of_le (by decide)
  simp only [base_eq] at hc
  simp only [base_eq, BitVec.toNat_setWidth, BitVec.toNat_ushiftRight, BitVec.toNat_add, BitVec.toNat_mul, hwidth,
    Nat.shiftRight_eq_div_pow]
  omega

/-- The loop multiplies the n limbs it reads, and adds the carry in. -/
theorem mag_mulLimbLoop (d : Word) (n : Nat) (X : Limbs) {carry : DWord} (hc : carry.toNat < Config.base) :
    (mulLimbLoop d n X carry).mag = X.mag % Config.base ^ n * d.toNat + carry.toNat := by
  induction n generalizing X carry with
  | zero =>
    rw [mulLimbLoop, Limbs.mag_cons, BitVec.toNat_setWidth, ← base_eq, Nat.mod_eq_of_lt hc]
    simp [Nat.mod_one]
  | succ n ih =>
    obtain ⟨hlimb, hout⟩ := mul_limb_carry (X.headD 0) d hc
    rw [mulLimbLoop, Limbs.mag_cons, ih _ hout, Limbs.mag_mod_base_pow_succ_eq_headD X]
    linear_combination hlimb

theorem length_mulLimb (X : Limbs) (d : Word) (i : Nat) : (mulLimb X d i).length = i + X.alen + 1 := by
  rw [mulLimb, List.length_append, List.length_replicate, length_mulLimbLoop, Nat.add_assoc]

theorem mag_mulLimb (X : Limbs) (d : Word) (i : Nat) :
    (mulLimb X d i).mag = X.mag * d.toNat * Config.base ^ i := by
  have hloop := mag_mulLimbLoop d X.alen X (carry := 0) base_pos
  rw [Limbs.mag_mod_base_pow_of_alen_le le_rfl] at hloop
  rw [mulLimb, Limbs.mag_append, Limbs.mag_replicate_zero, List.length_replicate, hloop, Nat.zero_add, Nat.mul_comm]
  rfl

/-! The product accumulator (R201) -/

/-- Where the sum holds X times the limbs of Y below i, k more partial products extend it to the limbs below i + k. -/
theorem mag_umulLoop {X Y S : Limbs} (k : Nat) {i : Nat} (hS : S.mag = X.mag * (Y.mag % Config.base ^ i)) :
    (umulLoop X Y k i S).mag = X.mag * (Y.mag % Config.base ^ (i + k)) := by
  induction k generalizing i S with
  | zero => exact hS
  | succ k ih =>
    have hnext : (uadd S (mulLimb X (Y.get i) i)).mag = X.mag * (Y.mag % Config.base ^ (i + 1)) := by
      rw [mag_uadd, mag_mulLimb, hS, Limbs.mag_mod_base_pow_succ]
      ring
    rw [umulLoop, ih hnext, Nat.add_right_comm, Nat.add_assoc]

theorem mag_umul (X Y : Limbs) : (umul X Y).mag = X.mag * Y.mag := by
  have hstart : Limbs.mag [] = X.mag * (Y.mag % Config.base ^ 0) := by simp [Nat.mod_one]
  rw [umul, mag_umulLoop Y.alen hstart, Nat.zero_add, Limbs.mag_mod_base_pow_of_alen_le le_rfl]

/-- Settles O40: the carry chain of one partial product, and the sum over the limbs of Y as an invariant. -/
theorem schoolbookProductIsExact : Obligations.SchoolbookProductIsExact :=
  ⟨fun X d i => ⟨base_pow i ▸ mag_mulLimb X d i, length_mulLimb X d i⟩, mag_umul⟩

/-! MUL (R202) -/

theorem BigNum.val_of_mag_eq_mul_mag {a b : BigNum} {L : Limbs} (h : L.mag = a.mag * b.mag) :
    (⟨a.sign.xor b.sign, L⟩ : BigNum).val = a.val * b.val := by
  have hmag : (L.mag : Int) = a.mag * b.mag := by rw [h, Nat.cast_mul]
  obtain ⟨signA, limbsA⟩ := a
  obtain ⟨signB, limbsB⟩ := b
  simp only [BigNum.mag] at hmag
  cases signA <;> cases signB <;> simp [BigNum.val, BigNum.mag, Sign.xor, hmag]

/-- MUL's result is the tight product, or a refusal before the product is formed, where it needs more than MAXCAP
limbs; the short circuit of a zero operand leaves the tight list of the zero product. -/
theorem mulResult_cases (maxcap : Nat) (a b : BigNum) :
    mulResult maxcap a b = .ok (a.sign.xor b.sign, Limbs.tight (a.mag * b.mag)) ∨
    (maxcap < tightCap (a.mag * b.mag) ∧ mulResult maxcap a b = .error .allocationFailure) := by
  rw [mulResult]
  split_ifs with hzero hlong
  · rw [Nat.mul_eq_zero.2 hzero]
    exact .inl rfl
  · rw [not_or] at hzero
    rw [tightCap_eq_limbCount]
    exact .inr ⟨hlong.trans_le (limbCount_mono (bitlenOf_add_sub_one_le hzero.1 hzero.2)), rfl⟩
  · rw [mag_umul]
    exact .inl rfl

/-- A command that ends in a product is exact where the tight product is within MAXCAP, and faults elsewhere. -/
theorem commits_or_raises_of_mulResult {i : Instr} {s : State} {d : Reg} {a b : BigNum}
    (h : exec i s = .next (s.conclude (encode i) d (mulResult s.maxcap a b))) :
    (tightCap (a.mag * b.mag) ≤ s.maxcap → Commits d (a.val * b.val) (tightCap (a.mag * b.mag)) i s) ∧
    (s.maxcap < tightCap (a.mag * b.mag) → Raises allocationFailure i s) := by
  have hlength : (Limbs.tight (a.mag * b.mag)).length = tightCap (a.mag * b.mag) :=
    (Limbs.length_tight _).trans (tightCap_eq_limbCount _).symm
  rcases mulResult_cases s.maxcap a b with hok | ⟨hlong, herror⟩
  · rw [hok, State.conclude_ok] at h
    exact ⟨fun hle => commits_of_commit h (hlength.trans_le hle)
        (BigNum.val_of_mag_eq_mul_mag (Limbs.mag_tight _)) hlength,
      fun hlt => raises_of_commit h (hlt.trans_eq hlength.symm)⟩
  · rw [herror, State.conclude_error] at h
    exact ⟨fun hle => absurd hlong (not_lt.2 hle), fun _ => raises_of_raiseFault h⟩

theorem exec_mul (s : State) (rd rs1 rs2 : Reg) : exec (.mul rd rs1 rs2) s =
    .next (s.conclude (encode (.mul rd rs1 rs2)) rd (mulResult s.maxcap (s.reg rs1) (s.reg rs2))) := rfl

/-- Settles O41: MUL concludes with the product of its operands. -/
theorem mulIsExact : Obligations.MulIsExact := fun s rd rs1 rs2 =>
  commits_or_raises_of_mulResult (exec_mul s rd rs1 rs2)

end Machine

end Sys2Proof
end

section
/-! # Division by one limb (44_divide.md R215). -/

namespace Sys2Proof

/-- One step of long division by D in base B: the remainder of the higher digits stands for them in the next window. -/
theorem add_mul_div_mod {B D : Nat} (hD : 0 < D) (u T : Nat) :
    (u + B * T) / D = (u + B * (T % D)) / D + B * (T / D) ∧ (u + B * T) % D = (u + B * (T % D)) % D := by
  have hsplit : u + B * T = u + B * (T % D) + D * (B * (T / D)) := by
    calc u + B * T = u + B * (T % D + D * (T / D)) := by rw [Nat.mod_add_div]
      _ = _ := by ring
  rw [hsplit, Nat.add_mul_div_left _ _ hD, Nat.add_mul_mod_self_left]
  exact ⟨rfl, rfl⟩

namespace Machine

/-- One digit: the 64-bit running remainder holds the window, whose quotient is again one limb. -/
theorem divLimb_digit {d : Word} (hd : 0 < d.toNat) (u : Word) {r : DWord} (hr : r.toNat < d.toNat) :
    let t := (r <<< 32) + u.setWidth 64
    ((t / d.setWidth 64).setWidth 32).toNat = (u.toNat + Config.base * r.toNat) / d.toNat ∧
      (t % d.setWidth 64).toNat = (u.toNat + Config.base * r.toNat) % d.toNat := by
  have hu := u.isLt
  have hdlt := d.isLt
  have hwindow : ((r <<< 32) + u.setWidth 64).toNat = u.toNat + Config.base * r.toNat := by
    simp only [base_eq, BitVec.toNat_add, BitVec.toNat_shiftLeft, BitVec.toNat_setWidth, Nat.shiftLeft_eq]
    omega
  have hdivisor : (d.setWidth 64).toNat = d.toNat := BitVec.toNat_setWidth_of_le (by decide)
  have hdigit : (u.toNat + Config.base * r.toNat) / d.toNat < 2 ^ 32 := by
    rw [Nat.div_lt_iff_lt_mul hd]
    exact add_mul_lt_mul (word_lt_base u) hr
  simp only [BitVec.toNat_setWidth _ (_ / _), BitVec.toNat_udiv, BitVec.toNat_umod, hwindow, hdivisor,
    Nat.mod_eq_of_lt hdigit, and_self]

theorem divLimbLoop_spec {d : Word} (hd : 0 < d.toNat) (X : Limbs) :
    (divLimbLoop d X).1.mag = X.mag / d.toNat ∧ (divLimbLoop d X).2.toNat = X.mag % d.toNat := by
  induction X with
  | nil => simp [divLimbLoop]
  | cons u us ih =>
    obtain ⟨hquot, hrem⟩ := ih
    obtain ⟨hdigit, hnext⟩ := divLimb_digit hd u (hrem.trans_lt (Nat.mod_lt _ hd))
    obtain ⟨hdiv, hmod⟩ := add_mul_div_mod (B := Config.base) hd u.toNat (Limbs.mag us)
    rw [divLimbLoop, Limbs.mag_cons, Limbs.mag_cons, hdiv, hmod, hdigit, hnext, hquot, hrem]
    exact ⟨rfl, rfl⟩

/-- Settles O42: digit by digit, over the limbs below the active length. -/
theorem divLimbIsDivision : Obligations.DivLimbIsDivision := by
  intro U d hd
  have hpos : 0 < d.toNat := Nat.pos_of_ne_zero fun h => hd (BitVec.eq_of_toNat_eq h)
  obtain ⟨hquot, hrem⟩ := divLimbLoop_spec hpos (U.take U.alen)
  rw [Limbs.mag_take_alen] at hquot hrem
  exact Prod.ext hquot hrem

end Machine

end Sys2Proof
end

section
/-! # Knuth's Algorithm D (44_divide.md R216). -/

namespace Sys2Proof.Machine

/-! Lists of digits -/

theorem digitsMag_eq_ofDigits (l : List Nat) : digitsMag l = Nat.ofDigits Config.base l := by
  induction l with
  | nil => rfl
  | cons d ds ih => rw [digitsMag, Nat.ofDigits_cons, ih]

theorem digitsMag_map_toNat (L : Limbs) : digitsMag (L.map BitVec.toNat) = L.mag := by
  induction L with
  | nil => rfl
  | cons l ls ih => rw [List.map_cons, digitsMag, ih, Limbs.mag_cons]

/-- `l` is a list of n digits to the base `b`. -/
structure Digits (n : Nat) (l : List Nat) : Prop where
  length_eq : l.length = n
  lt_base : ∀ d ∈ l, d < Config.base

theorem digits_cons {n d : Nat} {l : List Nat} : Digits (n + 1) (d :: l) ↔ d < Config.base ∧ Digits n l := by
  constructor
  · rintro ⟨hlength, hdigits⟩
    obtain ⟨hd, hl⟩ := List.forall_mem_cons.1 hdigits
    exact ⟨hd, Nat.succ.inj hlength, hl⟩
  · rintro ⟨hd, hlength, hl⟩
    exact ⟨congrArg (· + 1) hlength, List.forall_mem_cons.2 ⟨hd, hl⟩⟩

theorem digits_map_ofMag (m n : Nat) : Digits n ((Limbs.ofMag m n).map BitVec.toNat) :=
  ⟨(List.length_map _).trans (Limbs.length_ofMag m n), fun d hd => by
    obtain ⟨w, -, rfl⟩ := List.mem_map.1 hd
    exact word_lt_base w⟩

theorem digitsMag_map_ofMag {m n : Nat} (h : m < Config.base ^ n) :
    digitsMag ((Limbs.ofMag m n).map BitVec.toNat) = m := by
  rw [digitsMag_map_toNat, Limbs.mag_ofMag_of_lt h]

namespace Digits

variable {n : Nat} {l : List Nat}

theorem mag_lt (h : Digits n l) : digitsMag l < Config.base ^ n := by
  rw [digitsMag_eq_ofDigits, ← h.length_eq]
  exact Nat.ofDigits_lt_base_pow_length (by decide) h.lt_base

theorem take (h : Digits n l) {k : Nat} (hk : k ≤ n) : Digits k (l.take k) :=
  ⟨by rw [List.length_take, h.length_eq, min_eq_left hk], fun d hd => h.lt_base d (List.mem_of_mem_take hd)⟩

theorem drop (h : Digits n l) (k : Nat) : Digits (n - k) (l.drop k) :=
  ⟨by rw [List.length_drop, h.length_eq], fun d hd => h.lt_base d (List.mem_of_mem_drop hd)⟩

theorem mag_take (h : Digits n l) (k : Nat) : digitsMag (l.take k) = digitsMag l % Config.base ^ k := by
  rw [digitsMag_eq_ofDigits, digitsMag_eq_ofDigits, Nat.ofDigits_mod_pow_eq_ofDigits_take k base_pos l h.lt_base]

theorem mag_drop (h : Digits n l) (k : Nat) : digitsMag (l.drop k) = digitsMag l / Config.base ^ k := by
  rw [digitsMag_eq_ofDigits, digitsMag_eq_ofDigits, Nat.ofDigits_div_pow_eq_ofDigits_drop k base_pos l h.lt_base]

theorem getD_eq (h : Digits n l) (j : Nat) : l.getD j 0 = digitsMag l / Config.base ^ j % Config.base := by
  rw [← h.mag_drop]
  rcases hdrop : l.drop j with _ | ⟨d, ds⟩
  · rw [List.getD_eq_default _ _ (List.drop_eq_nil_iff.1 hdrop)]
    rfl
  · have hget : l[j]? = some d := by rw [← List.head?_drop, hdrop]; rfl
    rw [List.getD_eq_getElem?_getD, hget, Option.getD_some, digitsMag, Nat.add_mul_mod_self_left,
      Nat.mod_eq_of_lt (h.lt_base d (List.mem_of_getElem? hget))]

/-- Above the top digit there is nothing to cut off. -/
theorem top_div (h : Digits (n + 1) l) : digitsMag l / Config.base ^ n % Config.base = digitsMag l / Config.base ^ n :=
  Nat.mod_eq_of_lt ((Nat.div_lt_iff_lt_mul (Nat.pow_pos base_pos)).2 (h.mag_lt.trans_eq (pow_succ' _ _)))

end Digits

/-! The estimate of a digit -/

/-- The digits k for which k times the divisor's top two digits, v1 and v2, is at most the window's top three: `num`
and, below it, u0. -/
def Estimates (v1 v2 num u0 : Nat) : Set Nat :=
  {k | k < Config.base ∧ k * (v1 * Config.base + v2) ≤ num * Config.base + u0}

/-- The test of the correction loop is the test of an estimate. -/
theorem mem_estimates {v1 v2 num u0 q r : Nat} (hnum : q * v1 + r = num) :
    q ∈ Estimates v1 v2 num u0 ↔ q < Config.base ∧ q * v2 ≤ r * Config.base + u0 := by
  have hleft : q * (v1 * Config.base + v2) = q * v1 * Config.base + q * v2 := by ring
  have hright : num * Config.base + u0 = q * v1 * Config.base + (r * Config.base + u0) := by rw [← hnum]; ring
  rw [Estimates, Set.mem_ofPred_eq, hleft, hright, Nat.add_le_add_iff_left]

theorem sub_one_mem_upperBounds {S : Set Nat} {q : Nat} (hupper : q ∈ upperBounds S) (hnot : q ∉ S) :
    q - 1 ∈ upperBounds S := fun _ hx =>
  Nat.le_sub_one_of_lt (lt_of_le_of_ne (hupper hx) fun h => hnot (h ▸ hx))

/-- From an upper bound down, the correction stops at the greatest estimate: where `rhat` no longer fits a limb the test
would pass, and the rounds left carry `rhat` there. -/
theorem isGreatest_knuthCorrect {v1 v2 num u0 : Nat} (htop : num < (v1 + 1) * Config.base) (hv2 : v2 < Config.base)
    (n : Nat) {q r : Nat} (hnum : q * v1 + r = num) (hr : r < Config.base) (hrounds : Config.base ≤ r + n * v1)
    (hupper : q ∈ upperBounds (Estimates v1 v2 num u0)) :
    IsGreatest (Estimates v1 v2 num u0) (knuthCorrect v1 v2 u0 n q r) := by
  induction n generalizing q r with
  | zero => omega
  | succ n ih =>
    have htest := mem_estimates (v2 := v2) (u0 := u0) hnum
    rw [knuthCorrect]
    by_cases hover : Config.base ≤ q ∨ r * Config.base + u0 < q * v2
    · have hnot : q ∉ Estimates v1 v2 num u0 := fun hq => by have := htest.1 hq; omega
      have hpos : q ≠ 0 := by
        rintro rfl
        have := base_pos
        omega
      have hbelow := sub_one_mem_upperBounds hupper hnot
      have hnext : (q - 1) * v1 + (r + v1) = num := by
        rw [← hnum, Nat.sub_one_mul, ← Nat.sub_add_cancel (Nat.le_mul_of_pos_left v1 (Nat.pos_of_ne_zero hpos))]
        omega
      rw [if_pos hover]
      split_ifs with hcarry
      · have hlimb : q - 1 < Config.base := by
          by_contra hge
          have := Nat.mul_le_mul_right v1 (not_lt.1 hge)
          rw [Nat.succ_mul, Nat.mul_comm v1] at htop
          omega
        refine ⟨(mem_estimates hnext).2 ⟨hlimb, ?_⟩, hbelow⟩
        calc (q - 1) * v2 ≤ Config.base * Config.base := Nat.mul_le_mul hlimb.le hv2.le
          _ ≤ (r + v1) * Config.base := Nat.mul_le_mul_right _ hcarry
          _ ≤ _ := Nat.le_add_right _ _
      · exact ih hnext (not_le.1 hcarry) (by rw [Nat.succ_mul] at hrounds; omega) hbelow
    · rw [if_neg hover]
      exact ⟨htest.2 (by omega), hupper⟩

/-- Three rounds are enough for a normalized divisor, whose top digit is at least half the base. -/
theorem isGreatest_knuthEstimate {v1 v2 u2 u1 u0 : Nat} (hnorm : Config.base ≤ 2 * v1) (hv1 : v1 < Config.base)
    (hv2 : v2 < Config.base) (hu2 : u2 ≤ v1) (hu1 : u1 < Config.base) (hu0 : u0 < Config.base) :
    IsGreatest (Estimates v1 v2 (u2 * Config.base + u1) u0) (knuthEstimate v1 v2 u2 u1 u0) := by
  have hpos : 0 < v1 := by have := base_pos; omega
  have hrhat := Nat.mod_lt (u2 * Config.base + u1) hpos
  refine isGreatest_knuthCorrect ?_ hv2 3 (Nat.div_add_mod' _ v1) (hrhat.trans hv1) (by omega) fun k hk => ?_
  · rw [Nat.succ_mul]
    exact Nat.add_lt_add_of_le_of_lt (Nat.mul_le_mul_right _ hu2) hu1
  · obtain ⟨-, hk⟩ := hk
    rw [Nat.le_div_iff_mul_le hpos, ← Nat.lt_succ_iff]
    refine Nat.lt_of_mul_lt_mul_right (a := Config.base) ?_
    calc k * v1 * Config.base ≤ k * (v1 * Config.base + v2) := by rw [Nat.mul_assoc]; gcongr; omega
      _ ≤ _ := hk
      _ < _ := by rw [Nat.succ_mul]; omega

/-- The greatest digit by which the top part of a divisor fits the window's is the quotient digit or one more: what is
cut off below is worth less than one part, and there are more of these parts in D than a digit can count. -/
theorem le_isGreatest_le_succ {W D P b q : Nat} (hP : 0 < P) (hD : 0 < D) (hW : W < b * D) (hpart : b ≤ D / P)
    (hq : IsGreatest {k | k < b ∧ k * (D / P) ≤ W / P} q) : W / D ≤ q ∧ q ≤ W / D + 1 := by
  obtain ⟨⟨hqb, hfit⟩, hupper⟩ := hq
  refine ⟨hupper ⟨(Nat.div_lt_iff_lt_mul hD).2 hW, ?_⟩, ?_⟩
  · rw [Nat.le_div_iff_mul_le hP, Nat.mul_assoc]
    exact (Nat.mul_le_mul_left _ (Nat.div_mul_le_self D P)).trans (Nat.div_mul_le_self W D)
  · by_contra hgt
    obtain ⟨k, rfl⟩ : ∃ k, q = k + 1 := Nat.exists_eq_succ_of_ne_zero (Nat.ne_zero_of_lt (not_le.1 hgt))
    have hlow : (k + 1) * (D / P) * P ≤ W := (Nat.le_div_iff_mul_le hP).1 hfit
    have hhigh : W < k * D :=
      (Nat.lt_mul_div_succ W hD).trans_le ((Nat.mul_comm _ _).trans_le (Nat.mul_le_mul_right D (by omega)))
    have hcut : k * D ≤ k * ((D / P + 1) * P) := by
      refine Nat.mul_le_mul_left k (Nat.mul_comm P _ ▸ (Nat.lt_mul_div_succ D hP).le)
    have : (k + 1) * (D / P) < k * (D / P + 1) := by
      refine Nat.lt_of_mul_lt_mul_right (a := P) ?_
      rw [Nat.mul_assoc k]
      omega
    rw [Nat.succ_mul, Nat.mul_succ] at this
    omega

/-! Multiply and subtract, add back -/

/-- One digit of the difference, and the borrow out. -/
theorem sub_digit_borrow {u x borrow : Nat} (hu : u < Config.base) (hx : x < Config.base) (hb : borrow ≤ 1) :
    let t : Int := (u : Int) - x - borrow
    (t % (Config.base : Int)).toNat + x + borrow = u + Config.base * (if t < 0 then 1 else 0) ∧
      (t % (Config.base : Int)).toNat < Config.base ∧ (if t < 0 then 1 else 0) ≤ 1 := by
  rw [base_eq] at *
  intro t
  split_ifs <;> omega

theorem mul_add_div_base_lt {q v c : Nat} (hq : q ≤ Config.base) (hv : v < Config.base) (hc : c < Config.base) :
    (q * v + c) / Config.base < Config.base := by
  rw [Nat.div_lt_iff_lt_mul base_pos]
  calc q * v + c < Config.base * v + Config.base := Nat.add_lt_add_of_le_of_lt (Nat.mul_le_mul_right v hq) hc
    _ = Config.base * (v + 1) := rfl
    _ ≤ _ := Nat.mul_le_mul_left _ hv

theorem knuthMulSub_spec {q : Nat} (hq : q ≤ Config.base) {n : Nat} {us vs : List Nat} {carry borrow : Nat}
    (hus : Digits (n + 1) us) (hvs : Digits n vs) (hc : carry < Config.base) (hb : borrow ≤ 1) :
    let r := knuthMulSub q us vs carry borrow
    digitsMag r.1 + (q * digitsMag vs + carry + borrow) = digitsMag us + Config.base ^ (n + 1) * r.2 ∧
      Digits (n + 1) r.1 ∧ r.2 ≤ 1 := by
  induction n generalizing us vs carry borrow with
  | zero =>
    obtain ⟨u, rfl⟩ := List.length_eq_one_iff.1 hus.length_eq
    obtain rfl := List.length_eq_zero_iff.1 hvs.length_eq
    obtain ⟨hdigit, hlt, hout⟩ := sub_digit_borrow (digits_cons.1 hus).1 hc hb
    refine ⟨?_, digits_cons.2 ⟨hlt, hvs⟩, hout⟩
    simp only [knuthMulSub, digitsMag]
    linear_combination hdigit
  | succ n ih =>
    obtain ⟨u, us, rfl⟩ := List.exists_cons_of_length_eq_add_one hus.length_eq
    obtain ⟨v, vs, rfl⟩ := List.exists_cons_of_length_eq_add_one hvs.length_eq
    obtain ⟨hu, hus⟩ := digits_cons.1 hus
    obtain ⟨hv, hvs⟩ := digits_cons.1 hvs
    obtain ⟨hdigit, hlt, hout⟩ := sub_digit_borrow hu (Nat.mod_lt (q * v + carry) base_pos) hb
    obtain ⟨hrest, hdigits, hlast⟩ := ih hus hvs (mul_add_div_base_lt hq hv hc) hout
    refine ⟨?_, digits_cons.2 ⟨hlt, hdigits⟩, hlast⟩
    simp only [knuthMulSub, digitsMag]
    rw [pow_succ]
    linear_combination hdigit + Config.base * hrest - Nat.mod_add_div (q * v + carry) Config.base

theorem knuthAddBack_spec {n : Nat} {us vs : List Nat} (hus : us.length = n + 1) (hvs : vs.length = n) (c : Nat) :
    digitsMag (knuthAddBack us vs c) = (digitsMag us + digitsMag vs + c) % Config.base ^ (n + 1) ∧
      Digits (n + 1) (knuthAddBack us vs c) := by
  induction n generalizing us vs c with
  | zero =>
    obtain ⟨u, rfl⟩ := List.length_eq_one_iff.1 hus
    obtain rfl := List.length_eq_zero_iff.1 hvs
    refine ⟨by simp [knuthAddBack, digitsMag], digits_cons.2 ⟨Nat.mod_lt _ base_pos, rfl, by simp⟩⟩
  | succ n ih =>
    obtain ⟨u, us, rfl⟩ := List.exists_cons_of_length_eq_add_one hus
    obtain ⟨v, vs, rfl⟩ := List.exists_cons_of_length_eq_add_one hvs
    obtain ⟨hrest, hdigits⟩ := ih (Nat.succ.inj hus) (Nat.succ.inj hvs) ((u + v + c) / Config.base)
    refine ⟨?_, digits_cons.2 ⟨Nat.mod_lt _ base_pos, hdigits⟩⟩
    have hsplit : digitsMag (u :: us) + digitsMag (v :: vs) + c =
        u + v + c + Config.base * (digitsMag us + digitsMag vs) := by
      simp only [digitsMag]
      ring
    rw [knuthAddBack, digitsMag, hrest, hsplit, pow_succ' _ (n + 1), Nat.mod_mul, Nat.add_mul_mod_self_left,
      Nat.add_mul_div_left _ _ base_pos, Nat.add_comm (_ / _)]

/-! One digit, and all of them -/

/-- A normalized divisor of n digits: at least two, and at least half the greatest value (R216). -/
structure Normalized (n : Nat) (vn : List Nat) : Prop where
  digits : Digits n vn
  two_le : 2 ≤ n
  half_le : Config.base ^ n ≤ 2 * digitsMag vn

theorem Normalized.mag_pos {n : Nat} {vn : List Nat} (h : Normalized n vn) : 0 < digitsMag vn := by
  have := h.half_le
  have : 0 < Config.base ^ n := Nat.pow_pos base_pos
  omega

/-- The top digit is at least half the base. -/
theorem Normalized.base_le_top {n : Nat} {vn : List Nat} (h : Normalized (n + 1) vn) :
    Config.base ≤ 2 * (digitsMag vn / Config.base ^ n) := by
  have hhalf := h.half_le
  rw [pow_succ', show Config.base = 2 * (Config.base / 2) from rfl, Nat.mul_assoc] at hhalf
  have htop : Config.base / 2 ≤ digitsMag vn / Config.base ^ n :=
    (Nat.le_div_iff_mul_le (Nat.pow_pos base_pos)).2 (Nat.le_of_mul_le_mul_left hhalf (by decide))
  exact Nat.mul_le_mul_left 2 htop

/-- The top two digits are no less than the base. -/
theorem Normalized.base_le_top_two {n : Nat} {vn : List Nat} (h : Normalized (n + 2) vn) :
    Config.base ≤ digitsMag vn / Config.base ^ n := by
  have hhalf := h.half_le
  have hbase : 2 * Config.base ^ (n + 1) ≤ Config.base ^ (n + 2) := by
    rw [pow_succ' _ (n + 1)]
    exact Nat.mul_le_mul_right _ (by decide)
  rw [Nat.le_div_iff_mul_le (Nat.pow_pos base_pos), ← pow_succ']
  omega

/-- The estimate of a digit compares what is above the n - 2 lowest digits of the window and of the divisor. -/
theorem isGreatest_estimate {n : Nat} {vn win : List Nat} (hvn : Normalized (n + 2) vn) (hwin : Digits (n + 3) win)
    (hlt : digitsMag win < Config.base * digitsMag vn) :
    IsGreatest {k | k < Config.base ∧ k * (digitsMag vn / Config.base ^ n) ≤ digitsMag win / Config.base ^ n}
      (knuthEstimate (vn.getD (n + 1) 0) (vn.getD n 0) (win.getD (n + 2) 0) (win.getD (n + 1) 0) (win.getD n 0)) := by
  have hlo (m : Nat) : m % Config.base < Config.base := Nat.mod_lt m base_pos
  simp only [hvn.digits.getD_eq, hwin.getD_eq, hvn.digits.top_div, hwin.top_div]
  have hgreatest := isGreatest_knuthEstimate (v1 := digitsMag vn / Config.base ^ (n + 1))
    (v2 := digitsMag vn / Config.base ^ n % Config.base) (u2 := digitsMag win / Config.base ^ (n + 2))
    (u1 := digitsMag win / Config.base ^ (n + 1) % Config.base) (u0 := digitsMag win / Config.base ^ n % Config.base)
    ?_ ?_ (hlo _) ?_ (hlo _) (hlo _)
  · simpa only [Estimates, pow_succ, ← Nat.div_div_eq_div_mul, Nat.div_add_mod'] using hgreatest
  · exact hvn.base_le_top
  · exact hvn.digits.top_div ▸ hlo _
  · rw [pow_succ' _ (n + 1), ← Nat.div_div_eq_div_mul]
    exact Nat.div_le_div_right (Nat.div_lt_of_lt_mul hlt).le

/-- Multiply and subtract borrows exactly where the digit tried is one too great, and the add-back undoes that one. -/
theorem mulSub_addBack_spec {n q : Nat} {vn win : List Nat} (hvn : Digits n vn) (hwin : Digits (n + 1) win)
    (hpos : 0 < digitsMag vn) (hq : q ≤ Config.base) (hle : digitsMag win / digitsMag vn ≤ q)
    (hge : q ≤ digitsMag win / digitsMag vn + 1) :
    let r := knuthMulSub q win vn 0 0
    let d := if r.2 = 1 then (q - 1, knuthAddBack r.1 vn 0) else (q, r.1)
    d.1 = digitsMag win / digitsMag vn ∧ digitsMag d.2 = digitsMag win % digitsMag vn ∧ Digits (n + 1) d.2 := by
  have hspec := knuthMulSub_spec hq hwin hvn base_pos (Nat.zero_le 1)
  generalize knuthMulSub q win vn 0 0 = r at hspec ⊢
  obtain ⟨rest, borrow⟩ := r
  obtain ⟨hsub, hdigits, hborrow⟩ := hspec
  simp only [Nat.add_zero] at hsub hdigits hborrow ⊢
  have hrange := hdigits.mag_lt
  have hdivmod := Nat.mod_add_div' (digitsMag win) (digitsMag vn)
  obtain rfl | rfl : borrow = 0 ∨ borrow = 1 := Nat.le_one_iff_eq_zero_or_eq_one.1 hborrow
  · have hexact : digitsMag win / digitsMag vn = q := le_antisymm hle ((Nat.le_div_iff_mul_le hpos).2 (by omega))
    rw [hexact] at hdivmod
    rw [Nat.mul_zero, Nat.add_zero] at hsub
    rw [if_neg zero_ne_one]
    exact ⟨hexact.symm, Nat.add_right_cancel (hsub.trans hdivmod.symm), hdigits⟩
  · have hover : q = digitsMag win / digitsMag vn + 1 := by
      refine le_antisymm hge (lt_of_le_of_ne hle fun hexact => ?_)
      rw [hexact] at hdivmod
      omega
    obtain ⟨hback, hlen⟩ := knuthAddBack_spec hdigits.length_eq hvn.length_eq 0
    refine ⟨Nat.sub_eq_of_eq_add hover, ?_, hlen⟩
    have hwrap : digitsMag rest + digitsMag vn = digitsMag win % digitsMag vn + Config.base ^ (n + 1) := by
      rw [hover, Nat.succ_mul] at hsub
      omega
    rw [if_pos rfl, hback, Nat.add_zero, hwrap, Nat.add_mod_right]
    exact Nat.mod_eq_of_lt ((Nat.mod_le _ _).trans_lt hwin.mag_lt)

theorem knuthDigit_spec {n : Nat} {vn win : List Nat} (hvn : Normalized n vn) (hwin : Digits (n + 1) win)
    (hlt : digitsMag win < Config.base * digitsMag vn) :
    (knuthDigit vn win).1 = digitsMag win / digitsMag vn ∧
      digitsMag (knuthDigit vn win).2 = digitsMag win % digitsMag vn ∧ Digits (n + 1) (knuthDigit vn win).2 := by
  obtain ⟨k, rfl⟩ := Nat.exists_eq_add_of_le' hvn.two_le
  have hP : 0 < Config.base ^ k := Nat.pow_pos base_pos
  have hgreatest := isGreatest_estimate hvn hwin hlt
  obtain ⟨hle, hge⟩ := le_isGreatest_le_succ hP hvn.mag_pos hlt hvn.base_le_top_two hgreatest
  rw [knuthDigit, hvn.digits.length_eq]
  exact mulSub_addBack_spec hvn.digits hwin hvn.mag_pos hgreatest.1.1.le hle hge

theorem knuthLoop_spec {n : Nat} {vn top low : List Nat} (hvn : Normalized n vn) (htop : Digits n top)
    (hlt : digitsMag top < digitsMag vn) (hlow : ∀ d ∈ low, d < Config.base) :
    digitsMag (knuthLoop vn top low).1 = digitsMag (low ++ top) / digitsMag vn ∧
      digitsMag (knuthLoop vn top low).2 = digitsMag (low ++ top) % digitsMag vn ∧
      Digits n (knuthLoop vn top low).2 := by
  induction low with
  | nil => exact ⟨(Nat.div_eq_of_lt hlt).symm, (Nat.mod_eq_of_lt hlt).symm, htop⟩
  | cons u us ih =>
    obtain ⟨hu, hus⟩ := List.forall_mem_cons.1 hlow
    obtain ⟨habove, hrem, hdigits⟩ := ih hus
    have hmod := Nat.mod_lt (digitsMag (us ++ top)) hvn.mag_pos
    have hwin : digitsMag (u :: (knuthLoop vn top us).2) =
        u + Config.base * (digitsMag (us ++ top) % digitsMag vn) := by
      rw [digitsMag, hrem]
    obtain ⟨hdigit, hnext, hlen⟩ := knuthDigit_spec hvn (digits_cons.2 ⟨hu, hdigits⟩)
      (hwin.trans_lt (add_mul_lt_mul hu hmod))
    obtain ⟨hdiv, hmod'⟩ := add_mul_div_mod (B := Config.base) hvn.mag_pos u (digitsMag (us ++ top))
    rw [knuthLoop, List.cons_append, digitsMag, digitsMag, hdiv, hmod', ← hwin, hdigit, habove, hvn.digits.length_eq,
      hlen.mag_take, hnext]
    exact ⟨rfl, Nat.mod_eq_of_lt ((Nat.mod_lt _ hvn.mag_pos).trans hvn.digits.mag_lt), hlen.take (Nat.le_succ n)⟩

/-- The loop starts from the n digits above the first window, which the divisor exceeds. -/
theorem knuthLoop_take_drop {n m : Nat} {vn un : List Nat} (hvn : Normalized n vn) (hun : Digits (m + n + 1) un)
    (hlt : digitsMag un < Config.base ^ (m + 1) * digitsMag vn) :
    let r := knuthLoop vn (un.drop (m + 1)) (un.take (m + 1))
    digitsMag r.1 = digitsMag un / digitsMag vn ∧ digitsMag r.2 = digitsMag un % digitsMag vn := by
  have htop : Digits n (un.drop (m + 1)) := by
    have := hun.drop (m + 1)
    rwa [Nat.add_right_comm, Nat.add_sub_cancel_left] at this
  have hfirst : digitsMag (un.drop (m + 1)) < digitsMag vn := by
    rw [hun.mag_drop]
    exact Nat.div_lt_of_lt_mul hlt
  obtain ⟨hquot, hrem, -⟩ := knuthLoop_spec hvn htop hfirst fun d hd => hun.lt_base d (List.mem_of_mem_take hd)
  rw [List.take_append_drop] at hquot hrem
  exact ⟨hquot, hrem⟩

/-! Normalization -/

theorem base_pow_le_mag {V : Limbs} {k : Nat} (hV : V.alen = k + 1) : Config.base ^ k ≤ V.mag := by
  rw [← not_lt, ← Limbs.alen_le_iff]
  omega

theorem toNat_get_top {V : Limbs} {k : Nat} (hV : V.alen = k + 1) : (V.get k).toNat = V.mag / Config.base ^ k := by
  rw [Limbs.toNat_get]
  refine Nat.mod_eq_of_lt (Nat.div_lt_of_lt_mul ?_)
  rw [← pow_succ, ← hV]
  exact Limbs.mag_lt_base_pow_alen V

/-- The shift brings the top bit of V to the top of its highest limb. -/
theorem normalize_mag {V : Limbs} {k : Nat} (hV : V.alen = k + 1) :
    let m := V.mag * 2 ^ (32 - bitlenOf (V.get k).toNat)
    m < Config.base ^ (k + 1) ∧ Config.base ^ (k + 1) ≤ 2 * m := by
  have hP : 0 < Config.base ^ k := Nat.pow_pos base_pos
  have hne : (V.get k).toNat ≠ 0 := by
    rw [toNat_get_top hV]
    exact Nat.ne_of_gt (Nat.div_pos (base_pow_le_mag hV) hP)
  have hlong : bitlenOf (V.get k).toNat ≤ 32 := bitlenOf_le_iff.2 (V.get k).isLt
  have hshort : bitlenOf (V.get k).toNat ≠ 0 := mt bitlenOf_eq_zero_iff.1 hne
  have hupper := lt_two_pow_bitlenOf (V.get k).toNat
  have hlower := two_pow_le_of_bitlenOf hne
  generalize bitlenOf (V.get k).toNat = t at hlong hshort hupper hlower ⊢
  rw [toNat_get_top hV, Nat.div_lt_iff_lt_mul hP] at hupper
  rw [toNat_get_top hV, Nat.le_div_iff_mul_le hP] at hlower
  have hbase : Config.base ^ (k + 1) = 2 ^ t * Config.base ^ k * 2 ^ (32 - t) := by
    rw [pow_succ', Nat.mul_right_comm, ← pow_add, Nat.add_sub_cancel' hlong]
    rfl
  refine ⟨hbase ▸ Nat.mul_lt_mul_of_pos_right hupper (Nat.two_pow_pos _), ?_⟩
  rw [hbase, ← mul_pow_sub_one hshort 2, Nat.mul_assoc 2, Nat.mul_assoc 2]
  exact Nat.mul_le_mul_left 2 (Nat.mul_le_mul_right _ hlower)

/-- Algorithm D divides the normalized operands, which have the same quotient and the shifted remainder. -/
theorem knuthD_eq {U V : Limbs} (hV : 2 ≤ V.alen) (hle : V.mag ≤ U.mag) :
    knuthD U V = (U.mag / V.mag, U.mag % V.mag) := by
  obtain ⟨k, hk⟩ := Nat.exists_eq_add_of_le' hV
  obtain ⟨m, hm⟩ := Nat.exists_eq_add_of_le' (Limbs.alen_le_alen_of_mag_le hle)
  obtain ⟨hfit, hhalf⟩ := normalize_mag hk
  rw [knuthD, hm, hk, Nat.add_sub_cancel, Nat.add_succ_sub_one]
  generalize 32 - bitlenOf (V.get (k + 1)).toNat = s at hfit hhalf ⊢
  have hfirst : U.mag * 2 ^ s < Config.base ^ (m + 1) * (V.mag * 2 ^ s) := by
    rw [← Nat.mul_assoc]
    refine Nat.mul_lt_mul_of_pos_right ?_ (Nat.two_pow_pos s)
    calc U.mag < Config.base ^ (m + 1 + (k + 1)) := Limbs.alen_le_iff.1 (by omega)
      _ = Config.base ^ (m + 1) * Config.base ^ (k + 1) := pow_add _ _ _
      _ ≤ _ := Nat.mul_le_mul_left _ (base_pow_le_mag hk)
  have hvn := digitsMag_map_ofMag hfit
  have hun : digitsMag ((Limbs.ofMag (U.mag * 2 ^ s) (m + (k + 2) + 1)).map BitVec.toNat) = U.mag * 2 ^ s := by
    refine digitsMag_map_ofMag ?_
    rw [Nat.add_right_comm, pow_add]
    exact hfirst.trans_le (Nat.mul_le_mul_left _ hfit.le)
  obtain ⟨hquot, hrem⟩ := knuthLoop_take_drop
    ⟨digits_map_ofMag (V.mag * 2 ^ s) (k + 2), Nat.le_add_left 2 k, hvn.symm ▸ hhalf⟩
    (digits_map_ofMag (U.mag * 2 ^ s) (m + (k + 2) + 1)) (by rwa [hun, hvn])
  rw [hquot, hrem, hun, hvn, Nat.mul_div_mul_right _ _ (Nat.two_pow_pos s), Nat.mul_mod_mul_right,
    Nat.mul_div_cancel _ (Nat.two_pow_pos s)]

end Sys2Proof.Machine
end

section
/-! # The divider, and DIVREM, DIV and MOD over it (44_divide.md R210 to R219). -/

namespace Sys2Proof.Machine

open Claims

/-! The divider (R214) -/

/-- The parity bit is the remainder of the division by two. -/
theorem toNat_getLsbD_zero (U : Limbs) : ((U.get 0).getLsbD 0).toNat = U.mag % 2 := by
  rw [BitVec.getLsbD, Nat.toNat_testBit, pow_zero, Nat.div_one, Limbs.toNat_get, pow_zero, Nat.div_one]
  exact Nat.mod_mod_of_dvd _ (by decide)

/-- Settles O43: each path of the divider divides the operands that take it. -/
theorem dividerComputesDivMod : Obligations.DividerComputesDivMod := by
  intro U V hV
  have hcmp := ucmp_compares U V
  rw [uDivMod]
  split
  case h_1 heq =>
    rw [hcmp.eq_eq.1 heq, Nat.div_self (Nat.pos_of_ne_zero hV), Nat.mod_self]
  case h_2 hlt =>
    have hlt := hcmp.eq_lt.1 hlt
    rw [Nat.div_eq_of_lt hlt, Nat.mod_eq_of_lt hlt]
  case h_3 hgt =>
    have hgt := hcmp.eq_gt.1 hgt
    split_ifs with htwo hone
    · rw [htwo, toNat_getLsbD_zero]
    · have hlimb : (V.get 0).toNat = V.mag := by
        rw [toNat_get_top hone, pow_zero, Nat.div_one]
      rw [← hlimb]
      exact divLimbIsDivision U _ fun h => hV (by rw [← hlimb, h]; rfl)
    · have hlong : V.alen ≠ 0 := fun h => hV (by simpa using Limbs.alen_le_iff.1 h.le)
      exact knuthD_eq (by omega) hgt.le

/-! The results: quotient and remainder with their signs, tight (R210 to R213) -/

theorem BigNum.val_of_mag_eq_div_mag {a b : BigNum} {L : Limbs} (h : L.mag = a.mag / b.mag) :
    (⟨a.sign.xor b.sign, L⟩ : BigNum).val = a.val.tdiv b.val := by
  have hmag : (L.mag : Int) = (a.mag : Int).tdiv b.mag := by rw [h]; rfl
  obtain ⟨signA, limbsA⟩ := a
  obtain ⟨signB, limbsB⟩ := b
  simp only [BigNum.mag] at hmag
  cases signA <;> cases signB <;> simp [BigNum.val, BigNum.mag, Sign.xor, hmag]

theorem BigNum.val_of_mag_eq_mod_mag {a b : BigNum} {L : Limbs} (h : L.mag = a.mag % b.mag) :
    (⟨a.sign, L⟩ : BigNum).val = a.val.tmod b.val := by
  have hmag : (L.mag : Int) = (a.mag : Int).tmod b.mag := by rw [h]; rfl
  obtain ⟨signA, limbsA⟩ := a
  obtain ⟨signB, limbsB⟩ := b
  simp only [BigNum.mag] at hmag
  cases signA <;> cases signB <;> simp [BigNum.val, BigNum.mag, hmag]

theorem length_tight_eq_tightCap (m : Nat) : (Limbs.tight m).length = tightCap m :=
  (Limbs.length_tight _).trans (tightCap_eq_limbCount _).symm

section Results

variable (u v : BigNum)

theorem mag_divMod_fst : (divMod u v).1.2.mag = u.mag / v.mag := Limbs.mag_tight _

theorem mag_divMod_snd : (divMod u v).2.2.mag = u.mag % v.mag := Limbs.mag_tight _

theorem length_divMod_fst : (divMod u v).1.2.length = tightCap (u.mag / v.mag) := length_tight_eq_tightCap _

theorem length_divMod_snd : (divMod u v).2.2.length = tightCap (u.mag % v.mag) := length_tight_eq_tightCap _

theorem divMod_fst_val : (⟨(divMod u v).1.1, (divMod u v).1.2⟩ : BigNum).val = u.val.tdiv v.val :=
  BigNum.val_of_mag_eq_div_mag (mag_divMod_fst u v)

theorem divMod_snd_val : (⟨(divMod u v).2.1, (divMod u v).2.2⟩ : BigNum).val = u.val.tmod v.val :=
  BigNum.val_of_mag_eq_mod_mag (mag_divMod_snd u v)

end Results

/-- The results are no greater than the dividend, which MAXCAP holds. -/
theorem length_divMod_le {s : State} (hs : s.CapsBounded) (i : Reg) (v : BigNum) :
    (divMod (s.reg i) v).1.2.length ≤ s.maxcap ∧ (divMod (s.reg i) v).2.2.length ≤ s.maxcap := by
  obtain ⟨-, -, hcap⟩ := hs
  have hdividend : (s.reg i).mag < Config.base ^ s.maxcap :=
    (Limbs.mag_lt _).trans_le (Nat.pow_le_pow_right base_pos (hcap i))
  exact ⟨Limbs.length_tight_le_iff.2 ((Nat.div_le_self _ _).trans_lt hdividend),
    Limbs.length_tight_le_iff.2 ((Nat.mod_le _ _).trans_lt hdividend)⟩

/-! DIV and MOD (R218, R219) -/

section Commands

variable {s : State} {rd rs1 rs2 rs3 : Reg}

theorem exec_div_of_eq (hv : (s.reg rs2).mag = 0) : exec (.div rd rs1 rs2) s =
    .next (s.raiseFault .divisionByZero (encode (.div rd rs1 rs2))) := if_pos hv

theorem exec_div_of_ne (hv : (s.reg rs2).mag ≠ 0) : exec (.div rd rs1 rs2) s =
    .next (s.commit (encode (.div rd rs1 rs2)) rd (divMod (s.reg rs1) (s.reg rs2)).1.1
      (divMod (s.reg rs1) (s.reg rs2)).1.2) := if_neg hv

theorem exec_mod_of_eq (hv : (s.reg rs2).mag = 0) : exec (.mod rd rs1 rs2) s =
    .next (s.raiseFault .divisionByZero (encode (.mod rd rs1 rs2))) := if_pos hv

theorem exec_mod_of_ne (hv : (s.reg rs2).mag ≠ 0) : exec (.mod rd rs1 rs2) s =
    .next (s.commit (encode (.mod rd rs1 rs2)) rd (divMod (s.reg rs1) (s.reg rs2)).2.1
      (divMod (s.reg rs1) (s.reg rs2)).2.2) := if_neg hv

theorem exec_divrem_of_eq (hne : rd ≠ rs3) (hv : (s.reg rs2).mag = 0) : exec (.divrem rd rs1 rs2 rs3) s =
    .next (s.raiseFault .divisionByZero (encode (.divrem rd rs1 rs2 rs3))) := (if_neg hne).trans (if_pos hv)

/-- DIVREM writes the quotient and then the remainder: the length check of its commit passes. -/
theorem exec_divrem_of_ne (hs : s.CapsBounded) (hne : rd ≠ rs3) (hv : (s.reg rs2).mag ≠ 0) :
    let r := divMod (s.reg rs1) (s.reg rs2)
    exec (.divrem rd rs1 rs2 rs3) s = .next ((s.write rd r.1.1 r.1.2).write rs3 r.2.1 r.2.2) := by
  obtain ⟨hquot, hrem⟩ := length_divMod_le hs rs1 (s.reg rs2)
  exact (if_neg hne).trans ((if_neg hv).trans (congrArg _ (if_neg (by omega))))

end Commands

/-- Settles O45: both commit one result of the division, which cannot exceed MAXCAP. -/
theorem divAndModTruncate : Obligations.DivAndModTruncate := fun s _ rs1 rs2 hs =>
  ⟨fun hv => ⟨raises_of_raiseFault (exec_div_of_eq hv), raises_of_raiseFault (exec_mod_of_eq hv)⟩, fun hv =>
    have hfit := length_divMod_le hs rs1 (s.reg rs2)
    ⟨commits_of_commit (exec_div_of_ne hv) hfit.1 (divMod_fst_val _ _) (length_divMod_fst _ _),
      commits_of_commit (exec_mod_of_ne hv) hfit.2 (divMod_snd_val _ _) (length_divMod_snd _ _)⟩⟩

/-! DIVREM (R217) -/

/-- A lined-up sign code is the sign drawn. -/
theorem DrawPort.drawSign_cons_code (a : Sign) (q : List Nat) (k : Nat) :
    DrawPort.drawSign ⟨a.code.toNat :: q, k⟩ = (a, ⟨q, k + 1⟩) := by
  cases a <;> rfl

section Writes

variable {s : State} {d₁ d₂ : Reg} {r₁ r₂ : Sign × Limbs}

theorem writesOnly_write_write :
    WritesOnly [d₁, d₂] s ((s.write d₁ r₁.1 r₁.2).write d₂ r₂.1 r₂.2) := by
  refine ⟨by simp [SameControl], rfl, rfl, fun j hj => ?_⟩
  simp only [List.mem_cons, List.not_mem_nil, or_false, not_or] at hj
  exact (State.write_reg_ne _ _ _ _ hj.2).trans (State.write_reg_ne _ _ _ _ hj.1)

variable (hne : d₁ ≠ d₂)
include hne

theorem write_write_reg_fst :
    ((s.write d₁ r₁.1 r₁.2).write d₂ r₂.1 r₂.2).reg d₁ = (s.write d₁ r₁.1 r₁.2).reg d₁ :=
  State.write_reg_ne _ _ _ _ hne

/-- Two writes to different registers leave both contents. -/
theorem write_write_contents :
    let t := (s.write d₁ r₁.1 r₁.2).write d₂ r₂.1 r₂.2
    ((t.reg d₁).val = (⟨r₁.1, r₁.2⟩ : BigNum).val ∧ (t.reg d₁).cap = r₁.2.length) ∧
      (t.reg d₂).val = (⟨r₂.1, r₂.2⟩ : BigNum).val ∧ (t.reg d₂).cap = r₂.2.length := by
  simp only [write_write_reg_fst hne, State.write_val, State.write_cap, and_self]

/-- Two writes draw the tag of each zero among the two contents, and nothing else. -/
theorem write_write_draws :
    let t := (s.write d₁ r₁.1 r₁.2).write d₂ r₂.1 r₂.2
    (r₁.2.mag ≠ 0 → r₂.2.mag ≠ 0 → t.draws = s.draws) ∧
      (r₂.2.mag ≠ 0 → Tagged s.draws (t.reg d₁) t.draws) ∧
      (r₁.2.mag ≠ 0 → Tagged s.draws (t.reg d₂) t.draws) := by
  refine ⟨fun h₁ h₂ => ?_, fun h₂ => ?_, fun h₁ => ?_⟩
  · exact (State.write_draws_of_ne _ _ _ _ h₂).trans (State.write_draws_of_ne _ _ _ _ h₁)
  · rw [write_write_reg_fst hne, State.write_draws_of_ne _ _ _ _ h₂]
    exact tagged_write
  · rw [← State.write_draws_of_ne s d₁ r₁.1 r₁.2 h₁]
    exact tagged_write

/-- Where both contents are zero, the first draw is the tag of the first and the second that of the second. -/
theorem write_write_of_zero (h₁ : r₁.2.mag = 0) (h₂ : r₂.2.mag = 0) :
    let t := (s.write d₁ r₁.1 r₁.2).write d₂ r₂.1 r₂.2
    t.draws = s.draws.drawSign.2.drawSign.2 ∧ (t.reg d₁).sign = s.draws.drawSign.1 ∧
      (t.reg d₂).sign = s.draws.drawSign.2.drawSign.1 := by
  simp only [write_write_reg_fst hne, State.write_draws, State.write_reg_self, commitSign_of_eq h₁,
    commitSign_of_eq h₂, and_self]

end Writes

/-- Settles O44: the two writes of the division's results; a port that has lined up the codes of two signs gives two
zeros these tags. -/
theorem divremTruncates : Obligations.DivremTruncates := by
  intro s rd rs1 rs2 rs3 hne hs u v q r
  have hq : (divMod u v).1.2.mag = q := mag_divMod_fst u v
  have hr : (divMod u v).2.2.mag = r := mag_divMod_snd u v
  refine ⟨fun hv => raises_of_raiseFault (exec_divrem_of_eq hne hv), fun hv => ?_, fun hv hu a b => ?_⟩
  · obtain ⟨⟨hquot, hquotCap⟩, hrem, hremCap⟩ :=
      write_write_contents (s := s) (r₁ := (divMod u v).1) (r₂ := (divMod u v).2) hne
    obtain ⟨hnone, hfst, hsnd⟩ := write_write_draws (s := s) (r₁ := (divMod u v).1) (r₂ := (divMod u v).2) hne
    have hboth := write_write_of_zero (s := s) (r₁ := (divMod u v).1) (r₂ := (divMod u v).2) hne
    rw [divMod_fst_val] at hquot
    rw [divMod_snd_val] at hrem
    rw [hq, hr] at hnone hboth
    rw [hr] at hfst
    rw [hq] at hsnd
    refine ⟨_, exec_divrem_of_ne hs hne hv, hquot, hquotCap.trans (length_divMod_fst u v), hrem,
      hremCap.trans (length_divMod_snd u v), ?_, ?_, writesOnly_write_write, hnone, fun _ => hfst,
      fun h _ => hsnd h, fun h₁ h₂ => (hboth h₁ h₂).1⟩
    · rw [hquot, hrem, Int.tdiv_mul_add_tmod]
    · rw [hrem, Int.natAbs_tmod, BigNum.natAbs_val, BigNum.natAbs_val]
      exact Nat.mod_lt _ (Nat.pos_of_ne_zero hv)
  · have hqzero : q = 0 := by rw [show q = u.mag / v.mag from rfl, hu, Nat.zero_div]
    have hrzero : r = 0 := by rw [show r = u.mag % v.mag from rfl, hu, Nat.zero_mod]
    obtain ⟨-, ha, hb⟩ := write_write_of_zero (s := s.setDraws ⟨[a.code.toNat, b.code.toNat], 0⟩) hne
      (hq.trans hqzero) (hr.trans hrzero)
    rw [State.setDraws_draws, DrawPort.drawSign_cons_code] at ha hb
    rw [DrawPort.drawSign_cons_code] at hb
    exact ⟨_, _, exec_divrem_of_ne (s := s.setDraws ⟨[a.code.toNat, b.code.toNat], 0⟩) hs hne hv, ha, hb⟩

end Sys2Proof.Machine
end

section
/-! # Binary GCD, GCD and LCM (45_gcd_lcm_modinv.md R230 to R235). -/

namespace Sys2Proof.Machine

open Claims

/-! The binary GCD (R231) -/

/-- A factor of two of one operand is not one of the other, and so none of their greatest common divisor. -/
theorem gcd_half_left {U V : Nat} (hU : U % 2 = 0) (hV : V % 2 = 1) : Nat.gcd (U / 2) V = Nat.gcd U V := by
  have hcoprime : Nat.Coprime 2 V := (Nat.coprime_two_left).2 (Nat.odd_iff.2 hV)
  rw [← hcoprime.gcd_mul_left_cancel (U / 2), Nat.mul_div_cancel' (Nat.dvd_of_mod_eq_zero hU)]

/-- The difference of two odd operands is even: halving it keeps the greatest common divisor. -/
theorem gcd_half_sub {U V : Nat} (hU : U % 2 = 1) (hV : V % 2 = 1) (hle : V ≤ U) :
    Nat.gcd ((U - V) / 2) V = Nat.gcd U V := by
  rw [gcd_half_left (by omega) hV, Nat.gcd_sub_self_left hle]

/-- With an odd operand on either side, each round of the loop keeps the greatest common divisor and an odd operand, and
shrinks the sum. -/
theorem binGcdLoop_eq_gcd {n U V : Nat} (hn : U + V ≤ n) (hodd : U % 2 = 1 ∨ V % 2 = 1) :
    binGcdLoop n U V = Nat.gcd U V := by
  induction n generalizing U V with
  | zero => omega
  | succ n ih =>
    rw [binGcdLoop]
    split_ifs with hzero hU hUeven hVeven hle
    · rw [hU, Nat.gcd_zero_left]
    · rw [hzero.resolve_left hU, Nat.gcd_zero_right]
    · rw [ih (by omega) (by omega), gcd_half_left hUeven (by omega)]
    · rw [ih (by omega) (by omega), Nat.gcd_comm, gcd_half_left hVeven (by omega), Nat.gcd_comm]
    · rw [ih (by omega) (by omega), gcd_half_sub (by omega) (by omega) hle]
    · rw [ih (by omega) (by omega), Nat.gcd_comm, gcd_half_sub (by omega) (by omega) (by omega), Nat.gcd_comm]

/-- Stripping moves the common factors of two into the count, until an operand is odd. -/
theorem stripTwos_spec {n U V : Nat} (k : Nat) (hU : 0 < U) (hV : 0 < V) (hn : U + V ≤ n) :
    let r := stripTwos n U V k
    Nat.gcd r.1 r.2.1 * 2 ^ r.2.2 = Nat.gcd U V * 2 ^ k ∧ r.1 + r.2.1 ≤ U + V ∧ (r.1 % 2 = 1 ∨ r.2.1 % 2 = 1) := by
  induction n generalizing U V k with
  | zero => omega
  | succ n ih =>
    rw [stripTwos]
    split_ifs with heven
    · obtain ⟨hgcd, hsum, hodd⟩ := ih (k + 1) (U := U / 2) (V := V / 2) (by omega) (by omega) (by omega)
      refine ⟨hgcd.trans ?_, hsum.trans (by omega), hodd⟩
      have hdouble : Nat.gcd U V = 2 * Nat.gcd (U / 2) (V / 2) := by
        rw [← Nat.gcd_mul_left, Nat.mul_div_cancel' (Nat.dvd_of_mod_eq_zero heven.1),
          Nat.mul_div_cancel' (Nat.dvd_of_mod_eq_zero heven.2)]
      rw [hdouble]
      ring
    · have hodd : U % 2 = 1 ∨ V % 2 = 1 := by omega
      exact ⟨rfl, le_rfl, hodd⟩

/-- Settles O46: what is left after stripping has an odd operand, which the loop keeps. -/
theorem binaryGcdIsGcd : Obligations.BinaryGcdIsGcd := by
  intro U V hU hV
  obtain ⟨hgcd, hsum, hodd⟩ := stripTwos_spec 0 hU hV le_rfl
  rw [binGcd, binGcdLoop_eq_gcd hsum hodd, hgcd, pow_zero, Nat.mul_one]

/-! Values and tight lists -/

theorem BigNum.val_of_nonneg {b : BigNum} (h : 0 ≤ b.val) : b.val = b.mag :=
  BigNum.val_of_not_isNeg fun hneg => absurd (BigNum.isNeg_iff.1 hneg) (not_lt.2 h)

theorem BigNum.mag_ne_zero_of_val_ne {b : BigNum} (h : b.val ≠ 0) : b.mag ≠ 0 := mt BigNum.val_eq_zero_iff.2 h

theorem BigNum.one_lt_mag_of_val {b : BigNum} (h : 1 < b.val) : 1 < b.mag := by
  rw [← natAbs_val]
  omega

theorem BigNum.sign_of_val_pos {b : BigNum} (h : 0 < b.val) : b.sign = .positive := by
  by_contra hsign
  exact lt_asymm h (BigNum.val_neg hsign (mag_ne_zero_of_val_ne h.ne'))

theorem BigNum.val_tight_mag (b : BigNum) : (⟨b.sign, Limbs.tight b.mag⟩ : BigNum).val = b.val := by
  obtain ⟨sign, limbs⟩ := b
  cases sign <;> simp [BigNum.val, BigNum.mag]

theorem BigNum.mag_tight (sg : Sign) (m : Nat) : (⟨sg, Limbs.tight m⟩ : BigNum).mag = m := Limbs.mag_tight m

theorem BigNum.val_positive_tight (m : Nat) : (⟨.positive, Limbs.tight m⟩ : BigNum).val = m := by
  rw [val_positive rfl, mag_tight]

/-- In a unit within its bounds, a command that commits a tight list no greater than a register completes. -/
theorem commits_of_commit_tight {s : State} (hs : s.CapsBounded) {i : Instr} {d : Reg} {sg : Sign} {m : Nat} {v : Int}
    (j : Reg) (h : exec i s = .next (s.commit (encode i) d sg (Limbs.tight m))) (hm : m ≤ (s.reg j).mag)
    (hv : (⟨sg, Limbs.tight m⟩ : BigNum).val = v) : Commits d v (tightCap m) i s := by
  obtain ⟨-, -, hcap⟩ := hs
  refine commits_of_commit h (Limbs.length_tight_le_iff.2 ?_) hv (length_tight_eq_tightCap m)
  calc m ≤ (s.reg j).mag := hm
    _ < Config.base ^ (s.reg j).cap := Limbs.mag_lt _
    _ ≤ Config.base ^ s.maxcap := Nat.pow_le_pow_right base_pos (hcap j)

/-! GCD (R232) -/

section GcdResult

variable {u v : BigNum}

theorem gcdResult_of_zero_left (hu : u.mag = 0) : gcdResult u v = .ok (v.sign, Limbs.tight v.mag) := if_pos hu

theorem gcdResult_of_zero_right (hu : u.mag ≠ 0) (hv : v.mag = 0) :
    gcdResult u v = .ok (u.sign, Limbs.tight u.mag) := (if_neg hu).trans (if_pos hv)

theorem gcdResult_of_neg (hu : u.mag ≠ 0) (hv : v.mag ≠ 0) (h : u.val < 0 ∨ v.val < 0) :
    gcdResult u v = .error .arithmeticError := by
  rw [← BigNum.isNeg_iff, ← BigNum.isNeg_iff] at h
  exact (if_neg hu).trans ((if_neg hv).trans (if_pos h))

theorem gcdResult_of_pos (hu : 0 < u.val) (hv : 0 < v.val) :
    gcdResult u v = .ok (.positive, Limbs.tight (Nat.gcd u.mag v.mag)) := by
  have hu0 := BigNum.mag_ne_zero_of_val_ne hu.ne'
  have hv0 := BigNum.mag_ne_zero_of_val_ne hv.ne'
  have hneg : ¬ (u.isNeg = true ∨ v.isNeg = true) := by
    rw [BigNum.isNeg_iff, BigNum.isNeg_iff]
    omega
  rw [← binaryGcdIsGcd _ _ (Nat.pos_of_ne_zero hu0) (Nat.pos_of_ne_zero hv0)]
  exact (if_neg hu0).trans ((if_neg hv0).trans (if_neg hneg))

end GcdResult

section Commands

variable {s : State} {rd rs1 rs2 : Reg}

theorem exec_gcd : exec (.gcd rd rs1 rs2) s =
    .next (s.conclude (encode (.gcd rd rs1 rs2)) rd (gcdResult (s.reg rs1) (s.reg rs2))) := rfl

theorem exec_gcd_of_error {c : Cause} (h : gcdResult (s.reg rs1) (s.reg rs2) = .error c) :
    exec (.gcd rd rs1 rs2) s = .next (s.raiseFault c (encode (.gcd rd rs1 rs2))) := by
  rw [exec_gcd, h, State.conclude_error]

theorem exec_gcd_of_ok {x : Sign × Limbs} (h : gcdResult (s.reg rs1) (s.reg rs2) = .ok x) :
    exec (.gcd rd rs1 rs2) s = .next (s.commit (encode (.gcd rd rs1 rs2)) rd x.1 x.2) := by
  rw [exec_gcd, h, State.conclude_ok]

end Commands

/-- Settles O47: no result is greater than an operand, which MAXCAP holds; of two zeros either is the result. -/
theorem gcdCommand : Obligations.GcdCommand := by
  intro s rd rs1 rs2 hs u v
  have hleft : u.mag = 0 → Commits rd v.val (tightCap v.mag) (.gcd rd rs1 rs2) s := fun hu =>
    commits_of_commit_tight hs rs2 (exec_gcd_of_ok (gcdResult_of_zero_left hu)) le_rfl (BigNum.val_tight_mag v)
  refine ⟨hleft, fun hv => ?_, fun hu hv hneg => ?_, fun hu hv => ?_⟩
  · by_cases hu : u.mag = 0
    · rw [BigNum.val_eq_zero_iff.2 hu, ← BigNum.val_eq_zero_iff.2 hv, hu, ← hv]
      exact hleft hu
    · exact commits_of_commit_tight hs rs1 (exec_gcd_of_ok (gcdResult_of_zero_right hu hv)) le_rfl
        (BigNum.val_tight_mag u)
  · exact raises_of_raiseFault (exec_gcd_of_error (gcdResult_of_neg hu hv hneg))
  · exact commits_of_commit_tight hs rs1 (exec_gcd_of_ok (gcdResult_of_pos hu hv))
      (Nat.gcd_le_left _ (Nat.pos_of_ne_zero (BigNum.mag_ne_zero_of_val_ne hu.ne'))) (BigNum.val_positive_tight _)

/-! LCM (R234) -/

section LcmResult

variable {maxcap : Nat} {u v : BigNum} {g : Sign × Limbs}

theorem lcmResult_of_error {c : Cause} (h : gcdResult u v = .error c) : lcmResult maxcap u v = .error c := by
  rw [lcmResult, h]

theorem lcmResult_of_zero (h : gcdResult u v = .ok g) (hg : g.2.mag = 0) :
    lcmResult maxcap u v = .error .divisionByZero := by
  rw [lcmResult, h]
  exact if_pos hg

/-- Past a nonzero gcd, LCM ends as the product of the quotient and v. -/
theorem lcmResult_of_ne (h : gcdResult u v = .ok g) (hg : g.2.mag ≠ 0) :
    lcmResult maxcap u v = mulResult maxcap ⟨u.sign.xor g.1, Limbs.tight (u.mag / g.2.mag)⟩ v := by
  rw [lcmResult, h]
  exact if_neg hg

end LcmResult

section LcmCommand

variable {s : State} {rd rs1 rs2 : Reg}

theorem exec_lcm : exec (.lcm rd rs1 rs2) s =
    .next (s.conclude (encode (.lcm rd rs1 rs2)) rd (lcmResult s.maxcap (s.reg rs1) (s.reg rs2))) := rfl

theorem exec_lcm_of_error {c : Cause} (h : lcmResult s.maxcap (s.reg rs1) (s.reg rs2) = .error c) :
    exec (.lcm rd rs1 rs2) s = .next (s.raiseFault c (encode (.lcm rd rs1 rs2))) := by
  rw [exec_lcm, h, State.conclude_error]

/-- Past a nonzero gcd, LCM is exact where the tight product is within MAXCAP, and faults elsewhere. -/
theorem lcm_commits_or_raises {g : Sign × Limbs} (h : gcdResult (s.reg rs1) (s.reg rs2) = .ok g)
    (hg : g.2.mag ≠ 0) :
    let q : BigNum := ⟨(s.reg rs1).sign.xor g.1, Limbs.tight ((s.reg rs1).mag / g.2.mag)⟩
    let n := tightCap ((s.reg rs1).mag / g.2.mag * (s.reg rs2).mag)
    (n ≤ s.maxcap → Commits rd (q.val * (s.reg rs2).val) n (.lcm rd rs1 rs2) s) ∧
    (s.maxcap < n → Raises allocationFailure (.lcm rd rs1 rs2) s) := by
  have hexec := exec_lcm (s := s) (rd := rd) (rs1 := rs1) (rs2 := rs2)
  rw [lcmResult_of_ne h hg] at hexec
  simpa only [BigNum.mag_tight] using commits_or_raises_of_mulResult hexec

/-- One zero operand: the nonzero one is the gcd, and the product is zero. -/
theorem lcm_commits_zero {g : Sign × Limbs} (h : gcdResult (s.reg rs1) (s.reg rs2) = .ok g) (hg : g.2.mag ≠ 0)
    (hzero : (s.reg rs1).mag = 0 ∨ (s.reg rs2).mag = 0) : Commits rd 0 0 (.lcm rd rs1 rs2) s := by
  have hprod : (s.reg rs1).mag / g.2.mag * (s.reg rs2).mag = 0 := by
    rcases hzero with hu | hv
    · rw [hu, Nat.zero_div, Nat.zero_mul]
    · rw [hv, Nat.mul_zero]
  obtain ⟨hcommits, -⟩ := lcm_commits_or_raises (rd := rd) h hg
  rw [hprod] at hcommits
  have hval : (⟨(s.reg rs1).sign.xor g.1, Limbs.tight ((s.reg rs1).mag / g.2.mag)⟩ : BigNum).val *
      (s.reg rs2).val = 0 := by
    rw [← Int.natAbs_eq_zero, Int.natAbs_mul, BigNum.natAbs_val, BigNum.natAbs_val, BigNum.mag_tight, hprod]
  exact hval ▸ hcommits (Nat.zero_le _)

/-- Two positive operands: a gcd divides them, so the quotient times the other one is the least common multiple. -/
theorem lcm_of_pos (hu : 0 < (s.reg rs1).val) (hv : 0 < (s.reg rs2).val) :
    let m := Nat.lcm (s.reg rs1).mag (s.reg rs2).mag
    (tightCap m ≤ s.maxcap → Commits rd m (tightCap m) (.lcm rd rs1 rs2) s) ∧
    (s.maxcap < tightCap m → Raises allocationFailure (.lcm rd rs1 rs2) s) := by
  have hpos : 0 < (s.reg rs1).mag := Nat.pos_of_ne_zero (BigNum.mag_ne_zero_of_val_ne hu.ne')
  have hquot : (s.reg rs1).mag / Nat.gcd (s.reg rs1).mag (s.reg rs2).mag * (s.reg rs2).mag =
      Nat.lcm (s.reg rs1).mag (s.reg rs2).mag := Nat.div_mul_right_comm (Nat.gcd_dvd_left _ _) _
  have hlcm := lcm_commits_or_raises (rd := rd) (gcdResult_of_pos hu hv)
    ((Limbs.mag_tight _).trans_ne (Nat.gcd_pos_of_pos_left _ hpos).ne')
  rw [Limbs.mag_tight, BigNum.sign_of_val_pos hu, hquot, BigNum.val_of_nonneg hv.le] at hlcm
  simpa only [Sign.xor, if_true, BigNum.val_positive_tight, ← Nat.cast_mul, hquot] using hlcm

end LcmCommand

/-- Settles O48: the faults of the gcd and of the division by a zero gcd come first; the rest is the product's. -/
theorem lcmCommand : Obligations.LcmCommand := by
  intro s rd rs1 rs2 u v m
  refine ⟨fun hu hv hneg => ?_, fun hu hv => ?_, ?_, fun hu hv => (lcm_of_pos hu hv).1,
    fun hu hv => (lcm_of_pos hu hv).2⟩
  · exact raises_of_raiseFault (exec_lcm_of_error (lcmResult_of_error (gcdResult_of_neg hu hv hneg)))
  · exact raises_of_raiseFault (exec_lcm_of_error
      (lcmResult_of_zero (gcdResult_of_zero_left hu) ((Limbs.mag_tight _).trans hv)))
  · rintro (⟨hu, hv⟩ | ⟨hu, hv⟩)
    · exact lcm_commits_zero (gcdResult_of_zero_left hu) ((Limbs.mag_tight _).trans_ne hv) (.inl hu)
    · exact lcm_commits_zero (gcdResult_of_zero_right hu hv) ((Limbs.mag_tight _).trans_ne hu) (.inr hv)

end Sys2Proof.Machine
end

section
/-! # The extended Euclidean loop and MODINV (45_gcd_lcm_modinv.md R236, R237). -/

namespace Sys2Proof.Machine

open Claims

/-! The extended Euclidean loop (R237) -/

/-- The sign of the cofactor `u1`: the parity flag is set after an odd number of rounds. -/
def cofactorSign (V : Nat) (odd : Bool) : ZMod V := if odd then -1 else 1

theorem cofactorSign_not (V : Nat) (odd : Bool) : cofactorSign V (!odd) = -cofactorSign V odd := by
  cases odd <;> simp [cofactorSign]

/-- What every round keeps: the remainders have the gcd of the operands, they are the cofactors' products with `a` up to
sign, of opposite signs, and the cofactors stay within V. -/
structure EuclidInv (a V u1 u3 v1 v3 : Nat) (odd : Bool) : Prop where
  gcd_eq : Nat.gcd u3 v3 = Nat.gcd a V
  det_eq : u1 * v3 + v1 * u3 = V
  u1_le : u1 ≤ V
  v1_le : v1 ≤ V
  u_eq : (a * u1 : ZMod V) = cofactorSign V odd * u3
  v_eq : (a * v1 : ZMod V) = -cofactorSign V odd * v3

theorem euclidInv_start {a V : Nat} (hV : 1 ≤ V) : EuclidInv a V 1 a 0 V false where
  gcd_eq := rfl
  det_eq := by omega
  u1_le := hV
  v1_le := Nat.zero_le V
  u_eq := by simp [cofactorSign]
  v_eq := by simp

theorem EuclidInv.round {a V u1 u3 v1 v3 : Nat} {odd : Bool} (h : EuclidInv a V u1 u3 v1 v3 odd) (hv3 : v3 ≠ 0) :
    EuclidInv a V v1 v3 (u1 + u3 / v3 * v1) (u3 % v3) (!odd) := by
  have hdiv := Nat.mod_add_div u3 v3
  have hdet : v1 * (u3 % v3) + (u1 + u3 / v3 * v1) * v3 = V := by
    rw [← h.det_eq]
    linear_combination v1 * hdiv
  refine ⟨?_, hdet, h.v1_le, ?_, ?_, ?_⟩
  · rw [Nat.gcd_comm, ← Nat.gcd_rec, Nat.gcd_comm, h.gcd_eq]
  · calc u1 + u3 / v3 * v1 ≤ (u1 + u3 / v3 * v1) * v3 := Nat.le_mul_of_pos_right _ (Nat.pos_of_ne_zero hv3)
      _ ≤ V := hdet ▸ Nat.le_add_left _ _
  · rw [cofactorSign_not, h.v_eq]
  · have hcast : ((u3 % v3 : Nat) + v3 * (u3 / v3 : Nat) : ZMod V) = u3 := mod_cast congrArg Nat.cast hdiv
    rw [cofactorSign_not]
    push_cast
    linear_combination h.u_eq + (u3 / v3 : Nat) * h.v_eq - cofactorSign V odd * hcast

/-- The loop runs until the remainder `v3`, which falls with every round, is zero. -/
theorem extEuclidLoop_spec {a V n u1 u3 v1 v3 : Nat} {odd : Bool} (h : EuclidInv a V u1 u3 v1 v3 odd) (hn : v3 < n) :
    let r := extEuclidLoop n u1 u3 v1 v3 odd
    ∃ w1, EuclidInv a V r.1 r.2.1 w1 0 r.2.2 := by
  induction n generalizing u1 u3 v1 v3 odd with
  | zero => omega
  | succ n ih =>
    rw [extEuclidLoop]
    split_ifs with hv3
    · exact ⟨v1, hv3 ▸ h⟩
    · exact ih (h.round hv3) ((Nat.mod_lt _ (Nat.pos_of_ne_zero hv3)).trans_le (Nat.le_of_lt_succ hn))

/-- A number up to V that is an inverse modulo V > 1 is neither 0 nor V. -/
theorem inverse_of_le {a V x : Nat} (hV : 1 < V) (hx : x ≤ V) (h : (a * x : ZMod V) = 1) :
    1 ≤ x ∧ x < V ∧ a * x % V = 1 := by
  have hmod : a * x % V = 1 := by
    rw [← Nat.mod_eq_of_lt hV, ← ZMod.natCast_eq_natCast_iff']
    exact_mod_cast h
  refine ⟨Nat.pos_of_ne_zero ?_, lt_of_le_of_ne hx ?_, hmod⟩
  · rintro rfl
    simp at hmod
  · rintro rfl
    simp at hmod

/-- Where the last nonzero remainder is 1, the cofactor with its sign is the inverse. -/
theorem EuclidInv.inverse {a V u1 w1 : Nat} {odd : Bool} (h : EuclidInv a V u1 1 w1 0 odd) (hV : 1 < V) :
    let x := if odd then V - u1 else u1
    1 ≤ x ∧ x < V ∧ a * x % V = 1 := by
  have hu := h.u_eq
  cases odd with
  | false => exact inverse_of_le hV h.u1_le (by simpa [cofactorSign] using hu)
  | true =>
    refine inverse_of_le hV (Nat.sub_le V u1) ?_
    rw [if_pos rfl, Nat.cast_sub h.u1_le, ZMod.natCast_self, zero_sub, mul_neg, hu]
    simp [cofactorSign]

/-- Settles O49: the last nonzero remainder is the gcd, and its cofactor is the inverse when that is 1. -/
theorem extendedEuclidInverts : Obligations.ExtendedEuclidInverts := by
  intro a V hV _
  obtain ⟨w1, hend⟩ := extEuclidLoop_spec (euclidInv_start (a := a) hV.le) (Nat.lt_succ_self V)
  have hgcd := hend.gcd_eq
  rw [Nat.gcd_zero_right] at hgcd
  rw [extEuclid]
  refine ⟨fun hone => ?_, fun hne => if_pos (hgcd.trans_ne hne)⟩
  rw [if_neg (not_not.2 (hgcd.trans hone))]
  rw [hgcd, hone] at hend
  exact hend.inverse hV

/-! MODINV (R236) -/

section Commands

variable {s : State} {rd rs1 rs2 : Reg}

theorem exec_modinv_of_neg (h : (s.reg rs1).val < 0 ∨ (s.reg rs2).val < 0) : exec (.modinv rd rs1 rs2) s =
    .next (s.raiseFault .arithmeticError (encode (.modinv rd rs1 rs2))) := by
  rw [← BigNum.isNeg_iff, ← BigNum.isNeg_iff] at h
  exact if_pos h

variable (hu : 0 ≤ (s.reg rs1).val)
include hu

/-- Past the check of the signs MODINV looks at the modulus only. -/
theorem exec_modinv_of_nonneg (hv : 0 ≤ (s.reg rs2).val) : exec (.modinv rd rs1 rs2) s =
    let w := encode (.modinv rd rs1 rs2)
    let x := s.draws.draw 0 1
    let m := (s.reg rs2).mag
    if m = 0 then .next (s.raiseFault .divisionByZero w)
    else if m = 1 then .next ((s.setDraws x.2).commit w rd .positive (Limbs.tight x.1))
    else .next (s.commit w rd .positive (Limbs.tight (extEuclid ((s.reg rs1).mag % m) m))) := by
  refine if_neg ?_
  rw [BigNum.isNeg_iff, BigNum.isNeg_iff]
  omega

theorem exec_modinv_of_zero (hv : (s.reg rs2).val = 0) : exec (.modinv rd rs1 rs2) s =
    .next (s.raiseFault .divisionByZero (encode (.modinv rd rs1 rs2))) :=
  (exec_modinv_of_nonneg hu hv.ge).trans (if_pos (BigNum.val_eq_zero_iff.1 hv))

theorem exec_modinv_of_one (hv : (s.reg rs2).val = 1) : exec (.modinv rd rs1 rs2) s =
    .next ((s.setDraws (s.draws.draw 0 1).2).commit (encode (.modinv rd rs1 rs2)) rd .positive
      (Limbs.tight (s.draws.draw 0 1).1)) := by
  have hmag := BigNum.val_of_nonneg (b := s.reg rs2) (by omega)
  exact (exec_modinv_of_nonneg hu (by omega)).trans ((if_neg (by omega)).trans (if_pos (by omega)))

theorem exec_modinv_of_one_lt (hv : 1 < (s.reg rs2).val) : exec (.modinv rd rs1 rs2) s =
    .next (s.commit (encode (.modinv rd rs1 rs2)) rd .positive
      (Limbs.tight (extEuclid ((s.reg rs1).mag % (s.reg rs2).mag) (s.reg rs2).mag))) := by
  have hmag := BigNum.val_of_nonneg (b := s.reg rs2) (by omega)
  exact (exec_modinv_of_nonneg hu (by omega)).trans ((if_neg (by omega)).trans (if_neg (by omega)))

end Commands

/-- The same loop result, read for an operand that is not yet reduced modulo V. -/
theorem extEuclid_mod {u V : Nat} (hV : 1 < V) :
    (Nat.gcd u V = 1 → 1 ≤ extEuclid (u % V) V ∧ extEuclid (u % V) V < V ∧ u * extEuclid (u % V) V % V = 1) ∧
    (Nat.gcd u V ≠ 1 → extEuclid (u % V) V = 0) := by
  have hinv := extendedEuclidInverts (u % V) V hV (Nat.mod_lt u (Nat.zero_lt_of_lt hV))
  rwa [← Nat.gcd_rec, Nat.gcd_comm, Nat.mod_mul_mod] at hinv

theorem tightCap_of_le_one {m : Nat} (h : m ≤ 1) : tightCap m = m := by
  rcases Nat.le_one_iff_eq_zero_or_eq_one.1 h with rfl | rfl
  · rfl
  · simp [tightCap]

/-- A tight write after draws leaves its number, and draws on from there. -/
theorem setDraws_write_tight (s : State) (p : DrawPort) (rd : Reg) (m : Nat) :
    let t := (s.setDraws p).write rd .positive (Limbs.tight m)
    (t.reg rd).val = m ∧ (t.reg rd).cap = tightCap m ∧ WritesOnly [rd] s t ∧ Tagged p (t.reg rd) t.draws :=
  ⟨(State.write_val _ _ _ _).trans (BigNum.val_positive_tight m),
    (State.write_cap _ _ _ _).trans (length_tight_eq_tightCap m),
    writesOnly_write (s := s.setDraws p), tagged_write (s := s.setDraws p)⟩

/-- Settles O50: the loop inverts `u mod v`, and its result is no greater than the modulus; the draw for the modulus 1
fits in any MAXCAP. -/
theorem modinvCommand : Obligations.ModinvCommand := by
  intro s rd rs1 rs2 hs u v
  refine ⟨fun h => raises_of_raiseFault (exec_modinv_of_neg h),
    fun hu hv => raises_of_raiseFault (exec_modinv_of_zero hu hv), fun hu hv => ?_, fun hu hv hgcd => ?_,
    fun hu hv hgcd => ?_⟩
  · obtain ⟨hmax, -, -⟩ := hs
    have hx : (s.draws.draw 0 1).1 ≤ 1 := (s.draws.draw_mem_range (Nat.zero_le 1)).2
    have hfit : (Limbs.tight (s.draws.draw 0 1).1).length ≤ s.maxcap := by
      rw [length_tight_eq_tightCap, tightCap_of_le_one hx]
      exact hx.trans hmax
    obtain ⟨hval, hcap, hrest⟩ := setDraws_write_tight s (s.draws.draw 0 1).2 rd (s.draws.draw 0 1).1
    rw [tightCap_of_le_one hx] at hcap
    exact ⟨_, (exec_modinv_of_one hu hv).trans (congrArg _ (State.commit_of_le hfit)), hval, hcap, hrest⟩
  · have hexec := exec_modinv_of_one_lt (rd := rd) hu hv
    rw [(extEuclid_mod (BigNum.one_lt_mag_of_val hv)).2 hgcd] at hexec
    exact commits_of_commit_tight hs rs2 hexec (Nat.zero_le _) (BigNum.val_positive_tight 0)
  · obtain ⟨hpos, hlt, hinv⟩ := (extEuclid_mod (BigNum.one_lt_mag_of_val hv)).1 hgcd
    exact ⟨_, hpos, hlt, hinv, commits_of_commit_tight hs rs2 (exec_modinv_of_one_lt hu hv) hlt.le
      (BigNum.val_positive_tight _)⟩

end Sys2Proof.Machine
end

section
/-! # Square-and-multiply and MODEXP (46_modexp.md R251, R252). -/

namespace Sys2Proof.Machine

open Claims

/-! Square-and-multiply (R251) -/

/-- One round: the accumulator is squared, and multiplied by the base on a set bit. -/
theorem modExp_round_modEq (br E M i acc : Nat) :
    (if E.testBit i then acc * acc % M * br % M else acc * acc % M) ≡
      acc ^ 2 * br ^ (E.testBit i).toNat [MOD M] := by
  have hsq : acc * acc % M ≡ acc ^ 2 [MOD M] := by
    rw [sq]
    exact Nat.mod_modEq _ _
  cases E.testBit i with
  | false => simpa using hsq
  | true => simpa using (Nat.mod_modEq _ _).trans (hsq.mul_right br)

/-- The i rounds square the accumulator i times and multiply in the power of the low i bits of the exponent. -/
theorem modExpLoop_modEq (br E M i acc : Nat) :
    modExpLoop br E M i acc ≡ acc ^ 2 ^ i * br ^ (E % 2 ^ i) [MOD M] := by
  induction i generalizing acc with
  | zero => simp [modExpLoop, Nat.mod_one, Nat.ModEq.refl]
  | succ i ih =>
    calc modExpLoop br E M (i + 1) acc
      _ ≡ _ ^ 2 ^ i * br ^ (E % 2 ^ i) [MOD M] := ih _
      _ ≡ (acc ^ 2 * br ^ (E.testBit i).toNat) ^ 2 ^ i * br ^ (E % 2 ^ i) [MOD M] :=
        ((modExp_round_modEq br E M i acc).pow _).mul_right _
      _ = acc ^ 2 ^ (i + 1) * br ^ (E % 2 ^ (i + 1)) := by
        rw [Nat.mod_pow_succ, ← Nat.toNat_testBit]
        ring

/-- Every round ends in a remainder modulo M, so the loop's result is reduced if there is a round or the start is. -/
theorem modExpLoop_lt {br E M i acc : Nat} (hM : 0 < M) (h : i ≠ 0 ∨ acc < M) : modExpLoop br E M i acc < M := by
  induction i generalizing acc with
  | zero => simpa [modExpLoop] using h
  | succ i ih =>
    refine ih (.inr ?_)
    split_ifs
    · exact Nat.mod_lt _ hM
    · exact Nat.mod_lt _ hM

/-- Settles O51: the rounds take in all the bits of the exponent; exponent 0 has none. -/
theorem squareAndMultiplyIsPower : Obligations.SquareAndMultiplyIsPower := by
  refine fun b E M hM => ⟨fun hE => ?_, rfl⟩
  have hrounds : bitlenOf E ≠ 0 := mt bitlenOf_eq_zero_iff.1 (Nat.ne_of_gt hE)
  have hpow : modExp b E M ≡ b ^ E [MOD M] := by
    calc modExp b E M
      _ ≡ 1 ^ 2 ^ bitlenOf E * (b % M) ^ (E % 2 ^ bitlenOf E) [MOD M] := modExpLoop_modEq _ _ _ _ _
      _ = (b % M) ^ E := by rw [one_pow, one_mul, Nat.mod_eq_of_lt (lt_two_pow_bitlenOf E)]
      _ ≡ b ^ E [MOD M] := (Nat.mod_modEq b M).pow E
  have hlt : modExp b E M < M := modExpLoop_lt hM (.inl hrounds)
  exact (Nat.mod_eq_of_lt hlt).symm.trans hpow

/-! MODEXP (R252) -/

section Commands

variable {s : State} {rd rs1 rs2 rs3 : Reg}

theorem exec_modexp_of_neg (h : (s.reg rs1).val < 0 ∨ (s.reg rs2).val < 0 ∨ (s.reg rs3).val < 0) :
    exec (.modexp rd rs1 rs2 rs3) s =
      .next (s.raiseFault .arithmeticError (encode (.modexp rd rs1 rs2 rs3))) := by
  simp only [← BigNum.isNeg_iff] at h
  exact if_pos h

variable (hb : 0 ≤ (s.reg rs1).val) (he : 0 ≤ (s.reg rs2).val)
include hb he

/-- Past the check of the signs MODEXP looks at the modulus only. -/
theorem exec_modexp_of_nonneg (hm : 0 ≤ (s.reg rs3).val) : exec (.modexp rd rs1 rs2 rs3) s =
    let w := encode (.modexp rd rs1 rs2 rs3)
    if (s.reg rs3).mag = 0 then .next (s.raiseFault .divisionByZero w)
    else .next (s.commit w rd .positive
      (Limbs.tight (modExp (s.reg rs1).mag (s.reg rs2).mag (s.reg rs3).mag))) := by
  refine if_neg ?_
  simp only [BigNum.isNeg_iff]
  omega

theorem exec_modexp_of_zero (hm : (s.reg rs3).val = 0) : exec (.modexp rd rs1 rs2 rs3) s =
    .next (s.raiseFault .divisionByZero (encode (.modexp rd rs1 rs2 rs3))) :=
  (exec_modexp_of_nonneg hb he hm.ge).trans (if_pos (BigNum.val_eq_zero_iff.1 hm))

/-- Past both checks MODEXP commits the power of R251; no result up to the modulus, a register, exceeds MAXCAP. -/
theorem modexp_commits (hs : s.CapsBounded) (hm : 0 < (s.reg rs3).val) {r : Nat}
    (hr : modExp (s.reg rs1).mag (s.reg rs2).mag (s.reg rs3).mag = r) (hle : r ≤ (s.reg rs3).mag) :
    Commits rd r (tightCap r) (.modexp rd rs1 rs2 rs3) s := by
  have hexec := (exec_modexp_of_nonneg (rd := rd) hb he hm.le).trans
    (if_neg (BigNum.mag_ne_zero_of_val_ne hm.ne'))
  rw [hr] at hexec
  exact commits_of_commit_tight hs rs3 hexec hle (BigNum.val_positive_tight r)

end Commands

/-- Settles O52: by O51 the result is 1 or a remainder modulo the modulus, which MAXCAP holds. -/
theorem modexpCommand : Obligations.ModexpCommand := by
  intro s rd rs1 rs2 rs3 hs b e m
  have hpos : 0 < m.val → 1 ≤ m.mag := fun hm => Nat.pos_of_ne_zero (BigNum.mag_ne_zero_of_val_ne hm.ne')
  refine ⟨fun h => raises_of_raiseFault (exec_modexp_of_neg h),
    fun hb he hm => raises_of_raiseFault (exec_modexp_of_zero hb he hm), fun hb he hm => ?_, fun hb he hm => ?_⟩
  · have hone : modExp b.mag e.mag m.mag = 1 := by
      rw [BigNum.val_eq_zero_iff.1 he]
      exact (squareAndMultiplyIsPower b.mag 0 m.mag (hpos hm)).2
    exact modexp_commits hb he.ge hs hm hone (hpos hm)
  · have hexp : 1 ≤ e.mag := Nat.pos_of_ne_zero (BigNum.mag_ne_zero_of_val_ne he.ne')
    exact modexp_commits hb he.le hs hm ((squareAndMultiplyIsPower b.mag e.mag m.mag (hpos hm)).1 hexp)
      (Nat.mod_lt _ (hpos hm)).le

end Sys2Proof.Machine
end

section
/-! # The Miller-Rabin round (47_primality.md R264). -/

namespace Sys2Proof.Machine

/-! What a round computes -/

/-- A number is a power of two times an odd number in one way only. -/
theorem two_pow_mul_odd_inj {s s' t t' : Nat} (ht : t % 2 = 1) (ht' : t' % 2 = 1) (h : 2 ^ s * t = 2 ^ s' * t') :
    s = s' ∧ t = t' := by
  induction s generalizing s' with
  | zero =>
    cases s' with
    | zero => simpa using h
    | succ s' => rw [pow_succ', Nat.mul_assoc] at h; omega
  | succ s ih =>
    cases s' with
    | zero => rw [pow_succ', Nat.mul_assoc] at h; omega
    | succ s' =>
      rw [pow_succ', pow_succ', Nat.mul_assoc, Nat.mul_assoc] at h
      obtain ⟨hs, htt⟩ := ih (Nat.eq_of_mul_eq_mul_left Nat.two_pos h)
      exact ⟨congrArg (· + 1) hs, htt⟩

theorem splitTwos_eq {m s t : Nat} (hm : m ≠ 0) (h : m = 2 ^ s * t) (ht : t % 2 = 1) :
    splitTwos (bitlenOf m) m 0 = (s, t) := by
  obtain ⟨hprod, hodd⟩ := splitTwos_spec (s := 0) hm (lt_two_pow_bitlenOf m)
  rw [pow_zero, Nat.one_mul] at hprod
  obtain ⟨hs, ht'⟩ := two_pow_mul_odd_inj hodd ht (hprod.trans h)
  exact Prod.ext hs ht'

/-- A base with a power that leaves 1 or n - 1 modulo n has no factor in common with n. -/
theorem gcd_eq_one_of_pow_mod {n a e : Nat} (hn : 1 ≤ n) (he : 0 < e) (h : a ^ e % n = 1 ∨ a ^ e % n = n - 1) :
    Nat.gcd a n = 1 := by
  have hmod : Nat.Coprime (a ^ e % n) n := by
    rcases h with h | h <;> rw [h]
    · exact Nat.coprime_one_left n
    · exact (Nat.coprime_self_sub_left hn).2 (Nat.coprime_one_left n)
  have hpow : Nat.Coprime (a ^ e) n := (Nat.mod_modEq (a ^ e) n).gcd_eq.symm.trans hmod
  exact (Nat.coprime_pow_left_iff he a n).1 hpow

/-- A round is the gcd, then the power of the odd part of n - 1, then its squarings. -/
theorem mrPasses_iff_squareLoop {n a s t : Nat} (hn : 1 < n) (ha : 1 ≤ a) (hst : n - 1 = 2 ^ s * t)
    (ht : t % 2 = 1) :
    mrPasses n a = true ↔
      Nat.gcd a n = 1 ∧ (a ^ t % n = 1 ∨ a ^ t % n = n - 1 ∨ squareLoop n (s - 1) (a ^ t % n) = true) := by
  have hpow : modExp a t n = a ^ t % n := (squareAndMultiplyIsPower a t n hn.le).1 (by omega)
  rw [mrPasses, splitTwos_eq (by omega) hst ht, binaryGcdIsGcd a n ha (by omega), ← or_assoc]
  simp only [hpow]
  split_ifs with hgcd hb
  · exact iff_of_false id fun h => hgcd h.1
  · exact iff_of_true rfl ⟨not_not.1 hgcd, .inl hb⟩
  · rw [and_iff_right (not_not.1 hgcd), or_iff_right hb]

/-- The strong test: the power that is n - 1 is the first one (r = 0) or one of the squarings (r ≥ 1). -/
theorem mrPasses_iff {n a s t : Nat} (hn : 1 < n) (hodd : n % 2 = 1) (ha : 1 ≤ a) (hst : n - 1 = 2 ^ s * t)
    (ht : t % 2 = 1) :
    mrPasses n a = true ↔ a ^ t % n = 1 ∨ ∃ r < s, a ^ (2 ^ r * t) % n = n - 1 := by
  have hs : 1 ≤ s := Nat.one_le_iff_ne_zero.2 fun h0 => by rw [h0, pow_zero, Nat.one_mul] at hst; omega
  have hsq : ∀ r, (a ^ t % n) ^ 2 ^ r % n = a ^ (2 ^ r * t) % n := fun r => by
    rw [← Nat.pow_mod, ← pow_mul, Nat.mul_comm]
  have hpowers : (a ^ t % n = n - 1 ∨ squareLoop n (s - 1) (a ^ t % n) = true) ↔
      ∃ r < s, a ^ (2 ^ r * t) % n = n - 1 := by
    simp only [squareLoop_iff, hsq]
    constructor
    · rintro (h | ⟨r, -, hr, h⟩)
      · exact ⟨0, hs, by rwa [pow_zero, Nat.one_mul]⟩
      · exact ⟨r, by omega, h⟩
    · rintro ⟨r, hr, h⟩
      rcases Nat.eq_zero_or_pos r with rfl | hpos
      · exact .inl (by rwa [pow_zero, Nat.one_mul] at h)
      · exact .inr ⟨r, hpos, by omega, h⟩
  rw [mrPasses_iff_squareLoop hn ha hst ht, hpowers, and_iff_right_iff_imp]
  rintro (h | ⟨r, -, h⟩)
  · exact gcd_eq_one_of_pow_mod hn.le (by omega) (.inl h)
  · exact gcd_eq_one_of_pow_mod hn.le (Nat.mul_pos (by positivity) (by omega)) (.inr h)

theorem mrPasses_of_gcd_ne_one {n a : Nat} (hn : 0 < n) (ha : 0 < a) (h : Nat.gcd a n ≠ 1) : mrPasses n a = false := by
  rw [← binaryGcdIsGcd a n ha hn] at h
  exact if_pos h

/-! A prime passes (R264, G4) -/

/-- Without zero divisors a root of unity of order a power of two is 1 or squares to -1 on the way. -/
theorem eq_one_or_pow_eq_neg_one {R : Type} [CommRing R] [NoZeroDivisors R] {x : R} {s : Nat} (h : x ^ 2 ^ s = 1) :
    x = 1 ∨ ∃ r < s, x ^ 2 ^ r = -1 := by
  induction s with
  | zero => exact .inl (by simpa using h)
  | succ s ih =>
    rw [pow_succ, pow_mul, sq_eq_one_iff] at h
    rcases h with h | h
    · exact (ih h).imp_right fun ⟨r, hr, hx⟩ => ⟨r, hr.trans (Nat.lt_succ_self s), hx⟩
    · exact .inr ⟨s, Nat.lt_succ_self s, h⟩

theorem mod_eq_one_of_cast {n m : Nat} (hn : 1 < n) (h : (m : ZMod n) = 1) : m % n = 1 := by
  rw [← Nat.mod_eq_of_lt hn, ← ZMod.natCast_eq_natCast_iff', h, Nat.cast_one]

theorem mod_eq_sub_one_of_cast {n m : Nat} (hn : 1 < n) (h : (m : ZMod n) = -1) : m % n = n - 1 := by
  rw [← Nat.mod_eq_of_lt (show n - 1 < n by omega), ← ZMod.natCast_eq_natCast_iff', h, Nat.cast_sub hn.le,
    ZMod.natCast_self, Nat.cast_one, zero_sub]

/-- By Fermat the power of the odd part is a root of unity of order `2^s` in a field. -/
theorem mrPasses_of_prime {n a : Nat} (hprime : Nat.Prime n) (hodd : n % 2 = 1) (ha : 1 ≤ a) (hlt : a < n) :
    mrPasses n a = true := by
  have hn := hprime.one_lt
  obtain ⟨s, t, ht, hst⟩ := Nat.exists_eq_two_pow_mul_odd (show n - 1 ≠ 0 by omega)
  have := Fact.mk hprime
  have hne : (a : ZMod n) ≠ 0 := fun h0 => Nat.not_dvd_of_pos_of_lt ha hlt ((ZMod.natCast_eq_zero_iff a n).1 h0)
  have hroot : ((a : ZMod n) ^ t) ^ 2 ^ s = 1 := by
    rw [← pow_mul, Nat.mul_comm, ← hst, ZMod.pow_card_sub_one_eq_one hne]
  rw [mrPasses_iff hn hodd ha hst (Nat.odd_iff.1 ht)]
  rcases eq_one_or_pow_eq_neg_one hroot with h | ⟨r, hr, h⟩
  · exact .inl (mod_eq_one_of_cast hn (by push_cast; exact h))
  · exact .inr ⟨r, hr, mod_eq_sub_one_of_cast hn (by push_cast; rw [Nat.mul_comm, pow_mul]; exact h)⟩

/-- Settles O53: the round is the strong test, and a prime passes it because its residues form a field. -/
theorem primePassesEveryRound : Obligations.PrimePassesEveryRound := fun n a hn hodd ha hle =>
  ⟨mrPasses_of_gcd_ne_one (by omega) ha, fun _ _ hst ht => mrPasses_iff (by omega) hodd ha hst ht,
    fun hprime => mrPasses_of_prime hprime hodd ha (by omega)⟩

end Sys2Proof.Machine
end

section
/-! # The table of small primes, and ISPRIME (47_primality.md R261 to R267). -/

namespace Sys2Proof.Machine

/-! The table (R261) -/

/-- The primes up to the square root of 2000. -/
def trialDivisors : List Nat := [2, 3, 5, 7, 11, 13, 17, 19, 23, 29, 31, 37, 41, 43]

theorem mem_trialDivisors : ∀ p < 45, Nat.Prime p → p ∈ trialDivisors := by decide

/-- A composite number below 2000 has its least prime factor below 45. -/
theorem prime_iff_of_lt {q : Nat} (h : q < 2000) :
    Nat.Prime q ↔ 2 ≤ q ∧ ∀ d ∈ trialDivisors, d ∣ q → d = q := by
  have htwo : ∀ d ∈ trialDivisors, 2 ≤ d := by decide
  refine ⟨fun hq => ⟨hq.two_le, fun d hd hdvd => (hq.eq_one_or_self_of_dvd d hdvd).resolve_left
    (Nat.ne_of_gt (htwo d hd))⟩, fun ⟨h2, hdiv⟩ => ?_⟩
  by_contra hq
  have hmin : q.minFac.Prime := Nat.minFac_prime (by omega)
  have hsq : q.minFac ^ 2 ≤ q := Nat.minFac_sq_le_self (by omega) hq
  have hlt : q.minFac < 45 := lt_of_pow_lt_pow_left₀ 2 (by omega) (by omega)
  exact hq (hdiv _ (mem_trialDivisors _ hlt hmin) q.minFac_dvd ▸ hmin)

/-- The table as a sieve: a finite check of the numbers below 2000, which the kernel evaluates. -/
theorem smallPrimes_eq_filter :
    smallPrimes = (List.range 2000).filter fun q => 2 < q ∧ ∀ d ∈ trialDivisors, d ∣ q → d = q := by
  decide +kernel

/-- The table holds the odd primes below 2000 and no other number. -/
theorem mem_smallPrimes_iff {q : Nat} : q ∈ smallPrimes ↔ q < 2000 ∧ 2 < q ∧ Nat.Prime q := by
  rw [smallPrimes_eq_filter, List.mem_filter, List.mem_range, decide_eq_true_iff]
  refine and_congr_right fun h => and_congr_right fun h2 => ?_
  rw [prime_iff_of_lt h, and_iff_right h2.le]

/-! Trial division (R263) -/

/-- Trial division finds n in the list, or a proper divisor of n, or neither. -/
theorem trialDivide_cases (n : Nat) (L : List Nat) :
    (trialDivide n L = some true ∧ n ∈ L) ∨ (trialDivide n L = some false ∧ ∃ p ∈ L, p ≠ n ∧ p ∣ n) ∨
      (trialDivide n L = none ∧ ∀ p ∈ L, ¬ p ∣ n) := by
  induction L with
  | nil => exact .inr (.inr ⟨rfl, fun _ h => absurd h List.not_mem_nil⟩)
  | cons p ps ih =>
    rw [trialDivide]
    split_ifs with heq hdvd
    · exact .inl ⟨rfl, heq ▸ List.mem_cons_self⟩
    · exact .inr (.inl ⟨rfl, p, List.mem_cons_self, Ne.symm heq, Nat.dvd_of_mod_eq_zero hdvd⟩)
    · have hhead : ¬ p ∣ n := fun h => hdvd (Nat.mod_eq_zero_of_dvd h)
      rcases ih with ⟨h, hn⟩ | ⟨h, d, hd, hrest⟩ | ⟨h, hnone⟩
      · exact .inl ⟨h, List.mem_cons_of_mem p hn⟩
      · exact .inr (.inl ⟨h, d, List.mem_cons_of_mem p hd, hrest⟩)
      · exact .inr (.inr ⟨h, List.forall_mem_cons.2 ⟨hhead, hnone⟩⟩)

/-- A value without a prime factor below 2000. -/
def NoSmallFactor (n : Int) : Prop := ∀ q : Nat, Nat.Prime q → q < 2000 → ¬ (q : Int) ∣ n

theorem trialDivide_of_mem {n : Nat} (h : n ∈ smallPrimes) : trialDivide n smallPrimes = some true := by
  rcases trialDivide_cases n smallPrimes with ⟨htd, -⟩ | ⟨-, d, hd, hne, hdvd⟩ | ⟨-, hnone⟩
  · exact htd
  · obtain ⟨-, -, hn⟩ := mem_smallPrimes_iff.1 h
    obtain ⟨-, hd2, -⟩ := mem_smallPrimes_iff.1 hd
    exact absurd ((hn.eq_one_or_self_of_dvd d hdvd).resolve_left (by omega)) hne
  · exact absurd dvd_rfl (hnone n h)

theorem trialDivide_of_proper_dvd {n q : Nat} (h : q ∈ smallPrimes) (hne : n ≠ q) (hdvd : q ∣ n) :
    trialDivide n smallPrimes = some false := by
  rcases trialDivide_cases n smallPrimes with ⟨-, hn⟩ | ⟨htd, -⟩ | ⟨-, hnone⟩
  · obtain ⟨-, -, hprime⟩ := mem_smallPrimes_iff.1 hn
    obtain ⟨-, hq2, -⟩ := mem_smallPrimes_iff.1 h
    exact absurd ((hprime.eq_one_or_self_of_dvd q hdvd).resolve_left (by omega)).symm hne
  · exact htd
  · exact absurd hdvd (hnone q h)

theorem trialDivide_of_noSmallFactor {n : Nat} (h : NoSmallFactor n) : trialDivide n smallPrimes = none := by
  have hnone : ∀ p ∈ smallPrimes, ¬ p ∣ n := fun p hp hdvd => by
    obtain ⟨hlt, -, hprime⟩ := mem_smallPrimes_iff.1 hp
    exact h p hprime hlt (Int.natCast_dvd_natCast.2 hdvd)
  rcases trialDivide_cases n smallPrimes with ⟨-, hn⟩ | ⟨-, d, hd, -, hdvd⟩ | ⟨htd, -⟩
  · exact absurd dvd_rfl (hnone n hn)
  · exact absurd hdvd (hnone d hd)
  · exact htd

/-! The whole test (R262, R265) -/

section Test

variable {n : Int} {acc : Nat} {p : DrawPort}

theorem isProbablyPrime_of_le_one (h : n ≤ 1) : isProbablyPrime n acc p = (false, p) := if_pos h

theorem isProbablyPrime_two : isProbablyPrime 2 acc p = (true, p) := rfl

theorem isProbablyPrime_of_even (h : n ≠ 2) (heven : n % 2 = 0) : isProbablyPrime n acc p = (false, p) := by
  rw [isProbablyPrime, if_neg h, if_pos heven, ite_self]

/-- An odd number above 1 is settled by the table where the table has a verdict. -/
theorem isProbablyPrime_of_some {m : Nat} {b : Bool} (hm : 1 < m) (hodd : m % 2 = 1)
    (h : trialDivide m smallPrimes = some b) : isProbablyPrime m acc p = (b, p) := by
  rw [isProbablyPrime, if_neg (by omega), if_neg (by omega), if_neg (by omega), Int.toNat_natCast, h]

theorem isProbablyPrime_of_none {m : Nat} (hm : 1 < m) (hodd : m % 2 = 1) (h : trialDivide m smallPrimes = none) :
    isProbablyPrime m acc p = mrRounds m acc p := by
  rw [isProbablyPrime, if_neg (by omega), if_neg (by omega), if_neg (by omega), Int.toNat_natCast, h]

theorem isProbablyPrime_of_small_prime {q : Nat} (hq : Nat.Prime q) (hlt : q < 2000) :
    isProbablyPrime q acc p = (true, p) := by
  rcases hq.eq_two_or_odd with rfl | hodd
  · exact isProbablyPrime_two
  · have hq2 := hq.two_le
    exact isProbablyPrime_of_some hq.one_lt hodd (trialDivide_of_mem (mem_smallPrimes_iff.2 ⟨hlt, by omega, hq⟩))

theorem isProbablyPrime_of_small_factor {q : Nat} (hq : Nat.Prime q) (hlt : q < 2000) (hne : n ≠ q)
    (hdvd : (q : Int) ∣ n) : isProbablyPrime n acc p = (false, p) := by
  rcases le_or_gt n 1 with hle | hgt
  · exact isProbablyPrime_of_le_one hle
  lift n to Nat using by omega
  have hdvd' : q ∣ n := Int.natCast_dvd_natCast.1 hdvd
  have hne' : n ≠ q := fun h => hne (congrArg _ h)
  rcases Nat.mod_two_eq_zero_or_one n with heven | hodd
  · have htwo : n ≠ 2 := by
      rintro rfl
      exact hne' ((Nat.prime_dvd_prime_iff_eq hq Nat.prime_two).1 hdvd').symm
    exact isProbablyPrime_of_even (by omega) (by omega)
  · have hq2 : q ≠ 2 := by
      rintro rfl
      omega
    have hmem : q ∈ smallPrimes := mem_smallPrimes_iff.2 ⟨hlt, lt_of_le_of_ne hq.two_le hq2.symm, hq⟩
    exact isProbablyPrime_of_some (by omega) hodd (trialDivide_of_proper_dvd hmem hne' hdvd')

theorem NoSmallFactor.odd (h : NoSmallFactor n) : n % 2 = 1 := by
  have h2 := h 2 Nat.prime_two (by decide)
  omega

theorem isProbablyPrime_of_noSmallFactor (hn : 1 < n) (h : NoSmallFactor n) :
    isProbablyPrime n acc p = mrRounds n.toNat acc p := by
  have hodd := h.odd
  lift n to Nat using by omega
  exact isProbablyPrime_of_none (by omega) (by omega) (trialDivide_of_noSmallFactor h)

/-- What the table lets through is above its primes (R263). -/
theorem NoSmallFactor.le {m : Nat} (hm : 1 < m) (h : NoSmallFactor m) : 2003 ≤ m := by
  have hmin : Nat.Prime m.minFac := Nat.minFac_prime (by omega)
  have hlarge : 2000 ≤ m.minFac := not_lt.1 fun hlt => h _ hmin hlt (Int.natCast_dvd_natCast.2 m.minFac_dvd)
  have hle : m.minFac ≤ m := Nat.minFac_le (by omega)
  have hodd := h.odd
  have hthree := h 3 Nat.prime_three (by decide)
  omega

theorem noSmallFactor_of_prime {q : Nat} (hq : Nat.Prime q) (hle : 2000 ≤ q) : NoSmallFactor q := by
  intro r hr hlt hdvd
  have heq := (Nat.prime_dvd_prime_iff_eq hr hq).1 (Int.natCast_dvd_natCast.1 hdvd)
  omega

/-- A prime passes the table or is in it, and then every round, whatever base is drawn. -/
theorem isProbablyPrime_of_prime {q : Nat} (hq : Nat.Prime q) : (isProbablyPrime q acc p).1 = true := by
  rcases lt_or_ge q 2000 with hlt | hge
  · rw [isProbablyPrime_of_small_prime hq hlt]
  · have hfree := noSmallFactor_of_prime hq hge
    have hlarge := hfree.le hq.one_lt
    have hodd := hfree.odd
    rw [isProbablyPrime_of_noSmallFactor (mod_cast hq.one_lt) hfree, Int.toNat_natCast, mrRounds_iff]
    intro j _
    obtain ⟨hlo, hhi⟩ := (DrawPort.advance^[j] p).draw_mem_range (lo := 1) (hi := q - 1) (by omega)
    exact mrPasses_of_prime hq (by omega) hlo (by omega)

end Test

/-! ISPRIME (R266) -/

theorem exec_isprime (s : State) (rs1 : Reg) : exec (.isprime rs1) s =
    let r := isProbablyPrime (s.reg rs1).val s.arg0.toNat s.draws
    .next ((s.setDraws r.2).setT r.1) := rfl

/-- Settles O54: the table decides, or the rounds do, and a prime passes both. -/
theorem isprimeVerdict : Obligations.IsprimeVerdict := by
  intro s rs1 n acc base
  refine ⟨(isProbablyPrime n acc s.draws).1, (isProbablyPrime n acc s.draws).2, exec_isprime s rs1, fun hle => ?_,
    fun q hq hlt heq => ?_, fun q hq hlt hne hdvd => ?_, fun hn hfree => ?_, fun q hq heq => ?_⟩
  · rw [isProbablyPrime_of_le_one hle]
    exact ⟨rfl, rfl⟩
  · rw [heq, isProbablyPrime_of_small_prime hq hlt]
    exact ⟨rfl, rfl⟩
  · rw [isProbablyPrime_of_small_factor hq hlt hne hdvd]
    exact ⟨rfl, rfl⟩
  · rw [isProbablyPrime_of_noSmallFactor hn hfree]
    refine ⟨mrRounds_iff, fun h0 => ?_, mrRounds_draws n.toNat acc s.draws⟩
    rw [h0]
    rfl
  · rw [heq]
    exact isProbablyPrime_of_prime hq

end Sys2Proof.Machine
end

section
/-! # RANDL, RANDMAX and RANDBITS (48_random.md R280 to R284). -/

namespace Sys2Proof.Machine

open Claims

/-! A write after draws -/

section Write

variable {s : State} {p : DrawPort} {rd : Reg}

/-- A write after draws leaves its limbs, under the sign it was given unless they are zero. -/
theorem setDraws_write_spec {sg : Sign} {L : Limbs} :
    let t := (s.setDraws p).write rd sg L
    (t.reg rd).limbs = L ∧ ((t.reg rd).mag ≠ 0 → (t.reg rd).sign = sg) ∧ WritesOnly [rd] s t ∧
      Tagged p (t.reg rd) t.draws := by
  refine ⟨by rw [State.write_reg_self], fun h => ?_, writesOnly_write (s := s.setDraws p),
    tagged_write (s := s.setDraws p)⟩
  rw [State.write_mag] at h
  rw [State.write_reg_self, commitSign_of_ne h]

/-- A nonzero number written after draws is Positive, and its tag is not drawn. -/
theorem setDraws_write_ofMag {m n : Nat} (h0 : m ≠ 0) (hlt : m < Config.base ^ n) :
    let t := (s.setDraws p).write rd .positive (Limbs.ofMag m n)
    (t.reg rd).sign = .positive ∧ (t.reg rd).mag = m ∧ (t.reg rd).cap = n ∧ WritesOnly [rd] s t ∧ t.draws = p := by
  have hmag : (Limbs.ofMag m n).mag = m := Limbs.mag_ofMag_of_lt hlt
  have hne : (Limbs.ofMag m n).mag ≠ 0 := hmag.trans_ne h0
  refine ⟨?_, (State.write_mag _ _ _ _).trans hmag, (State.write_cap _ _ _ _).trans (Limbs.length_ofMag m n),
    writesOnly_write (s := s.setDraws p), State.write_draws_of_ne _ _ _ _ hne⟩
  rw [State.write_reg_self, commitSign_of_ne hne]

end Write

/-! RANDL (R282) -/

section Randl

variable {s : State} {rd : Reg}

theorem exec_randl_of_lt (h : s.maxcap < s.arg0.toNat) : exec (.randl rd) s =
    .next (s.raiseFault .allocationFailure (encode (.randl rd))) := if_pos h

theorem exec_randl_of_le (h : s.arg0.toNat ≤ s.maxcap) : exec (.randl rd) s =
    .next ((s.setDraws (s.draws.drawLimbs s.arg0.toNat).2).write rd .positive
      (s.draws.drawLimbs s.arg0.toNat).1) :=
  (if_neg (not_lt.2 h)).trans (congrArg _ (State.commit_of_le (by rwa [DrawPort.length_drawLimbs])))

end Randl

/-- The port whose environment has lined up the given limbs. -/
def DrawPort.answeringLimbs (L : Limbs) (k : Nat) : DrawPort := { queue := L.map BitVec.toNat, count := k }

theorem DrawPort.drawLimbs_answeringLimbs (L : Limbs) (k : Nat) :
    ((DrawPort.answeringLimbs L k).drawLimbs L.length).1 = L := by
  induction L generalizing k with
  | nil => rfl
  | cons l ls ih =>
    have hdraw : (answeringLimbs (l :: ls) k).draw 0 (Config.base - 1) = (l.toNat, answeringLimbs ls (k + 1)) :=
      DrawPort.draw_cons _ k (Nat.zero_le _) (Nat.le_sub_one_of_lt (word_lt_base l))
    rw [List.length_cons, DrawPort.drawLimbs, hdraw]
    exact congrArg₂ List.cons (by simp) (ih (k + 1))

/-- Settles O55: the drawn limbs are written as they are; a port that lines up the limbs of a list draws that list. -/
theorem randlFillsEveryLimb : Obligations.RandlFillsEveryLimb := by
  intro s rd n
  refine ⟨fun hlt => raises_of_raiseFault (exec_randl_of_lt hlt), fun hle => ⟨?_, fun L hL => ?_⟩⟩
  · obtain ⟨hlimbs, hrest⟩ := setDraws_write_spec (s := s) (p := (s.draws.drawLimbs n).2) (rd := rd)
      (sg := .positive) (L := (s.draws.drawLimbs n).1)
    exact ⟨_, exec_randl_of_le hle, hlimbs, (State.write_cap _ _ _ _).trans (DrawPort.length_drawLimbs _ _), hrest⟩
  · refine ⟨.answeringLimbs L 0, _, exec_randl_of_le hle, ?_⟩
    have hdrawn := DrawPort.drawLimbs_answeringLimbs L 0
    rw [hL] at hdrawn
    rw [State.write_reg_self]
    exact hdrawn

/-! RANDMAX (R283) -/

section Randmax

variable {s : State} {rd rs1 : Reg}

theorem exec_randmax_of_neg (h : (s.reg rs1).val < 0) : exec (.randmax rd rs1) s =
    .next (s.raiseFault .arithmeticError (encode (.randmax rd rs1))) := if_pos (BigNum.isNeg_iff.2 h)

/-- The number RANDMAX makes of a drawn one: reduced only when it exceeds max (R283). -/
def reduceAbove (max r : Nat) : Nat := if max < r then r % max else r

theorem reduceAbove_of_le {max r : Nat} (h : r ≤ max) : reduceAbove max r = r := if_neg (not_lt.2 h)

/-- A zero max has no active limb, so the number drawn for it is zero and is not divided by it. -/
theorem reduceAbove_mag_le (m : BigNum) (p : DrawPort) : reduceAbove m.mag (p.drawLimbs m.alen).1.mag ≤ m.mag := by
  rw [reduceAbove]
  split_ifs with hgt
  · have hpos : 0 < m.mag := by
      by_contra h0
      have halen : m.alen = 0 := Limbs.alen_eq_zero_iff.2 (Nat.eq_zero_of_not_pos h0)
      rw [halen] at hgt
      exact Nat.not_lt_zero _ hgt
    exact (Nat.mod_lt _ hpos).le
  · exact not_lt.1 hgt

theorem exec_randmax_of_nonneg (hs : s.CapsBounded) (h : 0 ≤ (s.reg rs1).val) : exec (.randmax rd rs1) s =
    let m := s.reg rs1
    let d := s.draws.drawLimbs m.alen
    .next ((s.setDraws d.2).write rd .positive (Limbs.ofMag (reduceAbove m.mag d.1.mag) m.alen)) := by
  obtain ⟨-, -, hcap⟩ := hs
  refine (if_neg (mt BigNum.isNeg_iff.1 (not_lt.2 h))).trans (congrArg _ (State.commit_of_le ?_))
  rw [Limbs.length_ofMag]
  exact (BigNum.alen_le_cap _).trans (hcap rs1)

/-- RANDMAX completes with the reduced draw, which fits in the active limbs of max. -/
theorem randmax_spec (hs : s.CapsBounded) (h : 0 ≤ (s.reg rs1).val) :
    let m := s.reg rs1
    let d := s.draws.drawLimbs m.alen
    ∃ t, exec (.randmax rd rs1) s = .next t ∧ (t.reg rd).val = reduceAbove m.mag d.1.mag ∧ (t.reg rd).cap = m.alen ∧
      WritesOnly [rd] s t ∧ Tagged d.2 (t.reg rd) t.draws := by
  intro m d
  obtain ⟨-, -, hrest⟩ := setDraws_write_spec (s := s) (p := d.2) (rd := rd) (sg := .positive)
    (L := Limbs.ofMag (reduceAbove m.mag d.1.mag) m.alen)
  refine ⟨_, exec_randmax_of_nonneg hs h, (State.write_val _ _ _ _).trans ?_,
    (State.write_cap _ _ _ _).trans (Limbs.length_ofMag _ _), hrest⟩
  have hlt := (reduceAbove_mag_le m s.draws).trans_lt (Limbs.mag_lt_base_pow_alen m.limbs)
  rw [BigNum.val_positive rfl]
  exact congrArg Nat.cast (Limbs.mag_ofMag_of_lt hlt)

end Randmax

/-- Settles O56: the reduced draw is at most max; a port that lines up the limbs of such a value draws it. -/
theorem randmaxStaysAtOrBelowMax : Obligations.RandmaxStaysAtOrBelowMax := by
  intro s rd rs1 hs m
  refine ⟨fun hneg => raises_of_raiseFault (exec_randmax_of_neg hneg), fun h => ⟨?_, fun r hr => ?_⟩⟩
  · obtain ⟨t, hexec, hval, hcap, hrest⟩ := randmax_spec (rd := rd) hs h
    have hle : ((reduceAbove m.mag (s.draws.drawLimbs m.alen).1.mag : Nat) : Int) ≤ m.val := by
      rw [BigNum.val_of_nonneg h]
      exact_mod_cast reduceAbove_mag_le m s.draws
    refine ⟨t, hexec, ?_, hval.trans_le hle, hcap, ?_, hrest⟩
    · rw [hval]
      exact Int.natCast_nonneg _
    · rw [← BigNum.natAbs_val, hval]
      rfl
  · rw [BigNum.val_of_nonneg h, Nat.cast_le] at hr
    have hmag : (Limbs.ofMag r m.alen).mag = r :=
      Limbs.mag_ofMag_of_lt (hr.trans_lt (Limbs.mag_lt_base_pow_alen m.limbs))
    have hdrawn := DrawPort.drawLimbs_answeringLimbs (Limbs.ofMag r m.alen) 0
    rw [Limbs.length_ofMag] at hdrawn
    obtain ⟨t, hexec, hval, -⟩ := randmax_spec (s := s.setDraws (.answeringLimbs (Limbs.ofMag r m.alen) 0)) (rd := rd)
      hs h
    refine ⟨_, t, hexec, hval.trans ?_⟩
    rw [State.setDraws_reg, State.setDraws_draws, hdrawn, hmag, reduceAbove_of_le hr]

/-! RANDBITS (R284) -/

/-- The forced top bit settles the bit length. -/
theorem size_two_pow_add {k d : Nat} (h : d < 2 ^ k) : Nat.size (2 ^ k + d) = k + 1 := by
  apply le_antisymm
  · rw [Nat.size_le, pow_succ]
    omega
  · exact Nat.lt_size.2 (Nat.le_add_right _ _)

theorem drawBits_eq (bits : Nat) (p : DrawPort) :
    drawBits bits p = (2 ^ (bits - 1) + (p.draw 0 (2 ^ (bits - 1) - 1)).1, p.advance) := rfl

theorem size_drawBits {bits : Nat} (hbits : bits ≠ 0) (p : DrawPort) : Nat.size (drawBits bits p).1 = bits := by
  have hpow : 0 < 2 ^ (bits - 1) := by positivity
  obtain ⟨-, hle⟩ := p.draw_mem_range (Nat.zero_le (2 ^ (bits - 1) - 1))
  rw [drawBits_eq, size_two_pow_add (by omega)]
  omega

/-- The bits of a number below its top one are in the range of the draw. -/
theorem size_low_bits {bits r : Nat} (hbits : bits ≠ 0) (h : Nat.size r = bits) :
    2 ^ (bits - 1) ≤ r ∧ r - 2 ^ (bits - 1) ≤ 2 ^ (bits - 1) - 1 := by
  have hlo : 2 ^ (bits - 1) ≤ r := Nat.lt_size.1 (by omega)
  have hhi : r < 2 ^ bits := Nat.size_le.1 h.le
  have hpow : 2 ^ bits = 2 * 2 ^ (bits - 1) := by rw [← pow_succ', Nat.sub_one_add_one hbits]
  omega

/-- A number of that bit length is drawn from the port that has lined up its bits below the top one. -/
theorem drawBits_answering {bits r : Nat} (hbits : bits ≠ 0) (h : Nat.size r = bits) :
    (drawBits bits (.answering (r - 2 ^ (bits - 1)))).1 = r := by
  obtain ⟨hlo, hle⟩ := size_low_bits hbits h
  rw [drawBits_eq, DrawPort.draw_answering (Nat.zero_le _) hle, Nat.add_sub_cancel' hlo]

theorem ne_zero_of_size {m bits : Nat} (hbits : bits ≠ 0) (h : Nat.size m = bits) : m ≠ 0 := by
  rintro rfl
  exact hbits (h.symm.trans Nat.size_zero)

theorem lt_base_pow_of_size {m bits : Nat} (h : Nat.size m = bits) : m < Config.base ^ limbCount bits :=
  lt_base_pow_limbCount_of_lt (Nat.size_le.1 h.le)

section Randbits

variable {s : State} {rd : Reg}

theorem exec_randbits_of_zero (h : s.arg0.toNat = 0) : exec (.randbits rd) s =
    .next (s.raiseFault .arithmeticError (encode (.randbits rd))) := if_pos h

theorem exec_randbits_of_lt (h0 : s.arg0.toNat ≠ 0) (h : s.maxcap < limbCount s.arg0.toNat) :
    exec (.randbits rd) s = .next (s.raiseFault .allocationFailure (encode (.randbits rd))) :=
  (if_neg h0).trans (if_pos h)

theorem exec_randbits_of_le (h0 : s.arg0.toNat ≠ 0) (h : limbCount s.arg0.toNat ≤ s.maxcap) :
    exec (.randbits rd) s =
      let r := drawBits s.arg0.toNat s.draws
      .next ((s.setDraws r.2).write rd .positive (Limbs.ofMag r.1 (limbCount s.arg0.toNat))) :=
  (if_neg h0).trans ((if_neg (not_lt.2 h)).trans (congrArg _ (State.commit_of_le (by rwa [Limbs.length_ofMag]))))

/-- The drawn number has the forced top bit, and so is no zero and fits in its limbs. -/
theorem randbits_spec (h0 : s.arg0.toNat ≠ 0) (h : limbCount s.arg0.toNat ≤ s.maxcap) :
    let r := drawBits s.arg0.toNat s.draws
    ∃ t, exec (.randbits rd) s = .next t ∧ (t.reg rd).sign = .positive ∧ (t.reg rd).mag = r.1 ∧
      (t.reg rd).cap = limbCount s.arg0.toNat ∧ WritesOnly [rd] s t ∧ t.draws = r.2 := by
  have hsize := size_drawBits h0 s.draws
  exact ⟨_, exec_randbits_of_le h0 h,
    setDraws_write_ofMag (ne_zero_of_size h0 hsize) (lt_base_pow_of_size hsize)⟩

end Randbits

/-- Settles O57: the command stores the number it draws, and every number of the bit length is drawn from some port. -/
theorem randbitsForcesTheBitLength : Obligations.RandbitsForcesTheBitLength := by
  intro s rd bits n
  refine ⟨fun h0 => raises_of_raiseFault (exec_randbits_of_zero h0),
    fun h0 hlt => raises_of_raiseFault (exec_randbits_of_lt h0 hlt), fun h0 hle => ⟨?_, fun r hr => ?_⟩⟩
  · obtain ⟨t, hexec, hsign, hmag, hrest⟩ := randbits_spec (rd := rd) h0 hle
    exact ⟨t, hexec, hsign, (congrArg Nat.size hmag).trans (size_drawBits h0 s.draws), hmag, hrest⟩
  · obtain ⟨t, hexec, -, hmag, -⟩ := randbits_spec (s := s.setDraws (.answering (r - 2 ^ (bits - 1)))) (rd := rd) h0 hle
    exact ⟨_, t, hexec, hmag.trans (drawBits_answering h0 hr)⟩

end Sys2Proof.Machine
end

section
/-! # The prime search (48_random.md R285; log 7). -/

namespace Sys2Proof.Machine

open Claims

/-! The scan (R285) -/

section Scan

variable {r j bits : Nat} {p : DrawPort}

/-- Candidates that are rejected only take their draws. -/
theorem primeScan_of_rejected {k : Nat} (fuel : Nat)
    (h : ∀ i < k, (isProbablyPrime (r + 2 * i : Nat) 30 (portAt r p i)).1 = false) :
    primeScan (fuel + k) r p = primeScan fuel (r + 2 * k) (portAt r p k) := by
  induction k generalizing fuel with
  | zero => rfl
  | succ k ih =>
    have hk : (isProbablyPrime (r + 2 * k : Nat) Config.primeAccuracy (portAt r p k)).1 = false := h k k.lt_succ_self
    rw [show fuel + (k + 1) = fuel + 1 + k by omega, ih (fuel + 1) fun i hi => h i (hi.trans k.lt_succ_self), primeScan]
    simp only [hk]
    rfl

/-- The scan ends with the first accepted candidate, if that is within its bound. -/
theorem primeScan_of_firstAccepted {fuel : Nat} (h : FirstAccepted r p j) (hj : j < fuel) :
    primeScan fuel r p = (some (r + 2 * j), portAt r p (j + 1)) := by
  obtain ⟨haccept, hreject⟩ := h
  have haccept' : (isProbablyPrime (r + 2 * j : Nat) Config.primeAccuracy (portAt r p j)).1 = true := haccept
  obtain ⟨k, rfl⟩ := Nat.exists_eq_add_of_lt hj
  rw [show j + k + 1 = (k + 1) + j by omega, primeScan_of_rejected (k + 1) hreject, primeScan]
  simp only [haccept', if_true]
  rfl

/-- Bertrand's postulate: every odd number up to `2^(bits + 1)` is a candidate, and there is a prime among them. -/
theorem exists_prime_candidate (hodd : r % 2 = 1) (hlt : r < 2 ^ bits) : ∃ k < 2 ^ bits, Nat.Prime (r + 2 * k) := by
  obtain ⟨q, hq, hgt, hle⟩ := Nat.exists_prime_lt_and_le_two_mul (2 ^ bits) (by positivity)
  have hq_odd : q % 2 = 1 := hq.eq_two_or_odd.resolve_left (by omega)
  refine ⟨(q - r) / 2, by omega, ?_⟩
  rwa [show r + 2 * ((q - r) / 2) = q by omega]

/-- The scan of an odd start accepts a candidate within its bound: at the latest the prime among them (log 7). -/
theorem exists_firstAccepted (hodd : r % 2 = 1) (hlt : r < 2 ^ bits) (p : DrawPort) :
    ∃ j < 2 ^ bits, FirstAccepted r p j := by
  obtain ⟨k, hk, hprime⟩ := exists_prime_candidate hodd hlt
  have hexists : ∃ j, (isProbablyPrime (r + 2 * j : Nat) 30 (portAt r p j)).1 = true :=
    ⟨k, isProbablyPrime_of_prime hprime⟩
  exact ⟨Nat.find hexists, (Nat.find_min' hexists (isProbablyPrime_of_prime hprime)).trans_lt hk,
    Nat.find_spec hexists, fun i hi => by simpa using Nat.find_min hexists hi⟩

/-- A start that is accepted itself is the find. -/
theorem firstAccepted_zero (h : (isProbablyPrime r 30 p).1 = true) : FirstAccepted r p 0 :=
  ⟨h, fun i hi => absurd hi (Nat.not_lt_zero i)⟩

theorem firstAccepted_unique {j' : Nat} (h : FirstAccepted r p j) (h' : FirstAccepted r p j') : j = j' := by
  obtain ⟨haccept, hreject⟩ := h
  obtain ⟨haccept', hreject'⟩ := h'
  rcases lt_trichotomy j j' with hlt | heq | hgt
  · exact absurd haccept (Bool.eq_false_iff.1 (hreject' j hlt))
  · exact heq
  · exact absurd haccept' (Bool.eq_false_iff.1 (hreject j' hgt))

end Scan

/-! The start (R285) -/

section Start

variable {bits topBits d : Nat}

theorem searchStart_odd : searchStart bits topBits d % 2 = 1 := Nat.or_mod_two_eq_one.2 (.inr rfl)

theorem searchStart_lt (hbits : bits ≠ 0) (hd : d < 2 ^ (bits - 1)) : searchStart bits topBits d < 2 ^ bits := by
  have hpow : 2 ^ bits = 2 * 2 ^ (bits - 1) := by rw [← pow_succ', Nat.sub_one_add_one hbits]
  have hmask : 0 < 2 ^ (bits - topBits) := by positivity
  exact Nat.or_lt_two_pow (Nat.or_lt_two_pow (by omega) (by omega)) (by omega)

/-- The start has the bits of the mask, and without a mask the top bit of the drawn number. -/
theorem le_searchStart (hbits : bits ≠ 0) :
    2 ^ bits - 2 ^ (bits - max topBits 1) ≤ searchStart bits topBits d := by
  rcases Nat.eq_zero_or_pos topBits with rfl | htop
  · have hpow : 2 ^ bits = 2 * 2 ^ (bits - 1) := by rw [← pow_succ', Nat.sub_one_add_one hbits]
    calc 2 ^ bits - 2 ^ (bits - max 0 1) = 2 ^ (bits - 1) := by simp only [Nat.zero_max]; omega
      _ ≤ 2 ^ (bits - 1) + d := Nat.le_add_right _ _
      _ ≤ _ := Nat.left_le_or.trans Nat.left_le_or
  · rw [max_eq_left htop]
    exact Nat.right_le_or.trans Nat.left_le_or

theorem or_eq_self_of_eq_or {x a b : Nat} (h : x = a ||| b) : x ||| a = x ∧ x ||| b = x := by
  subst h
  exact ⟨by rw [Nat.or_comm, ← Nat.or_assoc, Nat.or_self], by rw [Nat.or_assoc, Nat.or_self]⟩

/-- A number of the bit length that is not below the mask has the bits of the mask. -/
theorem or_mask_eq_self {k q : Nat} (hk : k ≤ bits) (hlo : 2 ^ bits - 2 ^ k ≤ q) (hhi : q < 2 ^ bits) :
    q ||| (2 ^ bits - 2 ^ k) = q := by
  have hle : 2 ^ k ≤ 2 ^ bits := Nat.pow_le_pow_right Nat.two_pos hk
  have hmask : 2 ^ bits - 2 ^ k = 2 ^ k * (2 ^ (bits - k) - 1) := by
    rw [Nat.mul_sub, ← pow_add, Nat.add_sub_cancel' hk, Nat.mul_one]
  have hsplit : q = (2 ^ bits - 2 ^ k) ||| (q - (2 ^ bits - 2 ^ k)) := by
    rw [hmask, ← Nat.two_pow_add_eq_or_of_lt (by omega), ← hmask, Nat.add_sub_cancel' hlo]
  exact (or_eq_self_of_eq_or hsplit).1

theorem or_one_eq_self {q : Nat} (h : q % 2 = 1) : q ||| 1 = q := by
  have hsplit : q = 2 ^ 1 * (q / 2) ||| 1 := by
    rw [← Nat.two_pow_add_eq_or_of_lt (by decide)]
    omega
  exact (or_eq_self_of_eq_or hsplit).2

/-- A result of the search is its own start, if it is the number drawn. -/
theorem searchStart_of_searchResult {q : Nat} (hbits : bits ≠ 0) (h : SearchResult bits topBits q) :
    searchStart bits topBits (q - 2 ^ (bits - 1)) = q := by
  obtain ⟨hsize, hodd, hmask, -⟩ := h
  have hlo : 2 ^ (bits - 1) ≤ q := Nat.lt_size.1 (by omega)
  have hle : 2 ^ (bits - max topBits 1) ≤ 2 ^ (bits - topBits) := Nat.pow_le_pow_right Nat.two_pos (by omega)
  rw [searchStart, Nat.add_sub_cancel' hlo, or_mask_eq_self (Nat.sub_le _ _) (by omega) (Nat.size_le.1 hsize.le),
    or_one_eq_self hodd]

end Start

/-! What the test accepts (R265, R286) -/

/-- An accepted number is a prime, of the table or not, or has no factor in the table. -/
theorem of_isProbablyPrime {m acc : Nat} {p : DrawPort} (h : (isProbablyPrime m acc p).1 = true) :
    m ≠ 1 ∧ (Nat.Prime m ∨ ∀ f, Nat.Prime f → f < 2000 → ¬ f ∣ m) := by
  refine ⟨?_, or_iff_not_imp_right.2 fun hfactor => ?_⟩
  · rintro rfl
    simp [isProbablyPrime_of_le_one] at h
  · push Not at hfactor
    obtain ⟨f, hf, hlt, hdvd⟩ := hfactor
    by_contra hm
    have hne : (m : Int) ≠ f := fun heq => hm (Nat.cast_injective heq ▸ hf)
    rw [isProbablyPrime_of_small_factor hf hlt hne (Int.natCast_dvd_natCast.2 hdvd)] at h
    exact Bool.false_ne_true h

/-- The base 1 passes every round (R264, G4). -/
theorem mrPasses_one {n : Nat} (hn : 1 < n) (hodd : n % 2 = 1) : mrPasses n 1 = true := by
  obtain ⟨s, t, ht, hst⟩ := Nat.exists_eq_two_pow_mul_odd (show n - 1 ≠ 0 by omega)
  rw [mrPasses_iff hn hodd le_rfl hst (Nat.odd_iff.1 ht), one_pow]
  exact .inl (Nat.mod_eq_of_lt hn)

theorem mrRounds_ones {n : Nat} (hn : 1 < n) (hodd : n % 2 = 1) (k c : Nat) :
    (mrRounds n k ⟨List.replicate k 1, c⟩).1 = true := by
  induction k generalizing c with
  | zero => rfl
  | succ k ih =>
    rw [mrRounds, List.replicate_succ, DrawPort.draw_cons _ c le_rfl (by omega)]
    simp only [mrPasses_one hn hodd, if_true]
    exact ih (c + 1)

/-- What R286 calls a result is accepted, if every base drawn is 1. -/
theorem isProbablyPrime_of_searchResult {bits topBits q : Nat} (h : SearchResult bits topBits q) (k c : Nat) :
    (isProbablyPrime q k ⟨List.replicate k 1, c⟩).1 = true := by
  obtain ⟨-, hodd, -, hne, hprime | hfree⟩ := h
  · exact isProbablyPrime_of_prime hprime
  · have hfree' : NoSmallFactor q := fun f hf hlt hdvd => hfree f hf hlt (Int.natCast_dvd_natCast.1 hdvd)
    rw [isProbablyPrime_of_noSmallFactor (by omega) hfree', Int.toNat_natCast]
    exact mrRounds_ones (by omega) hodd k c

end Sys2Proof.Machine
end

section
/-! # GENPRIME (48_random.md R285 to R287; log 6). -/

namespace Sys2Proof.Machine

open Claims

/-! One pass of the search, and its outcome (R286) -/


section Genprime

variable {s : State} {rd : Reg}

theorem exec_genprime_of_badBits (h : s.arg0.toNat = 0 ∨ s.arg0.toNat < s.arg1.toNat) : exec (.genprime rd) s =
    .next (s.raiseFault .arithmeticError (encode (.genprime rd))) := if_pos h

theorem exec_genprime_of_lt (h0 : s.arg0.toNat ≠ 0) (htop : s.arg1.toNat ≤ s.arg0.toNat)
    (h : s.maxcap < limbCount s.arg0.toNat) : exec (.genprime rd) s =
    .next (s.raiseFault .allocationFailure (encode (.genprime rd))) := (if_neg (by omega)).trans (if_pos h)

/-- Settles O58: the two checks of the operands, before the search. -/
theorem genprimeFaults : Obligations.GenprimeFaults := fun _ _ =>
  ⟨fun h => raises_of_raiseFault (exec_genprime_of_badBits h),
    fun h0 htop h => raises_of_raiseFault (exec_genprime_of_lt h0 htop h)⟩

/-- Where the first pass starts to scan: the drawn number with the mask and bit 0 set (R285). -/
def State.passStart (s : State) : Nat :=
  searchStart s.arg0.toNat s.arg1.toNat (s.draws.draw 0 (2 ^ (s.arg0.toNat - 1) - 1)).1

theorem passStart_lt (h0 : s.arg0.toNat ≠ 0) : s.passStart < 2 ^ s.arg0.toNat := by
  have hpow : 0 < 2 ^ (s.arg0.toNat - 1) := by positivity
  obtain ⟨-, hle⟩ := s.draws.draw_mem_range (Nat.zero_le (2 ^ (s.arg0.toNat - 1) - 1))
  exact searchStart_lt h0 (by omega)

/-- The start of a pass is an odd number of the bit length, so the pass finds the first accepted candidate. -/
theorem genPrimeTry_of_firstAccepted {j : Nat} (h0 : s.arg0.toNat ≠ 0)
    (hj : FirstAccepted s.passStart s.draws.advance j) :
    genPrimeTry s.arg0.toNat s.arg1.toNat s.draws =
      (some (s.passStart + 2 * j), portAt s.passStart s.draws.advance (j + 1)) := by
  obtain ⟨j', hlt, hj'⟩ := exists_firstAccepted searchStart_odd (passStart_lt h0) s.draws.advance
  exact primeScan_of_firstAccepted hj (firstAccepted_unique hj hj' ▸ hlt)

section Pass

variable (h0 : s.arg0.toNat ≠ 0) (htop : s.arg1.toNat ≤ s.arg0.toNat) (hcap : limbCount s.arg0.toNat ≤ s.maxcap)
include h0 htop hcap

/-- Past its checks GENPRIME commits the find of one pass or, if it has drifted, stays in progress. -/
theorem exec_genprime_of_firstAccepted {j : Nat} (hj : FirstAccepted s.passStart s.draws.advance j) :
    let q := s.passStart + 2 * j
    let p := portAt s.passStart s.draws.advance (j + 1)
    exec (.genprime rd) s =
      if Nat.size q = s.arg0.toNat then
        .next ((s.setDraws p).write rd .positive (Limbs.ofMag q (limbCount s.arg0.toNat)))
      else .next ((s.setDraws p).setRunning (some (encode (.genprime rd)))) := by
  rw [exec, execGenprime, if_neg (by omega), if_neg (not_lt.2 hcap)]
  simp only [genPrimeTry_of_firstAccepted h0 hj, bitlenOf_eq_size]
  rw [State.commit_of_le (by rwa [Limbs.length_ofMag])]

theorem exec_genprime_of_size_eq {j : Nat} (hj : FirstAccepted s.passStart s.draws.advance j)
    (hsize : Nat.size (s.passStart + 2 * j) = s.arg0.toNat) :
    ∃ t, exec (.genprime rd) s = .next t ∧ (t.reg rd).sign = .positive ∧ (t.reg rd).mag = s.passStart + 2 * j ∧
      (t.reg rd).cap = limbCount s.arg0.toNat ∧ WritesOnly [rd] s t ∧
      t.draws = portAt s.passStart s.draws.advance (j + 1) :=
  ⟨_, (exec_genprime_of_firstAccepted h0 htop hcap hj).trans (if_pos hsize),
    setDraws_write_ofMag (ne_zero_of_size h0 hsize) (lt_base_pow_of_size hsize)⟩

theorem exec_genprime_of_size_ne {j : Nat} (hj : FirstAccepted s.passStart s.draws.advance j)
    (hsize : Nat.size (s.passStart + 2 * j) ≠ s.arg0.toNat) :
    exec (.genprime rd) s =
      .next { s with
        draws := portAt s.passStart s.draws.advance (j + 1)
        running := some (encode (.genprime rd)) } :=
  (exec_genprime_of_firstAccepted h0 htop hcap hj).trans (if_neg hsize)

end Pass

/-- GENPRIME raises one of its two faults or goes on to a state with the fault bit as it was. -/
theorem genprime_cases (s : State) (rd : Reg) :
    Raises arithmeticError (.genprime rd) s ∨ Raises allocationFailure (.genprime rd) s ∨
      ∃ t, exec (.genprime rd) s = .next t ∧ t.fault = s.fault := by
  by_cases hbad : s.arg0.toNat = 0 ∨ s.arg0.toNat < s.arg1.toNat
  · exact .inl (exec_genprime_of_badBits hbad)
  obtain ⟨h0, htop⟩ := not_or.1 hbad
  rcases lt_or_ge s.maxcap (limbCount s.arg0.toNat) with hlt | hcap
  · exact .inr (.inl (exec_genprime_of_lt h0 (not_lt.1 htop) hlt))
  obtain ⟨j, -, hj⟩ := exists_firstAccepted searchStart_odd (passStart_lt h0) s.draws.advance
  by_cases hsize : Nat.size (s.passStart + 2 * j) = s.arg0.toNat
  · obtain ⟨t, hexec, -, -, -, ⟨⟨-, -, hfault, -⟩, -⟩, -⟩ :=
      exec_genprime_of_size_eq (rd := rd) h0 (not_lt.1 htop) hcap hj hsize
    exact .inr (.inr ⟨t, hexec, hfault⟩)
  · exact .inr (.inr ⟨_, exec_genprime_of_size_ne h0 (not_lt.1 htop) hcap hj hsize, rfl⟩)

/-- Settles O20: the checks raise their faults, and past them the pass finds a candidate. -/
theorem genprimeAnswersNext : Obligations.GenprimeAnswersNext := by
  intro rd s
  rcases genprime_cases s rd with h | h | ⟨t, h, -⟩
  · exact ⟨_, h⟩
  · exact ⟨_, h⟩
  · exact ⟨t, h⟩

/-- A find that has not drifted is what R286 calls a result. -/
theorem searchResult_of_firstAccepted {j : Nat} (h0 : s.arg0.toNat ≠ 0)
    (hj : FirstAccepted s.passStart s.draws.advance j)
    (hsize : Nat.size (s.passStart + 2 * j) = s.arg0.toNat) :
    SearchResult s.arg0.toNat s.arg1.toNat (s.passStart + 2 * j) := by
  have hodd : s.passStart % 2 = 1 := searchStart_odd
  obtain ⟨hne, hprime⟩ := of_isProbablyPrime hj.1
  exact ⟨hsize, by omega, (le_searchStart h0).trans (Nat.le_add_right _ _), hne, hprime⟩

/-- The environment of a pass that ends at once with q: the bits of q below the top one, then 30 times the base 1. -/
def drawsFor (bits q : Nat) : DrawPort := ⟨(q - 2 ^ (bits - 1)) :: List.replicate 30 1, 0⟩

theorem firstAccepted_drawsFor {q : Nat} (h0 : s.arg0.toNat ≠ 0)
    (hq : SearchResult s.arg0.toNat s.arg1.toNat q) :
    let s' := s.setDraws (drawsFor s.arg0.toNat q)
    s'.passStart = q ∧ FirstAccepted s'.passStart s'.draws.advance 0 := by
  intro s'
  have hdraw : (s'.draws.draw 0 (2 ^ (s.arg0.toNat - 1) - 1)).1 = q - 2 ^ (s.arg0.toNat - 1) :=
    congrArg Prod.fst (DrawPort.draw_cons _ 0 (Nat.zero_le _) (size_low_bits h0 hq.1).2)
  have hstart : s'.passStart = q := (congrArg _ hdraw).trans (searchStart_of_searchResult h0 hq)
  refine ⟨hstart, firstAccepted_zero ?_⟩
  rw [hstart]
  exact isProbablyPrime_of_searchResult hq 30 1

end Genprime

/-! Results of the search (R286) and the two short lengths (R286, R287) -/

/-- Settles O59: the find of the pass is committed or drifts; a result is the find of a pass that starts at it and draws
the base 1 in every round. -/
theorem genprimeCommitsItsFind : Obligations.GenprimeCommitsItsFind := by
  intro s rd bits topBits d start h0 htop hcap
  refine ⟨fun j hj => ⟨fun hsize => ⟨exec_genprime_of_size_eq h0 htop hcap hj hsize,
    searchResult_of_firstAccepted h0 hj hsize⟩, exec_genprime_of_size_ne h0 htop hcap hj⟩, fun q hq => ?_⟩
  obtain ⟨hstart, haccepted⟩ := firstAccepted_drawsFor h0 hq
  obtain ⟨t, hexec, hsign, hmag, hcapt, hwrites, -⟩ :=
    exec_genprime_of_size_eq (s := s.setDraws (drawsFor bits q)) (rd := rd) h0 htop hcap haccepted
      ((congrArg Nat.size hstart).trans hq.1)
  exact ⟨_, t, hexec, hsign, hmag.trans hstart, hcapt, hwrites⟩

/-- From 1, which is rejected, the search comes to 3. -/
theorem firstAccepted_one (p : DrawPort) : FirstAccepted 1 p 1 := by
  refine ⟨isProbablyPrime_of_prime Nat.prime_three, fun i hi => ?_⟩
  obtain rfl : i = 0 := by omega
  rw [isProbablyPrime_of_le_one (by decide)]

/-- The start of a pass lies among the starts of the values its draw can have. -/
theorem passStart_eq {s : State} {bits n : Nat} (hbits : s.arg0.toNat = bits)
    (h : ∀ d ≤ 2 ^ (bits - 1) - 1, searchStart bits s.arg1.toNat d = n) : s.passStart = n := by
  obtain ⟨-, hle⟩ := s.draws.draw_mem_range (Nat.zero_le (2 ^ (bits - 1) - 1))
  rw [State.passStart, hbits]
  exact h _ hle

theorem searchStart_two : ∀ topBits ≤ 2, ∀ d ≤ 1, searchStart 2 topBits d = 3 := by decide

theorem searchStart_one : ∀ topBits ≤ 1, ∀ d ≤ 0, searchStart 1 topBits d = 1 := by decide

theorem size_three : Nat.size 3 = 2 := size_two_pow_add (k := 1) (d := 1) (by decide)

/-- Settles O60: two bits start at 3, a prime; one bit starts at 1 and finds 3, which has two bits. -/
theorem genprimeOfOneAndTwoBits : Obligations.GenprimeOfOneAndTwoBits := by
  refine fun s rd hmax => ⟨fun harg htop => ?_, fun harg htop => ?_⟩
  · have hbits : s.arg0.toNat = 2 := congrArg BitVec.toNat harg
    have hstart : s.passStart = 3 := passStart_eq hbits (searchStart_two _ htop)
    obtain ⟨t, hexec, hsign, hmag, hcap, hwrites, -⟩ := exec_genprime_of_size_eq (rd := rd) (j := 0) (by omega)
      (by omega) (by rwa [hbits]) (hstart ▸ firstAccepted_zero (isProbablyPrime_of_prime Nat.prime_three))
      (by rw [hstart, hbits]; exact size_three)
    rw [hstart] at hmag
    rw [hbits] at hcap
    exact ⟨t, hexec, congrArg₂ BigNum.mk hsign (Limbs.eq_of_mag_eq hcap hmag), hwrites⟩
  · have hbits : s.arg0.toNat = 1 := congrArg BitVec.toNat harg
    have hstart : s.passStart = 1 := passStart_eq hbits (searchStart_one _ htop)
    exact ⟨_, exec_genprime_of_size_ne (j := 1) (by omega) (by omega) (by rwa [hbits])
      (hstart ▸ firstAccepted_one _) (by rw [hstart, hbits, size_three]; decide)⟩

end Sys2Proof.Machine
end

section
/-! # Which commands fault, and with what (60_exceptions.md R347, R348; 48_random.md R287). -/

namespace Sys2Proof.Machine

open Claims

/-! Every command but GENPRIME completes or faults in one step (48_random.md R287) -/

/-- The outcome is a next state. -/
def AnswersNext (o : Host.Outcome State Fault Refusal) : Prop := ∃ t, o = .next t

theorem answersNext (t : State) : AnswersNext (.next t) := ⟨t, rfl⟩

theorem AnswersNext.branch {c : Prop} [Decidable c] {a b : Host.Outcome State Fault Refusal} (ha : AnswersNext a)
    (hb : AnswersNext b) : AnswersNext (if c then a else b) := by
  split_ifs
  · exact ha
  · exact hb

/-- Settles O19: the commands with a check branch to next states, the others are one. -/
theorem commandsAnswerNext : Obligations.CommandsAnswerNext := by
  intro i s hi
  cases i with
  | genprime rd => exact absurd rfl (hi rd)
  | alloc rd => exact (answersNext _).branch ((answersNext _).branch (answersNext _))
  | realloc rd | copyc rd rs1 | randl rd | setlimb rd | setbyte rd | div rd rs1 rs2 | mod rd rs1 rs2
  | randmax rd rs1 => exact (answersNext _).branch (answersNext _)
  | divrem rd rs1 rs2 rs3 | modexp rd rs1 rs2 rs3 | randbits rd =>
    exact (answersNext _).branch ((answersNext _).branch (answersNext _))
  | modinv rd rs1 rs2 =>
    exact (answersNext _).branch ((answersNext _).branch ((answersNext _).branch (answersNext _)))
  | free rd | copy rd rs1 | setu32 rd | getlimb rs1 | getbyte rs1 | alen rs1 | bitlen rs1 | getsign rs1 | setsign rd
  | neg rd rs1 | cmp rs1 rs2 | shl rd rs1 | shr rd rs1 | add rd rs1 rs2 | sub rd rs1 rs2 | mul rd rs1 rs2
  | gcd rd rs1 rs2 | lcm rd rs1 rs2 | isprime rs1 => exact answersNext _

/-! A fault changes nothing else (R348) -/

/-- Settles O17: of the effects of a command only the fault sets FAULT, and within the bounds it precedes any draw. -/
theorem faultingCommandChangesNothingElse : Obligations.FaultingCommandChangesNothingElse := by
  intro i s t hs hf h ht
  obtain ⟨g, hg, rfl, -⟩ := exec_next h
  cases hg with
  | raise c p hp _ =>
    obtain ⟨hlo, hhi⟩ := c.code_mem_range
    obtain rfl := hp hs
    exact ⟨c.code, hlo, hhi, rfl⟩
  | store | storeBoth | answer | order | test | storeTest | restart =>
    exact absurd (hf.symm.trans ht) Bool.false_ne_true

/-! The faults of each command (R347) -/

/-- The command raises no fault but those `P` allows. -/
def RaisesOnly (P : BitVec 4 → Prop) (i : Instr) (s : State) : Prop :=
  ∀ t, exec i s = .next t → t.fault = true → P t.fcode

namespace RaisesOnly

variable {P : BitVec 4 → Prop} {i : Instr} {s : State}

theorem of_raises {code : BitVec 4} (hP : P code) (h : Raises code i s) : RaisesOnly P i s := fun t ht _ => by
  obtain rfl := Host.Outcome.next.inj (h.symm.trans ht)
  exact hP

variable (hf : s.fault = false)
include hf

theorem of_next {t : State} (h : exec i s = .next t) (hkeep : t.fault = s.fault) : RaisesOnly P i s :=
  fun t' ht' hfault => by
    obtain rfl := Host.Outcome.next.inj (h.symm.trans ht')
    exact absurd (hf.symm.trans (hkeep.symm.trans hfault)) Bool.false_ne_true

theorem of_writesOnly {ds : List Reg} (h : ∃ t, exec i s = .next t ∧ WritesOnly ds s t) : RaisesOnly P i s := by
  obtain ⟨t, hexec, ⟨-, -, hfault, -⟩, -⟩ := h
  exact of_next hf hexec hfault

theorem of_commits {d : Reg} {v : Int} {n : Nat} (h : Commits d v n i s) : RaisesOnly P i s := by
  obtain ⟨t, hexec, -, -, hwrites, -⟩ := h
  exact of_writesOnly hf ⟨t, hexec, hwrites⟩

/-- A command that is exact within MAXCAP and raises AllocationFailure beyond it. -/
theorem of_commits_or_raises {d : Reg} {v : Int} {n : Nat} (hP : P allocationFailure)
    (h : (n ≤ s.maxcap → Commits d v n i s) ∧ (s.maxcap < n → Raises allocationFailure i s)) : RaisesOnly P i s := by
  rcases le_or_gt n s.maxcap with hle | hlt
  · exact of_commits hf (h.1 hle)
  · exact of_raises hP (h.2 hlt)

end RaisesOnly

/-- Two operands of GCD and LCM: both zero, one zero, a negative one, or both positive. -/
theorem BigNum.operand_cases (u v : BigNum) :
    (u.mag = 0 ∧ v.mag = 0) ∨ ((u.mag = 0 ∧ v.mag ≠ 0) ∨ (u.mag ≠ 0 ∧ v.mag = 0)) ∨
      (u.mag ≠ 0 ∧ v.mag ≠ 0 ∧ (u.val < 0 ∨ v.val < 0)) ∨ (0 < u.val ∧ 0 < v.val) := by
  have hu := u.natAbs_val
  have hv := v.natAbs_val
  omega

section Commands

variable {s : State} (hs : s.CapsBounded) (hf : s.fault = false) (rd rs1 rs2 rs3 : Reg)
include hf

theorem alloc_raisesOnly : RaisesOnly (mayRaise (.alloc rd)) (.alloc rd) s := by
  by_cases hcap : (s.reg rd).cap = 0
  · rcases lt_or_ge s.maxcap s.arg0.toNat with hlt | hle
    · exact .of_raises rfl (exec_alloc_of_lt hcap hlt)
    · exact .of_next hf (exec_alloc_of_le hcap hle) rfl
  · exact .of_next hf (exec_alloc_of_allocated hcap) rfl

theorem realloc_raisesOnly : RaisesOnly (mayRaise (.realloc rd)) (.realloc rd) s := by
  rcases lt_or_ge s.maxcap s.arg0.toNat with hlt | hle
  · exact .of_raises rfl (exec_realloc_of_lt hlt)
  · exact .of_next hf (exec_realloc_of_le hle) rfl

theorem copyc_raisesOnly : RaisesOnly (mayRaise (.copyc rd rs1)) (.copyc rd rs1) s := by
  rcases lt_or_ge s.maxcap s.arg0.toNat with hlt | hle
  · exact .of_raises rfl (exec_copyc_of_lt hlt)
  · exact .of_next hf (exec_copyc_of_le hle) rfl

theorem setlimb_raisesOnly : RaisesOnly (mayRaise (.setlimb rd)) (.setlimb rd) s := by
  rcases lt_or_ge s.arg0.toNat (s.reg rd).cap with hlt | hle
  · exact .of_next hf (exec_setlimb_of_lt hlt) rfl
  · exact .of_next hf (exec_setlimb_of_le hle) rfl

theorem setbyte_raisesOnly : RaisesOnly (mayRaise (.setbyte rd)) (.setbyte rd) s := by
  rcases lt_or_ge (s.arg0.toNat / 4) (s.reg rd).cap with hlt | hle
  · exact .of_next hf (exec_setbyte_of_lt hlt) rfl
  · exact .of_next hf (exec_setbyte_of_le hle) rfl

theorem randl_raisesOnly : RaisesOnly (mayRaise (.randl rd)) (.randl rd) s := by
  rcases lt_or_ge s.maxcap s.arg0.toNat with hlt | hle
  · exact .of_raises rfl (exec_randl_of_lt hlt)
  · exact .of_next hf (exec_randl_of_le hle) rfl

theorem randbits_raisesOnly : RaisesOnly (mayRaise (.randbits rd)) (.randbits rd) s := by
  by_cases h0 : s.arg0.toNat = 0
  · exact .of_raises (.inr rfl) (exec_randbits_of_zero h0)
  rcases lt_or_ge s.maxcap (limbCount s.arg0.toNat) with hlt | hle
  · exact .of_raises (.inl rfl) (exec_randbits_of_lt h0 hlt)
  · exact .of_next hf (exec_randbits_of_le h0 hle) rfl

theorem lcm_raisesOnly : RaisesOnly (mayRaise (.lcm rd rs1 rs2)) (.lcm rd rs1 rs2) s := by
  obtain ⟨hneg, hzeros, hzero, hle, hlt⟩ := lcmCommand s rd rs1 rs2
  rcases BigNum.operand_cases (s.reg rs1) (s.reg rs2) with ⟨hu, hv⟩ | hone | ⟨hu, hv, h⟩ | ⟨hu, hv⟩
  · exact .of_raises (.inr (.inl rfl)) (hzeros hu hv)
  · exact .of_commits hf (hzero hone)
  · exact .of_raises (.inr (.inr rfl)) (hneg hu hv h)
  · exact .of_commits_or_raises hf (.inl rfl) ⟨hle hu hv, hlt hu hv⟩

theorem genprime_raisesOnly : RaisesOnly (mayRaise (.genprime rd)) (.genprime rd) s := by
  rcases genprime_cases s rd with h | h | ⟨t, h, hkeep⟩
  · exact .of_raises (.inr rfl) h
  · exact .of_raises (.inl rfl) h
  · exact .of_next hf h hkeep

/-! The commands that raise no AllocationFailure, because their results are no longer than an operand -/

include hs

theorem divrem_raisesOnly (hne : rd ≠ rs3) :
    RaisesOnly (mayRaise (.divrem rd rs1 rs2 rs3)) (.divrem rd rs1 rs2 rs3) s := by
  by_cases hv : (s.reg rs2).mag = 0
  · exact .of_raises rfl (exec_divrem_of_eq hne hv)
  · exact .of_next hf (exec_divrem_of_ne hs hne hv) rfl

theorem div_raisesOnly : RaisesOnly (mayRaise (.div rd rs1 rs2)) (.div rd rs1 rs2) s := by
  obtain ⟨hzero, hne⟩ := divAndModTruncate s rd rs1 rs2 hs
  by_cases hv : (s.reg rs2).mag = 0
  · exact .of_raises rfl (hzero hv).1
  · exact .of_commits hf (hne hv).1

theorem mod_raisesOnly : RaisesOnly (mayRaise (.mod rd rs1 rs2)) (.mod rd rs1 rs2) s := by
  obtain ⟨hzero, hne⟩ := divAndModTruncate s rd rs1 rs2 hs
  by_cases hv : (s.reg rs2).mag = 0
  · exact .of_raises rfl (hzero hv).2
  · exact .of_commits hf (hne hv).2

theorem gcd_raisesOnly : RaisesOnly (mayRaise (.gcd rd rs1 rs2)) (.gcd rd rs1 rs2) s := by
  obtain ⟨hleft, hright, hneg, hpos⟩ := gcdCommand s rd rs1 rs2 hs
  rcases BigNum.operand_cases (s.reg rs1) (s.reg rs2) with ⟨hu, -⟩ | (⟨hu, -⟩ | ⟨-, hv⟩) | ⟨hu, hv, h⟩ | ⟨hu, hv⟩
  · exact .of_commits hf (hleft hu)
  · exact .of_commits hf (hleft hu)
  · exact .of_commits hf (hright hv)
  · exact .of_raises rfl (hneg hu hv h)
  · exact .of_commits hf (hpos hu hv)

theorem modinv_raisesOnly : RaisesOnly (mayRaise (.modinv rd rs1 rs2)) (.modinv rd rs1 rs2) s := by
  obtain ⟨hneg, hzero, hone, hnone, hinv⟩ := modinvCommand s rd rs1 rs2 hs
  by_cases h : (s.reg rs1).val < 0 ∨ (s.reg rs2).val < 0
  · exact .of_raises (.inr rfl) (hneg h)
  obtain ⟨hu, hv⟩ := not_or.1 h
  rw [not_lt] at hu hv
  rcases (show (s.reg rs2).val = 0 ∨ (s.reg rs2).val = 1 ∨ 1 < (s.reg rs2).val by omega) with hv | hv | hv
  · exact .of_raises (.inl rfl) (hzero hu hv)
  · obtain ⟨t, hexec, -, -, hwrites, -⟩ := hone hu hv
    exact .of_writesOnly hf ⟨t, hexec, hwrites⟩
  · by_cases hgcd : Nat.gcd (s.reg rs1).mag (s.reg rs2).mag = 1
    · obtain ⟨x, -, -, -, hcommits⟩ := hinv hu hv hgcd
      exact .of_commits hf hcommits
    · exact .of_commits hf (hnone hu hv hgcd)

theorem modexp_raisesOnly : RaisesOnly (mayRaise (.modexp rd rs1 rs2 rs3)) (.modexp rd rs1 rs2 rs3) s := by
  obtain ⟨hneg, hzero, hone, hpow⟩ := modexpCommand s rd rs1 rs2 rs3 hs
  by_cases h : (s.reg rs1).val < 0 ∨ (s.reg rs2).val < 0 ∨ (s.reg rs3).val < 0
  · exact .of_raises (.inr rfl) (hneg h)
  simp only [not_or, not_lt] at h
  obtain ⟨hb, he, hm⟩ := h
  rcases hm.eq_or_lt with hm | hm
  · exact .of_raises (.inl rfl) (hzero hb he hm.symm)
  rcases he.eq_or_lt with he | he
  · exact .of_commits hf (hone hb he.symm hm)
  · exact .of_commits hf (hpow hb he hm)

theorem randmax_raisesOnly : RaisesOnly (mayRaise (.randmax rd rs1)) (.randmax rd rs1) s := by
  rcases lt_or_ge (s.reg rs1).val 0 with hneg | h
  · exact .of_raises rfl (exec_randmax_of_neg hneg)
  · exact .of_next hf (exec_randmax_of_nonneg hs h) rfl

end Commands

theorem exec_raisesOnly {i : Instr} {s : State} (hw : i.wellFormed = true) (hs : s.CapsBounded)
    (hf : s.fault = false) : RaisesOnly (mayRaise i) i s := by
  cases i with
  | alloc rd => exact alloc_raisesOnly hf rd
  | realloc rd => exact realloc_raisesOnly hf rd
  | copyc rd rs1 => exact copyc_raisesOnly hf rd rs1
  | setlimb rd => exact setlimb_raisesOnly hf rd
  | setbyte rd => exact setbyte_raisesOnly hf rd
  | shl rd rs1 => exact .of_commits_or_raises hf rfl (shlIsExact s rd rs1)
  | shr rd rs1 => exact .of_commits hf (shrRoundsTowardZero s rd rs1 hs)
  | add rd rs1 rs2 => exact .of_commits_or_raises hf rfl (addIsExact s rd rs1 rs2)
  | sub rd rs1 rs2 => exact .of_commits_or_raises hf rfl (subIsExact s rd rs1 rs2)
  | mul rd rs1 rs2 => exact .of_commits_or_raises hf rfl (mulIsExact s rd rs1 rs2)
  | divrem rd rs1 rs2 rs3 => exact divrem_raisesOnly hs hf rd rs1 rs2 rs3 (of_decide_eq_true hw)
  | div rd rs1 rs2 => exact div_raisesOnly hs hf rd rs1 rs2
  | mod rd rs1 rs2 => exact mod_raisesOnly hs hf rd rs1 rs2
  | gcd rd rs1 rs2 => exact gcd_raisesOnly hs hf rd rs1 rs2
  | lcm rd rs1 rs2 => exact lcm_raisesOnly hf rd rs1 rs2
  | modinv rd rs1 rs2 => exact modinv_raisesOnly hs hf rd rs1 rs2
  | modexp rd rs1 rs2 rs3 => exact modexp_raisesOnly hs hf rd rs1 rs2 rs3
  | randl rd => exact randl_raisesOnly hf rd
  | randmax rd rs1 => exact randmax_raisesOnly hs hf rd rs1
  | randbits rd => exact randbits_raisesOnly hf rd
  | genprime rd => exact genprime_raisesOnly hf rd
  | free rd | copy rd rs1 | setu32 rd | getlimb rs1 | getbyte rs1 | alen rs1 | bitlen rs1 | getsign rs1 | setsign rd
  | neg rd rs1 | cmp rs1 rs2 | isprime rs1 => exact .of_next hf rfl rfl

/-- Settles O18: the rows of R347, each from what its command does in each of its cases. -/
theorem commandsRaiseOnlyTheirFaults : Obligations.CommandsRaiseOnlyTheirFaults :=
  fun _ _ t hw hs hf => exec_raisesOnly hw hs hf t

end Sys2Proof.Machine
end

section
/-! # The reset event (70_reset_and_hazards.md R371; log 9). -/

namespace Sys2Proof.Machine

/-- A reset that comes next is served, or ends the command in progress; it is the same event. -/
theorem step_reset {s : State} {es : List HostEvent} (hp : s.pending = .reset :: es) :
    step s = .next (s.setPending es).resetEvent := by
  cases hr : s.running with
  | none => exact step_serve hr hp
  | some w => exact (step_of_running hr).trans (by simp [resumeCommand, hp])

/-- Settles O8: the state the reset event leaves, field by field. -/
theorem resetEventClearsTheUnit : Obligations.ResetEventClearsTheUnit := fun s es hp =>
  ⟨_, step_reset hp, State.resetEvent_reg (s.setPending es), rfl, rfl, rfl, rfl, rfl, rfl, rfl, rfl, rfl, rfl, rfl, rfl,
    rfl, rfl, rfl⟩

end Sys2Proof.Machine
end
